-- ==== Sys2Proof/Word.lean ====
section
/-! DEFINITION. The word types of the machine (00_scope.md R8, R9): what the spec itself treats as bits. -/

namespace Sys2Proof

/-- A 32-bit word: a register value, an address or an instruction (R6 `XLEN`, `ALEN`, `ILEN`; R9).
Addition and subtraction wrap modulo 2^32, as R9 says (decision D11). -/
abbrev Word := BitVec 32

/-- An 8-bit byte, the unit of memory (R8, R60). -/
abbrev Byte := BitVec 8

/-- A 4-bit register number, naming one of R0 to R15 (R30). -/
abbrev Reg := BitVec 4

/-- R15, the program counter (R34). -/
abbrev Reg.pc : Reg := 15#4

end Sys2Proof
end

