-- ==== Sys2Proof/Syntax.lean ====
section
/-! DEFINITION. The instructions: one constructor of `Instr` per row of spec/opcode_table.json (54 rows), with the
fields the row gives it. Register numbers, immediates and register lists stay the bit fields the spec makes them. -/

namespace Sys2Proof

/-- The fifteen conditions of Table 3-2 (40_conditional_execution.md R130), in the order of their codes 0000 to 1110.
The sixteenth code, 1111, is no condition (R132). -/
inductive Cond where
  | eq | ne | cs | cc | mi | pl | vs | vc | hi | ls | ge | lt | gt | le | al
  deriving DecidableEq, Repr

/-- The four shift codes of Table 3-3 (30_encoding.md R98), in the order 00, 01, 10, 11. -/
inductive ShiftType where
  | lsl | lsr | asr | ror
  deriving DecidableEq, Repr

/-- The second operand of a data-processing instruction: the three decodings of R101 and R96. -/
inductive Operand2 where
  /-- Form 1 (R96, R141): `immed_8` rotated right by twice `rotate_4`. -/
  | imm (rotate4 : BitVec 4) (immed8 : BitVec 8)
  /-- Forms 2, 3 and 5 (R97, R98, R100): (0, LSL) is the plain register, (0, ROR) is RRX. -/
  | shiftImm (amount : BitVec 5) (ty : ShiftType) (rm : Reg)
  /-- Form 4 (R99): shifted by the low byte of Rs. -/
  | shiftReg (rs : Reg) (ty : ShiftType) (rm : Reg)
  deriving DecidableEq, Repr

/-- The pair (P, W) of a single Load/Store (R106, R110). -/
inductive Indexing where
  /-- P = 1, W = 0: `[Rn, offset]`, no write-back. -/
  | offset
  /-- P = 1, W = 1: `[Rn, offset]!`. -/
  | preIndexed
  /-- P = 0, W = 1: `[Rn], offset`. -/
  | postIndexed
  /-- P = 0, W = 0: in none of the source's tables; the parameter `P0W0` decides (R185). -/
  | unlisted
  deriving DecidableEq, Repr

/-- An instruction: one constructor per row of spec/opcode_table.json. `c` is the condition, `s` the S bit of a
data-processing instruction, `up` the U bit (add the offset), `ix` the pair (P, W). -/
inductive Instr where
  -- data processing that the source's examples use (R155 to R157)
  | movImm (c : Cond) (s : Bool) (rd : Reg) (rotate4 : BitVec 4) (immed8 : BitVec 8)
  | movShiftImm (c : Cond) (s : Bool) (rd : Reg) (amount : BitVec 5) (ty : ShiftType) (rm : Reg)
  | movShiftReg (c : Cond) (s : Bool) (rd : Reg) (rs : Reg) (ty : ShiftType) (rm : Reg)
  | addImm (c : Cond) (s : Bool) (rn rd : Reg) (rotate4 : BitVec 4) (immed8 : BitVec 8)
  | addShiftImm (c : Cond) (s : Bool) (rn rd : Reg) (amount : BitVec 5) (ty : ShiftType) (rm : Reg)
  | addShiftReg (c : Cond) (s : Bool) (rn rd : Reg) (rs : Reg) (ty : ShiftType) (rm : Reg)
  | cmpImm (c : Cond) (rn : Reg) (rotate4 : BitVec 4) (immed8 : BitVec 8)
  | cmpShiftImm (c : Cond) (rn : Reg) (amount : BitVec 5) (ty : ShiftType) (rm : Reg)
  | cmpShiftReg (c : Cond) (rn : Reg) (rs : Reg) (ty : ShiftType) (rm : Reg)
  -- the optional data-processing rows (R158); `sbz` is the register field the operation does not use
  | andDp (c : Cond) (s : Bool) (rn rd : Reg) (op2 : Operand2)
  | eorDp (c : Cond) (s : Bool) (rn rd : Reg) (op2 : Operand2)
  | subDp (c : Cond) (s : Bool) (rn rd : Reg) (op2 : Operand2)
  | rsbDp (c : Cond) (s : Bool) (rn rd : Reg) (op2 : Operand2)
  | adcDp (c : Cond) (s : Bool) (rn rd : Reg) (op2 : Operand2)
  | sbcDp (c : Cond) (s : Bool) (rn rd : Reg) (op2 : Operand2)
  | rscDp (c : Cond) (s : Bool) (rn rd : Reg) (op2 : Operand2)
  | tstDp (c : Cond) (rn sbz : Reg) (op2 : Operand2)
  | teqDp (c : Cond) (rn sbz : Reg) (op2 : Operand2)
  | cmnDp (c : Cond) (rn sbz : Reg) (op2 : Operand2)
  | orrDp (c : Cond) (s : Bool) (rn rd : Reg) (op2 : Operand2)
  | bicDp (c : Cond) (s : Bool) (rn rd : Reg) (op2 : Operand2)
  | mvnDp (c : Cond) (s : Bool) (sbz rd : Reg) (op2 : Operand2)
  -- word and unsigned byte Load/Store (R186 to R189)
  | ldrImm (c : Cond) (ix : Indexing) (up : Bool) (rn rd : Reg) (offset : BitVec 12)
  | ldrReg (c : Cond) (ix : Indexing) (up : Bool) (rn rd : Reg) (amount : BitVec 5) (ty : ShiftType) (rm : Reg)
  | strImm (c : Cond) (ix : Indexing) (up : Bool) (rn rd : Reg) (offset : BitVec 12)
  | strReg (c : Cond) (ix : Indexing) (up : Bool) (rn rd : Reg) (amount : BitVec 5) (ty : ShiftType) (rm : Reg)
  | ldrbImm (c : Cond) (ix : Indexing) (up : Bool) (rn rd : Reg) (offset : BitVec 12)
  | ldrbReg (c : Cond) (ix : Indexing) (up : Bool) (rn rd : Reg) (amount : BitVec 5) (ty : ShiftType) (rm : Reg)
  | strbImm (c : Cond) (ix : Indexing) (up : Bool) (rn rd : Reg) (offset : BitVec 12)
  | strbReg (c : Cond) (ix : Indexing) (up : Bool) (rn rd : Reg) (amount : BitVec 5) (ty : ShiftType) (rm : Reg)
  -- halfword and signed byte Load/Store (R224 to R227)
  | ldrhImm (c : Cond) (ix : Indexing) (up : Bool) (rn rd : Reg) (offsetH offsetL : BitVec 4)
  | ldrhReg (c : Cond) (ix : Indexing) (up : Bool) (rn rd rm : Reg)
  | ldrsbImm (c : Cond) (ix : Indexing) (up : Bool) (rn rd : Reg) (offsetH offsetL : BitVec 4)
  | ldrsbReg (c : Cond) (ix : Indexing) (up : Bool) (rn rd rm : Reg)
  | ldrshImm (c : Cond) (ix : Indexing) (up : Bool) (rn rd : Reg) (offsetH offsetL : BitVec 4)
  | ldrshReg (c : Cond) (ix : Indexing) (up : Bool) (rn rd rm : Reg)
  | strhImm (c : Cond) (ix : Indexing) (up : Bool) (rn rd : Reg) (offsetH offsetL : BitVec 4)
  | strhReg (c : Cond) (ix : Indexing) (up : Bool) (rn rd rm : Reg)
  -- multiple Load/Store (R263, R264); `before` is P, `user` the S bit of R112, `wb` the W bit
  | ldm (c : Cond) (before up user wb : Bool) (rn : Reg) (list : BitVec 16)
  | stm (c : Cond) (before up user wb : Bool) (rn : Reg) (list : BitVec 16)
  -- coprocessor Load/Store (R307, R308); `n` is the N bit, `off` counts words
  | ldcOffset (c : Cond) (up n : Bool) (rn crd cp : Reg) (off : BitVec 8)
  | ldcPre (c : Cond) (up n : Bool) (rn crd cp : Reg) (off : BitVec 8)
  | ldcPost (c : Cond) (up n : Bool) (rn crd cp : Reg) (off : BitVec 8)
  | ldcUnindexed (c : Cond) (up n : Bool) (rn crd cp : Reg) (option : BitVec 8)
  | stcOffset (c : Cond) (up n : Bool) (rn crd cp : Reg) (off : BitVec 8)
  | stcPre (c : Cond) (up n : Bool) (rn crd cp : Reg) (off : BitVec 8)
  | stcPost (c : Cond) (up n : Bool) (rn crd cp : Reg) (off : BitVec 8)
  | stcUnindexed (c : Cond) (up n : Bool) (rn crd cp : Reg) (option : BitVec 8)
  -- the reserved rows: the word itself, which is all the spec says of them
  | undefinedCond1111 (w : Word)
  | undefinedLsRegBit4 (w : Word)
  | undefinedSignedStore (w : Word)
  | refusedBranchClass (w : Word)
  | refusedClass111 (w : Word)
  | refusedMulSwapSpace (w : Word)
  deriving DecidableEq, Repr

end Sys2Proof
end

