-- ==== Sys2Proof/WellFormed.lean ====
section
/-! DEFINITION. Which terms of `Instr` are instructions. Every field but a reserved row's word is a bit field that may
take all its values; a reserved row's word must lie in the row's part of the encoding space (its `match` and `mask`
in spec/opcode_table.json, cond 1111 having priority over every other row: R333 step 2). -/

namespace Sys2Proof

/-- A word with a condition of Table 3-2: `instr[31:28]` is not 1111 (R132). -/
def hasCond (w : Word) : Bool := w &&& 0xF0000000#32 != 0xF0000000#32

/-- The check on each term: the reserved rows' words lie in their rows. -/
def Instr.wf : Instr → Bool
  | .undefinedCond1111 w => !hasCond w
  | .undefinedLsRegBit4 w => hasCond w && w &&& 0x0E000010#32 == 0x06000010#32
  | .undefinedSignedStore w => hasCond w && w &&& 0x0E1000D0#32 == 0x000000D0#32
  | .refusedBranchClass w => hasCond w && w &&& 0x0E000000#32 == 0x0A000000#32
  | .refusedClass111 w => hasCond w && w &&& 0x0E000000#32 == 0x0E000000#32
  | .refusedMulSwapSpace w => hasCond w && w &&& 0x0E0000F0#32 == 0x00000090#32
  | .movImm .. | .movShiftImm .. | .movShiftReg .. | .addImm .. | .addShiftImm .. | .addShiftReg ..
  | .cmpImm .. | .cmpShiftImm .. | .cmpShiftReg .. | .andDp .. | .eorDp .. | .subDp .. | .rsbDp .. | .adcDp ..
  | .sbcDp .. | .rscDp .. | .tstDp .. | .teqDp .. | .cmnDp .. | .orrDp .. | .bicDp .. | .mvnDp ..
  | .ldrImm .. | .ldrReg .. | .strImm .. | .strReg .. | .ldrbImm .. | .ldrbReg .. | .strbImm .. | .strbReg ..
  | .ldrhImm .. | .ldrhReg .. | .ldrsbImm .. | .ldrsbReg .. | .ldrshImm .. | .ldrshReg .. | .strhImm ..
  | .strhReg .. | .ldm .. | .stm .. | .ldcOffset .. | .ldcPre .. | .ldcPost .. | .ldcUnindexed ..
  | .stcOffset .. | .stcPre .. | .stcPost .. | .stcUnindexed .. => true

end Sys2Proof
end

