-- ==== Sys2Proof/Decode.lean ====
section
/-! DEFINITION. The decoder (30_encoding.md R90 to R124: the decode tree of R93, total on every word, rejecting by name)
and after it the encoder, written from the same format tables. -/

namespace Sys2Proof

/-! ### Bit fields (R7) -/

/-- The field of `len` bits whose lowest bit is bit `lo`: `instr[lo+len-1 : lo]` (R7). -/
def field (w : Word) (lo len : Nat) : BitVec len := w.extractLsb' lo len

/-- One bit, `instr[i]` (R7). -/
def bit (w : Word) (i : Nat) : Bool := w.getLsbD i

/-- The word that holds `v` at bit `lo` and upwards, and zero elsewhere. -/
def place {n : Nat} (v : BitVec n) (lo : Nat) : Word := v.setWidth 32 <<< lo

/-- The word that holds one bit at position `lo`. -/
def placeBit (b : Bool) (lo : Nat) : Word := place (BitVec.ofBool b) lo

/-! ### Codes -/

/-- The code of a condition, `instr[31:28]` (R130, Table 3-2). -/
def Cond.code : Cond → BitVec 4
  | .eq => 0b0000#4 | .ne => 0b0001#4 | .cs => 0b0010#4 | .cc => 0b0011#4
  | .mi => 0b0100#4 | .pl => 0b0101#4 | .vs => 0b0110#4 | .vc => 0b0111#4
  | .hi => 0b1000#4 | .ls => 0b1001#4 | .ge => 0b1010#4 | .lt => 0b1011#4
  | .gt => 0b1100#4 | .le => 0b1101#4 | .al => 0b1110#4

/-- The condition a code stands for; none for 1111 (R132). -/
def condOfCode (b : BitVec 4) : Option Cond :=
  match b.toNat with
  | 0 => some .eq | 1 => some .ne | 2 => some .cs | 3 => some .cc
  | 4 => some .mi | 5 => some .pl | 6 => some .vs | 7 => some .vc
  | 8 => some .hi | 9 => some .ls | 10 => some .ge | 11 => some .lt
  | 12 => some .gt | 13 => some .le | 14 => some .al | _ => none

/-- The code of a shift type (R98, Table 3-3). -/
def ShiftType.code : ShiftType → BitVec 2
  | .lsl => 0b00#2 | .lsr => 0b01#2 | .asr => 0b10#2 | .ror => 0b11#2

/-- The shift type a code stands for (R98, Table 3-3). -/
def shiftOfCode (b : BitVec 2) : ShiftType :=
  match b.toNat with
  | 0 => .lsl | 1 => .lsr | 2 => .asr | _ => .ror

/-- The P bit of an indexing form (R106). -/
def Indexing.p : Indexing → Bool
  | .offset | .preIndexed => true
  | .postIndexed | .unlisted => false

/-- The W bit of an indexing form (R106). -/
def Indexing.w : Indexing → Bool
  | .preIndexed | .postIndexed => true
  | .offset | .unlisted => false

/-- The indexing form of a (P, W) pair (R106, R185). -/
def indexingOf (p w : Bool) : Indexing :=
  if p then (if w then .preIndexed else .offset) else (if w then .postIndexed else .unlisted)

/-! ### The decoder -/

/-- Why the decoder gives a word no instruction: the words of R117 that no row of the opcode table holds. Each is a
refusal the spec names (safe). -/
inductive DecodeError where
  /-- MOV with a non-zero Rn field (R124, D29). -/
  | movRnNotZero
  /-- CMP with a non-zero Rd field (R124, D29). -/
  | cmpRdNotZero
  /-- Opcode 1000 to 1011 with S = 0 (R158, D31). -/
  | compareWithoutS
  /-- Halfword register form with non-zero `instr[11:8]` (R124, D29). -/
  | halfwordBits11To8
  deriving DecidableEq, Repr

/-- The second operand of a data-processing word (R101, R96). -/
def decodeOperand2 (w : Word) : Operand2 :=
  if bit w 25 then .imm (field w 8 4) (field w 0 8)
  else if bit w 4 then .shiftReg (field w 8 4) (shiftOfCode (field w 5 2)) (field w 0 4)
  else .shiftImm (field w 7 5) (shiftOfCode (field w 5 2)) (field w 0 4)

/-- MOV (R155): the Rn field must be 0000 (R124). -/
def decodeMov (c : Cond) (w : Word) : Except DecodeError Instr :=
  if field w 16 4 = 0#4 then
    match decodeOperand2 w with
    | .imm r i => .ok (.movImm c (bit w 20) (field w 12 4) r i)
    | .shiftImm a t m => .ok (.movShiftImm c (bit w 20) (field w 12 4) a t m)
    | .shiftReg r t m => .ok (.movShiftReg c (bit w 20) (field w 12 4) r t m)
  else .error .movRnNotZero

/-- ADD (R156). -/
def decodeAdd (c : Cond) (w : Word) : Instr :=
  match decodeOperand2 w with
  | .imm r i => .addImm c (bit w 20) (field w 16 4) (field w 12 4) r i
  | .shiftImm a t m => .addShiftImm c (bit w 20) (field w 16 4) (field w 12 4) a t m
  | .shiftReg r t m => .addShiftReg c (bit w 20) (field w 16 4) (field w 12 4) r t m

/-- CMP (R157): the Rd field must be 0000 (R124). -/
def decodeCmp (c : Cond) (w : Word) : Except DecodeError Instr :=
  if field w 12 4 = 0#4 then
    match decodeOperand2 w with
    | .imm r i => .ok (.cmpImm c (field w 16 4) r i)
    | .shiftImm a t m => .ok (.cmpShiftImm c (field w 16 4) a t m)
    | .shiftReg r t m => .ok (.cmpShiftReg c (field w 16 4) r t m)
  else .error .cmpRdNotZero

/-- A data-processing word, by its opcode field (R95, R158). -/
def decodeDp (c : Cond) (w : Word) : Except DecodeError Instr :=
  match (field w 21 4).toNat with
  | 0 => .ok (.andDp c (bit w 20) (field w 16 4) (field w 12 4) (decodeOperand2 w))
  | 1 => .ok (.eorDp c (bit w 20) (field w 16 4) (field w 12 4) (decodeOperand2 w))
  | 2 => .ok (.subDp c (bit w 20) (field w 16 4) (field w 12 4) (decodeOperand2 w))
  | 3 => .ok (.rsbDp c (bit w 20) (field w 16 4) (field w 12 4) (decodeOperand2 w))
  | 4 => .ok (decodeAdd c w)
  | 5 => .ok (.adcDp c (bit w 20) (field w 16 4) (field w 12 4) (decodeOperand2 w))
  | 6 => .ok (.sbcDp c (bit w 20) (field w 16 4) (field w 12 4) (decodeOperand2 w))
  | 7 => .ok (.rscDp c (bit w 20) (field w 16 4) (field w 12 4) (decodeOperand2 w))
  | 8 => if bit w 20 then .ok (.tstDp c (field w 16 4) (field w 12 4) (decodeOperand2 w)) else .error .compareWithoutS
  | 9 => if bit w 20 then .ok (.teqDp c (field w 16 4) (field w 12 4) (decodeOperand2 w)) else .error .compareWithoutS
  | 10 => if bit w 20 then decodeCmp c w else .error .compareWithoutS
  | 11 => if bit w 20 then .ok (.cmnDp c (field w 16 4) (field w 12 4) (decodeOperand2 w)) else .error .compareWithoutS
  | 12 => .ok (.orrDp c (bit w 20) (field w 16 4) (field w 12 4) (decodeOperand2 w))
  | 13 => decodeMov c w
  | 14 => .ok (.bicDp c (bit w 20) (field w 16 4) (field w 12 4) (decodeOperand2 w))
  | _ => .ok (.mvnDp c (bit w 20) (field w 16 4) (field w 12 4) (decodeOperand2 w))

/-- The indexing form of a single Load/Store word: P is bit 24, W bit 21 (R102, R107). -/
def decodeIndexing (w : Word) : Indexing := indexingOf (bit w 24) (bit w 21)

/-- A word of the class `instr[27:25] = 000` with bits 7 and 4 set: the halfword and signed-byte Load/Store, or the
multiply and swap space (R93, R107 to R110, R228, R229). I is bit 22, L bit 20, S bit 6, H bit 5. -/
def decodeMisc (c : Cond) (w : Word) : Except DecodeError Instr :=
  if bit w 6 = false ∧ bit w 5 = false then .ok (.refusedMulSwapSpace w)
  else if bit w 20 = false ∧ bit w 6 = true then .ok (.undefinedSignedStore w)
  else if bit w 22 then
    if bit w 20 = false then
      .ok (.strhImm c (decodeIndexing w) (bit w 23) (field w 16 4) (field w 12 4) (field w 8 4) (field w 0 4))
    else if bit w 6 = false then
      .ok (.ldrhImm c (decodeIndexing w) (bit w 23) (field w 16 4) (field w 12 4) (field w 8 4) (field w 0 4))
    else if bit w 5 = false then
      .ok (.ldrsbImm c (decodeIndexing w) (bit w 23) (field w 16 4) (field w 12 4) (field w 8 4) (field w 0 4))
    else .ok (.ldrshImm c (decodeIndexing w) (bit w 23) (field w 16 4) (field w 12 4) (field w 8 4) (field w 0 4))
  else if field w 8 4 = 0#4 then
    if bit w 20 = false then
      .ok (.strhReg c (decodeIndexing w) (bit w 23) (field w 16 4) (field w 12 4) (field w 0 4))
    else if bit w 6 = false then
      .ok (.ldrhReg c (decodeIndexing w) (bit w 23) (field w 16 4) (field w 12 4) (field w 0 4))
    else if bit w 5 = false then
      .ok (.ldrsbReg c (decodeIndexing w) (bit w 23) (field w 16 4) (field w 12 4) (field w 0 4))
    else .ok (.ldrshReg c (decodeIndexing w) (bit w 23) (field w 16 4) (field w 12 4) (field w 0 4))
  else .error .halfwordBits11To8

/-- A word or unsigned-byte Load/Store with an immediate offset (R103); B is bit 22, L bit 20. -/
def decodeLsImm (c : Cond) (w : Word) : Instr :=
  if bit w 22 then
    if bit w 20 then .ldrbImm c (decodeIndexing w) (bit w 23) (field w 16 4) (field w 12 4) (field w 0 12)
    else .strbImm c (decodeIndexing w) (bit w 23) (field w 16 4) (field w 12 4) (field w 0 12)
  else if bit w 20 then .ldrImm c (decodeIndexing w) (bit w 23) (field w 16 4) (field w 12 4) (field w 0 12)
  else .strImm c (decodeIndexing w) (bit w 23) (field w 16 4) (field w 12 4) (field w 0 12)

/-- A word or unsigned-byte Load/Store with a register or scaled-register offset (R104, R105). -/
def decodeLsReg (c : Cond) (w : Word) : Instr :=
  if bit w 22 then
    if bit w 20 then
      .ldrbReg c (decodeIndexing w) (bit w 23) (field w 16 4) (field w 12 4) (field w 7 5)
        (shiftOfCode (field w 5 2)) (field w 0 4)
    else
      .strbReg c (decodeIndexing w) (bit w 23) (field w 16 4) (field w 12 4) (field w 7 5)
        (shiftOfCode (field w 5 2)) (field w 0 4)
  else if bit w 20 then
    .ldrReg c (decodeIndexing w) (bit w 23) (field w 16 4) (field w 12 4) (field w 7 5)
      (shiftOfCode (field w 5 2)) (field w 0 4)
  else
    .strReg c (decodeIndexing w) (bit w 23) (field w 16 4) (field w 12 4) (field w 7 5)
      (shiftOfCode (field w 5 2)) (field w 0 4)

/-- LDM or STM (R112): P, U, S, W are bits 24 to 21, L bit 20. -/
def decodeLsm (c : Cond) (w : Word) : Instr :=
  if bit w 20 then .ldm c (bit w 24) (bit w 23) (bit w 22) (bit w 21) (field w 16 4) (field w 0 16)
  else .stm c (bit w 24) (bit w 23) (bit w 22) (bit w 21) (field w 16 4) (field w 0 16)

/-- A coprocessor Load/Store (R114, R115): U is bit 23, N bit 22, L bit 20; (P, W) selects the form. -/
def decodeCp (c : Cond) (w : Word) : Instr :=
  match decodeIndexing w with
  | .offset =>
    if bit w 20 then .ldcOffset c (bit w 23) (bit w 22) (field w 16 4) (field w 12 4) (field w 8 4) (field w 0 8)
    else .stcOffset c (bit w 23) (bit w 22) (field w 16 4) (field w 12 4) (field w 8 4) (field w 0 8)
  | .preIndexed =>
    if bit w 20 then .ldcPre c (bit w 23) (bit w 22) (field w 16 4) (field w 12 4) (field w 8 4) (field w 0 8)
    else .stcPre c (bit w 23) (bit w 22) (field w 16 4) (field w 12 4) (field w 8 4) (field w 0 8)
  | .postIndexed =>
    if bit w 20 then .ldcPost c (bit w 23) (bit w 22) (field w 16 4) (field w 12 4) (field w 8 4) (field w 0 8)
    else .stcPost c (bit w 23) (bit w 22) (field w 16 4) (field w 12 4) (field w 8 4) (field w 0 8)
  | .unlisted =>
    if bit w 20 then .ldcUnindexed c (bit w 23) (bit w 22) (field w 16 4) (field w 12 4) (field w 8 4) (field w 0 8)
    else .stcUnindexed c (bit w 23) (bit w 22) (field w 16 4) (field w 12 4) (field w 8 4) (field w 0 8)

/-- The instruction a word is (R93, R117, R123): total, and one meaning for each word. -/
def decode (w : Word) : Except DecodeError Instr :=
  match condOfCode (field w 28 4) with
  | none => .ok (.undefinedCond1111 w)
  | some c =>
    match (field w 25 3).toNat with
    | 0 => if bit w 4 = true ∧ bit w 7 = true then decodeMisc c w else decodeDp c w
    | 1 => decodeDp c w
    | 2 => .ok (decodeLsImm c w)
    | 3 => if bit w 4 then .ok (.undefinedLsRegBit4 w) else .ok (decodeLsReg c w)
    | 4 => .ok (decodeLsm c w)
    | 5 => .ok (.refusedBranchClass w)
    | 6 => .ok (decodeCp c w)
    | _ => .ok (.refusedClass111 w)

/-! ### The encoder -/

/-- The bits 25 and 11:0 of a second operand (R96 to R100). -/
def encodeOperand2 : Operand2 → Word
  | .imm r i => placeBit true 25 ||| place r 8 ||| place i 0
  | .shiftImm a t m => place a 7 ||| place t.code 5 ||| place m 0
  | .shiftReg r t m => place r 8 ||| place t.code 5 ||| placeBit true 4 ||| place m 0

/-- The data-processing format (R91, R95). -/
def encodeDp (c : Cond) (opcode : BitVec 4) (s : Bool) (rn rd : Reg) (op2 : Operand2) : Word :=
  place c.code 28 ||| place opcode 21 ||| placeBit s 20 ||| place rn 16 ||| place rd 12 ||| encodeOperand2 op2

/-- What every single Load/Store word and every coprocessor word has in common: cond, the class `instr[27:25]`, P, U,
bit 22, W, L, Rn and the register field `instr[15:12]` (R102, R107, R114). -/
def encodeLs (c : Cond) (cls : BitVec 3) (ix : Indexing) (up bit22 load : Bool) (rn rd : Reg) : Word :=
  place c.code 28 ||| place cls 25 ||| placeBit ix.p 24 ||| placeBit up 23 ||| placeBit bit22 22 ||| placeBit ix.w 21
    ||| placeBit load 20 ||| place rn 16 ||| place rd 12

/-- The word and unsigned-byte format with an immediate offset (R103); `b` is B. -/
def encodeLsImm (c : Cond) (ix : Indexing) (up b load : Bool) (rn rd : Reg) (offset : BitVec 12) : Word :=
  encodeLs c 0b010#3 ix up b load rn rd ||| place offset 0

/-- The word and unsigned-byte format with a scaled register (R105). -/
def encodeLsReg (c : Cond) (ix : Indexing) (up b load : Bool) (rn rd : Reg) (amount : BitVec 5) (ty : ShiftType)
    (rm : Reg) : Word :=
  encodeLs c 0b011#3 ix up b load rn rd ||| place amount 7 ||| place ty.code 5 ||| place rm 0

/-- The halfword and signed-byte format (R107 to R109): bits 7 and 4 are 1, S is bit 6, H bit 5. -/
def encodeMisc (c : Cond) (ix : Indexing) (up imm load sBit hBit : Bool) (rn rd : Reg) (high low : BitVec 4) : Word :=
  encodeLs c 0b000#3 ix up imm load rn rd ||| place high 8 ||| placeBit true 7 ||| placeBit sBit 6 ||| placeBit hBit 5
    ||| placeBit true 4 ||| place low 0

/-- The LDM/STM format (R112). -/
def encodeLsm (c : Cond) (before up user wb load : Bool) (rn : Reg) (list : BitVec 16) : Word :=
  place c.code 28 ||| place 0b100#3 25 ||| placeBit before 24 ||| placeBit up 23 ||| placeBit user 22 ||| placeBit wb 21
    ||| placeBit load 20 ||| place rn 16 ||| place list 0

/-- The coprocessor Load/Store format (R114, R115). -/
def encodeCp (c : Cond) (ix : Indexing) (up n load : Bool) (rn crd cp : Reg) (low : BitVec 8) : Word :=
  encodeLs c 0b110#3 ix up n load rn crd ||| place cp 8 ||| place low 0

/-- The word of an instruction. -/
def encode : Instr → Word
  | .movImm c s rd r i => encodeDp c 0b1101#4 s 0#4 rd (.imm r i)
  | .movShiftImm c s rd a t m => encodeDp c 0b1101#4 s 0#4 rd (.shiftImm a t m)
  | .movShiftReg c s rd r t m => encodeDp c 0b1101#4 s 0#4 rd (.shiftReg r t m)
  | .addImm c s rn rd r i => encodeDp c 0b0100#4 s rn rd (.imm r i)
  | .addShiftImm c s rn rd a t m => encodeDp c 0b0100#4 s rn rd (.shiftImm a t m)
  | .addShiftReg c s rn rd r t m => encodeDp c 0b0100#4 s rn rd (.shiftReg r t m)
  | .cmpImm c rn r i => encodeDp c 0b1010#4 true rn 0#4 (.imm r i)
  | .cmpShiftImm c rn a t m => encodeDp c 0b1010#4 true rn 0#4 (.shiftImm a t m)
  | .cmpShiftReg c rn r t m => encodeDp c 0b1010#4 true rn 0#4 (.shiftReg r t m)
  | .andDp c s rn rd op2 => encodeDp c 0b0000#4 s rn rd op2
  | .eorDp c s rn rd op2 => encodeDp c 0b0001#4 s rn rd op2
  | .subDp c s rn rd op2 => encodeDp c 0b0010#4 s rn rd op2
  | .rsbDp c s rn rd op2 => encodeDp c 0b0011#4 s rn rd op2
  | .adcDp c s rn rd op2 => encodeDp c 0b0101#4 s rn rd op2
  | .sbcDp c s rn rd op2 => encodeDp c 0b0110#4 s rn rd op2
  | .rscDp c s rn rd op2 => encodeDp c 0b0111#4 s rn rd op2
  | .tstDp c rn sbz op2 => encodeDp c 0b1000#4 true rn sbz op2
  | .teqDp c rn sbz op2 => encodeDp c 0b1001#4 true rn sbz op2
  | .cmnDp c rn sbz op2 => encodeDp c 0b1011#4 true rn sbz op2
  | .orrDp c s rn rd op2 => encodeDp c 0b1100#4 s rn rd op2
  | .bicDp c s rn rd op2 => encodeDp c 0b1110#4 s rn rd op2
  | .mvnDp c s sbz rd op2 => encodeDp c 0b1111#4 s sbz rd op2
  | .ldrImm c ix up rn rd o => encodeLsImm c ix up false true rn rd o
  | .ldrReg c ix up rn rd a t m => encodeLsReg c ix up false true rn rd a t m
  | .strImm c ix up rn rd o => encodeLsImm c ix up false false rn rd o
  | .strReg c ix up rn rd a t m => encodeLsReg c ix up false false rn rd a t m
  | .ldrbImm c ix up rn rd o => encodeLsImm c ix up true true rn rd o
  | .ldrbReg c ix up rn rd a t m => encodeLsReg c ix up true true rn rd a t m
  | .strbImm c ix up rn rd o => encodeLsImm c ix up true false rn rd o
  | .strbReg c ix up rn rd a t m => encodeLsReg c ix up true false rn rd a t m
  | .ldrhImm c ix up rn rd h l => encodeMisc c ix up true true false true rn rd h l
  | .ldrhReg c ix up rn rd m => encodeMisc c ix up false true false true rn rd 0#4 m
  | .ldrsbImm c ix up rn rd h l => encodeMisc c ix up true true true false rn rd h l
  | .ldrsbReg c ix up rn rd m => encodeMisc c ix up false true true false rn rd 0#4 m
  | .ldrshImm c ix up rn rd h l => encodeMisc c ix up true true true true rn rd h l
  | .ldrshReg c ix up rn rd m => encodeMisc c ix up false true true true rn rd 0#4 m
  | .strhImm c ix up rn rd h l => encodeMisc c ix up true false false true rn rd h l
  | .strhReg c ix up rn rd m => encodeMisc c ix up false false false true rn rd 0#4 m
  | .ldm c before up user wb rn list => encodeLsm c before up user wb true rn list
  | .stm c before up user wb rn list => encodeLsm c before up user wb false rn list
  | .ldcOffset c up n rn crd cp o => encodeCp c .offset up n true rn crd cp o
  | .ldcPre c up n rn crd cp o => encodeCp c .preIndexed up n true rn crd cp o
  | .ldcPost c up n rn crd cp o => encodeCp c .postIndexed up n true rn crd cp o
  | .ldcUnindexed c up n rn crd cp o => encodeCp c .unlisted up n true rn crd cp o
  | .stcOffset c up n rn crd cp o => encodeCp c .offset up n false rn crd cp o
  | .stcPre c up n rn crd cp o => encodeCp c .preIndexed up n false rn crd cp o
  | .stcPost c up n rn crd cp o => encodeCp c .postIndexed up n false rn crd cp o
  | .stcUnindexed c up n rn crd cp o => encodeCp c .unlisted up n false rn crd cp o
  | .undefinedCond1111 w | .undefinedLsRegBit4 w | .undefinedSignedStore w => w
  | .refusedBranchClass w | .refusedClass111 w | .refusedMulSwapSpace w => w

/-! ### The opcode table's view of the decoder -/

/-- The instruction the decoder reads from the word whose bits are `w`. Every row of the table is one 32-bit word
(R90), whose four bytes make that word again in either byte order (R78), so the word itself goes to the decoder. -/
def decodeTableWord (nbits w : Nat) : Option Instr :=
  if 32 < nbits then none
  else
    match decode (BitVec.ofNat 32 (w % 2 ^ nbits)) with
    | .ok i => some i
    | .error _ => none

/-- A row of spec/opcode_table.json: the bits its `match` fixes, under its `mask`. -/
structure TableRow where
  pattern : Word
  mask : Word
  deriving DecidableEq, Repr

/-- The row of spec/opcode_table.json an instruction belongs to. -/
def Instr.row : Instr → TableRow
  | .movImm .. => ⟨0x03A00000#32, 0x0FEF0000#32⟩
  | .movShiftImm .. => ⟨0x01A00000#32, 0x0FEF0010#32⟩
  | .movShiftReg .. => ⟨0x01A00010#32, 0x0FEF0090#32⟩
  | .addImm .. => ⟨0x02800000#32, 0x0FE00000#32⟩
  | .addShiftImm .. => ⟨0x00800000#32, 0x0FE00010#32⟩
  | .addShiftReg .. => ⟨0x00800010#32, 0x0FE00090#32⟩
  | .cmpImm .. => ⟨0x03500000#32, 0x0FF0F000#32⟩
  | .cmpShiftImm .. => ⟨0x01500000#32, 0x0FF0F010#32⟩
  | .cmpShiftReg .. => ⟨0x01500010#32, 0x0FF0F090#32⟩
  | .andDp .. => ⟨0x00000000#32, 0x0DE00000#32⟩
  | .eorDp .. => ⟨0x00200000#32, 0x0DE00000#32⟩
  | .subDp .. => ⟨0x00400000#32, 0x0DE00000#32⟩
  | .rsbDp .. => ⟨0x00600000#32, 0x0DE00000#32⟩
  | .adcDp .. => ⟨0x00A00000#32, 0x0DE00000#32⟩
  | .sbcDp .. => ⟨0x00C00000#32, 0x0DE00000#32⟩
  | .rscDp .. => ⟨0x00E00000#32, 0x0DE00000#32⟩
  | .tstDp .. => ⟨0x01100000#32, 0x0DF00000#32⟩
  | .teqDp .. => ⟨0x01300000#32, 0x0DF00000#32⟩
  | .cmnDp .. => ⟨0x01700000#32, 0x0DF00000#32⟩
  | .orrDp .. => ⟨0x01800000#32, 0x0DE00000#32⟩
  | .bicDp .. => ⟨0x01C00000#32, 0x0DE00000#32⟩
  | .mvnDp .. => ⟨0x01E00000#32, 0x0DE00000#32⟩
  | .ldrImm .. => ⟨0x04100000#32, 0x0E500000#32⟩
  | .ldrReg .. => ⟨0x06100000#32, 0x0E500010#32⟩
  | .strImm .. => ⟨0x04000000#32, 0x0E500000#32⟩
  | .strReg .. => ⟨0x06000000#32, 0x0E500010#32⟩
  | .ldrbImm .. => ⟨0x04500000#32, 0x0E500000#32⟩
  | .ldrbReg .. => ⟨0x06500000#32, 0x0E500010#32⟩
  | .strbImm .. => ⟨0x04400000#32, 0x0E500000#32⟩
  | .strbReg .. => ⟨0x06400000#32, 0x0E500010#32⟩
  | .ldrhImm .. => ⟨0x005000B0#32, 0x0E5000F0#32⟩
  | .ldrhReg .. => ⟨0x001000B0#32, 0x0E500FF0#32⟩
  | .ldrsbImm .. => ⟨0x005000D0#32, 0x0E5000F0#32⟩
  | .ldrsbReg .. => ⟨0x001000D0#32, 0x0E500FF0#32⟩
  | .ldrshImm .. => ⟨0x005000F0#32, 0x0E5000F0#32⟩
  | .ldrshReg .. => ⟨0x001000F0#32, 0x0E500FF0#32⟩
  | .strhImm .. => ⟨0x004000B0#32, 0x0E5000F0#32⟩
  | .strhReg .. => ⟨0x000000B0#32, 0x0E500FF0#32⟩
  | .ldm .. => ⟨0x08100000#32, 0x0E100000#32⟩
  | .stm .. => ⟨0x08000000#32, 0x0E100000#32⟩
  | .ldcOffset .. => ⟨0x0D100000#32, 0x0F300000#32⟩
  | .ldcPre .. => ⟨0x0D300000#32, 0x0F300000#32⟩
  | .ldcPost .. => ⟨0x0C300000#32, 0x0F300000#32⟩
  | .ldcUnindexed .. => ⟨0x0C100000#32, 0x0F300000#32⟩
  | .stcOffset .. => ⟨0x0D000000#32, 0x0F300000#32⟩
  | .stcPre .. => ⟨0x0D200000#32, 0x0F300000#32⟩
  | .stcPost .. => ⟨0x0C200000#32, 0x0F300000#32⟩
  | .stcUnindexed .. => ⟨0x0C000000#32, 0x0F300000#32⟩
  | .undefinedCond1111 .. => ⟨0xF0000000#32, 0xF0000000#32⟩
  | .undefinedLsRegBit4 .. => ⟨0x06000010#32, 0x0E000010#32⟩
  | .undefinedSignedStore .. => ⟨0x000000D0#32, 0x0E1000D0#32⟩
  | .refusedBranchClass .. => ⟨0x0A000000#32, 0x0E000000#32⟩
  | .refusedClass111 .. => ⟨0x0E000000#32, 0x0E000000#32⟩
  | .refusedMulSwapSpace .. => ⟨0x00000090#32, 0x0E0000F0#32⟩

end Sys2Proof
end

