-- ==== Sys2Proof/Config.lean ====
section
/-! DEFINITION. The open parameters of 00_scope.md R6 as plain data (one `Config` per machine, carried unchanged in
`State`, so that a statement about every state is a statement about every configuration), and the two free draws of
a coprocessor transfer (45_coprocessor_load_store.md R303, R304), which have no body. -/

namespace Sys2Proof

/-- Byte order of data and of instruction fetch: the open parameter `ENDIAN` (R6, R63, decision D1). -/
inductive Endian where
  | little
  | big
  deriving DecidableEq, Repr

/-- What a single Load/Store with P = 0 and W = 0 does: the open parameter `P0W0` (R6, R185, decision D10). -/
inductive P0W0 where
  | refuse
  | postindexWriteback
  deriving DecidableEq, Repr

/-- The `kind` argument of the predicate `Mapped` (R69, decision D22). -/
inductive AccessKind where
  | read
  | write
  | fetch
  deriving DecidableEq, Repr

/-- A member of the open set `Mode` (R41, decision D17): `User`, and the other modes numbered as the configuration
lists them. -/
inductive Mode where
  | user
  | other (n : Nat)
  deriving DecidableEq, Repr

/-- What the configuration says of one mode other than `User` (R33, R40, decision D17): `bank[i]` is `Bank(mode, i)`, the
number of the physical register that is Ri in this mode (where the list ends before i, the user mode's), and `hasSpsr` is
`HasSPSR` of the mode. Any numbers are admitted: a mode may rename registers, and two may share a physical one. -/
structure ModeInfo where
  bank : List Nat
  hasSpsr : Bool
  deriving DecidableEq, Repr

/-- A piece of the open predicate `Mapped(addr, n, kind)` (R69, decision D22): it holds of the accesses of a listed width
and an admitted kind whose n bytes all lie in the range. Every predicate on address, width and kind is a list of such
pieces, the smallest holding one access. -/
structure Region where
  base : Nat
  size : Nat
  widths : List Nat
  read : Bool
  write : Bool
  fetch : Bool
  deriving DecidableEq, Repr

/-- A range of addresses: a piece of the immutable program text (R76, decision D21). -/
structure Span where
  base : Nat
  size : Nat
  deriving DecidableEq, Repr

/-- A program status register, named: the CPSR (R37) or the SPSR of a mode (R40). -/
inductive StatusReg where
  | cpsr
  | spsr (m : Mode)
  deriving DecidableEq, Repr

/-- One of the four flags (R37). -/
inductive Flag where
  | n
  | z
  | c
  | v
  deriving DecidableEq, Repr

/-- The open predicate `HALT(state)` as data (R367, decision D25): the boolean combinations of tests of the pc, a
physical register, a flag or the mode of a status register, and a byte of memory. A predicate on the states of one
configuration, which has finitely many registers, modes and bytes, is such a combination. -/
inductive Halt where
  | never
  | pcIs (w : Word)
  | registerIs (k : Nat) (w : Word)
  | flagIs (r : StatusReg) (f : Flag) (b : Bool)
  | modeIs (r : StatusReg) (m : Mode)
  | byteIs (a : Nat) (b : Byte)
  | negation (h : Halt)
  | both (h k : Halt)
  | either (h k : Halt)
  deriving DecidableEq, Repr

/-- The parameters of R6 that the spec leaves OPEN, and the program text of R76. -/
structure Config where
  /-- `ENDIAN` (D1). -/
  endian : Endian
  /-- `PC_READ_OFFSET` (D5): `none` is "not instantiated". -/
  pcReadOffset : Option Nat
  /-- `P0W0` (D10). -/
  p0w0 : P0W0
  /-- `HasSPSR(User)` (R40, D17). -/
  userHasSpsr : Bool
  /-- `Bank(User, i)` (D17): where the list ends before i, it is the identity. -/
  userBank : List Nat
  /-- The modes other than `User`, with their part of `Bank` and `HasSPSR` (D17); `Mode.other n` is the n-th. -/
  modes : List ModeInfo
  /-- The coprocessors present: `CoprocPresent(cp_num)` (D19). -/
  coprocs : List (BitVec 4)
  /-- The address map: `Mapped(addr, n, kind)` (D22). -/
  regions : List Region
  /-- The program text, immutable for the run (R76, D21). -/
  text : List Span
  /-- `HALT` (R367, D25). -/
  halt : Halt
  deriving DecidableEq, Repr

/-- FREE VALUE (R303, decision D18): the number of words the coprocessor takes or gives in its t-th transfer, less one,
so that the count lies in 1 to 16. No body: a claim holds for every value. -/
opaque Config.coprocCount : Nat → Fin 16

/-- FREE VALUE (R304, decision D18): word j that the coprocessor supplies in its t-th transfer, a store. No body. -/
opaque Config.coprocData : Nat → Nat → Word

end Sys2Proof
end

