-- ==== Sys2Proof/Machine/Cells.lean ====
section
/-! DEFINITION. Sparse storage as plain data: a list of (key, value) pairs with strictly rising keys and no entry equal
to the default, which is what an unlisted key reads as. Memory, the register banks and the SPSRs are kept so, so that
equal contents are equal data. -/

namespace Sys2Proof.Machine

/-- Storage that reads as a default wherever nothing is listed. -/
abbrev Cells (α : Type) := List (Nat × α)

/-- The value at key `k`: the first entry for it, or the default `d`. -/
def cellGet {α : Type} (d : α) : Cells α → Nat → α
  | [], _ => d
  | (k', v) :: rest, k => if k' = k then v else cellGet d rest k

/-- The storage without any entry for `k`. -/
def cellErase {α : Type} (m : Cells α) (k : Nat) : Cells α := m.filter fun e => e.1 != k

/-- The storage with an entry for `k` put before the first larger key. -/
def cellInsert {α : Type} : Cells α → Nat → α → Cells α
  | [], k, v => [(k, v)]
  | (k', v') :: rest, k, v => if k < k' then (k, v) :: (k', v') :: rest else (k', v') :: cellInsert rest k v

/-- Writing `v` at key `k`; writing the default removes the entry, so that the canonical form is kept. -/
def cellSet {α : Type} [DecidableEq α] (d : α) (m : Cells α) (k : Nat) (v : α) : Cells α :=
  if v = d then cellErase m k else cellInsert (cellErase m k) k v

/-- The canonical form: keys strictly rising and all at least `lo`, and no entry equal to the default. -/
def cellsWfFrom {α : Type} [DecidableEq α] (d : α) : Nat → Cells α → Bool
  | _, [] => true
  | lo, (k, v) :: rest => decide (lo ≤ k) && decide (v ≠ d) && cellsWfFrom d (k + 1) rest

/-- The canonical form of a storage with default `d`. -/
def cellsWf {α : Type} [DecidableEq α] (d : α) (m : Cells α) : Bool := cellsWfFrom d 0 m

end Sys2Proof.Machine
end

