-- ==== Sys2Proof/Machine/Params.lean ====
section
/-! DEFINITION. The values that `State.reset` gives to what the spec leaves open: the configuration of the machine after
reset. Each value is named in the assumption log. -/

namespace Sys2Proof.Machine

/-- The highest address plus one: the address space has 2^32 bytes (R60). -/
def addressSpace : Nat := 2 ^ 32

/-- What an unlisted byte of memory reads as. DESIGN CHOICE, log 12: the spec gives memory no reset contents (R46). -/
def unlistedByte : Byte := 0#8

/-- What a register reads as after reset. DESIGN CHOICE, log 9: the spec gives no reset value (R46). -/
def resetWord : Word := 0#32

/-- Where the pc stands after reset. DESIGN CHOICE, log 10: the spec gives no reset vector (R46, R361). -/
def resetPc : Word := 0#32

/-- The configuration after reset. DESIGN CHOICE and PRESUMED, log 2 to 8 and 13: every field is an open parameter of
R6; `p0w0` is the spec's own default (R185), the modes are the single-mode instantiation of D17. -/
def resetConfig : Config where
  endian := .little
  pcReadOffset := some 8
  p0w0 := .refuse
  userHasSpsr := false
  userBank := []
  modes := []
  coprocs := [0#4, 1#4, 2#4, 3#4, 4#4, 5#4, 6#4, 7#4, 8#4, 9#4, 10#4, 11#4, 12#4, 13#4, 14#4, 15#4]
  regions := [{ base := 0, size := 2 ^ 32, widths := [1, 2, 4], read := true, write := true, fetch := true }]
  text := []
  halt := .never

end Sys2Proof.Machine
end

