-- ==== Sys2Proof/Machine/State.lean ====
section
/-! DEFINITION. The machine's state as plain data, the reasons a step can stop (60_exceptions.md R331), and the state
after reset. -/

namespace Sys2Proof.Machine

/-- A program status register: the record of R37, R39 and R40. The bit positions are no part of the spec (D30). -/
structure Psr where
  n : Bool
  z : Bool
  c : Bool
  v : Bool
  mode : Mode
  deriving DecidableEq, Repr

/-- What a status register holds after reset. DESIGN CHOICE, log 11 (flags, SPSRs); the mode is `User`, as R46 says for
the single-mode instantiation. -/
def resetPsr : Psr := { n := false, z := false, c := false, v := false, mode := .user }

/-- What one coprocessor transfer handed to, or took from, a coprocessor (R300, R302, R304, R305): the MODEL's own
record, log 15. `option` is the user-defined byte of the unindexed form. -/
structure CpTransfer where
  load : Bool
  cp : BitVec 4
  crd : BitVec 4
  n : Bool
  option : Option (BitVec 8)
  words : List Word
  deriving DecidableEq, Repr

/-- The state of the machine (10_state.md). Plain data: no field holds a function. -/
structure State where
  /-- R0 to R14 of every mode (R30, R33): the physical registers, by the numbers that `Bank` gives (D17). -/
  regs : List (Nat × Word)
  /-- R15, the address of the instruction being executed (R34). -/
  pc : Word
  /-- The current program status register (R37, R39). -/
  cpsr : Psr
  /-- The saved program status registers (R40): User's under key 0, that of mode `other n` under key n + 1. -/
  spsr : List (Nat × Psr)
  /-- Memory (R43, R60): the bytes that differ from what an unlisted address reads as. -/
  mem : List Host.Cell
  /-- The MODEL's own: the transfers coprocessors took part in, newest first (log 15). -/
  cpLog : List CpTransfer
  /-- The MODEL's own: the index of the next coprocessor draw (R303, log 14). -/
  draws : Nat
  /-- The parameters of R6, constant for a run (R45, log 1). -/
  cfg : Config
  deriving DecidableEq, Repr

/-- The canonical form of memory: addresses strictly rising and inside the address space, no entry equal to what an
unlisted address reads as. -/
def Memory.wf (m : List Host.Cell) : Bool :=
  cellsWf unlistedByte m && m.all fun e => decide (e.1 < addressSpace)

/-- The canonical form of the register banks. -/
def Registers.wf (m : List (Nat × Word)) : Bool := cellsWf resetWord m

/-- Which restriction made the result unpredictable (R331). -/
inductive UnpredictableReason where
  /-- R15 as Rn, Rm, Rd or Rs with a register-specified shift (R153, U1). -/
  | r15InRegisterShift
  /-- The PC as index register Rm (R191, R231; U2, U4, U8). -/
  | pcAsIndex
  /-- Rn and Rm the same register (R191, R231; U3, U5, U9). -/
  | baseIsIndex
  /-- The PC as base of a halfword or signed-byte Load/Store (R230, R231; U6, U8). -/
  | pcAsHalfwordBase
  /-- Rd = Rn with write-back (R192, R232; D15). -/
  | destinationIsWrittenBase
  /-- LDM/STM with the base in the list and W = 1 (R271; D16). -/
  | baseInListWithWriteback
  /-- LDM/STM with S = 1 and W = 1 and no PC loaded (R271; D16). -/
  | userBankWithWriteback
  /-- LDM/STM with S = 1 where User is the only mode (R271; D17). -/
  | sBitInSingleMode
  /-- LDM with S = 1 and the PC in the list where the mode has no SPSR (R266, R40; D17). -/
  | noSpsr
  deriving DecidableEq, Repr

/-- Why a word is no instruction of this hardware (R331). -/
inductive UndefinedReason where
  /-- cond = 1111 (R132, D6). -/
  | cond1111
  /-- Word or byte Load/Store with I = 1 and bit 4 = 1 (R195, D28). -/
  | registerOffsetBit4
  /-- Halfword class with S = 1 and L = 0 (R228, U7). -/
  | signedStore
  /-- A coprocessor Load/Store that names an absent coprocessor (R308, D19). -/
  | coprocessorAbsent
  deriving DecidableEq, Repr

/-- The faults: "the hardware does something here and the sources do not let us say what" (R331). Each is terminal and
changes no state (R12). -/
inductive Fault where
  /-- A meaning raises it when the instruction's result is unpredictable. Safe: nothing is said of what follows. -/
  | unpredictable (reason : UnpredictableReason)
  /-- A meaning raises it for a word that is no instruction. Safe. -/
  | undefinedEncoding (reason : UndefinedReason) (word : Word)
  /-- A data access that is not naturally aligned raises it (R64, D2). Safe. -/
  | misaligned (addr : Word) (n : Nat)
  /-- An access or a fetch where `Mapped` is false raises it (R69, D22). Safe. -/
  | unmapped (addr : Word) (n : Nat)
  deriving DecidableEq, Repr

/-- The refusals: "the spec has drawn its boundary here" (R331). Each is terminal and changes no state (R12). Every one
is safe: no claim about a later state can be proved. -/
inductive Refusal where
  /-- An arm of `exec` whose instruction has no meaning yet. Safe. No arm raises it. -/
  | notModelled (mnemonic : String)
  /-- `step` raises it where `HALT` holds: the run has ended normally (R367). Safe. -/
  | halted
  /-- `step` raises it for a pc that is no multiple of 4 (R36, D3). Safe. -/
  | pcNotAligned
  /-- The advance of the pc would pass 2^32 (R36, D4). Safe. -/
  | pcPassesTop
  /-- `step` raises it for a MOV word with a non-zero Rn field (R124, D29). Safe. -/
  | movRnNotZero (word : Word)
  /-- `step` raises it for a CMP word with a non-zero Rd field (R124, D29). Safe. -/
  | cmpRdNotZero (word : Word)
  /-- `step` raises it for opcodes 1000 to 1011 with S = 0 (R158, D31). Safe. -/
  | compareWithoutS (word : Word)
  /-- `step` raises it for a halfword register form with non-zero bits 11:8 (R124, D29). Safe. -/
  | halfwordBits11To8 (word : Word)
  /-- The branch class, `instr[27:25] = 101` (R117, D32). Safe. -/
  | branchClass (word : Word)
  /-- The class `instr[27:25] = 111` (R117, D32). Safe. -/
  | class111 (word : Word)
  /-- The multiply and swap space (R229, D32). Safe. -/
  | mulSwapSpace (word : Word)
  /-- A single Load/Store with P = 0 and W = 0 under `P0W0 = refuse` (R185, D10). Safe. -/
  | p0w0
  /-- R15 read as an operand with `PC_READ_OFFSET` not instantiated (R35, D5). Safe. -/
  | r15Read
  /-- R15 as Rd of a data-processing instruction that writes it (R154, D13). Safe. -/
  | r15Destination
  /-- R15 as Rd of a load (R193, R232, D13). Safe. -/
  | r15Loaded
  /-- R15 as Rd of a store (R193, R232, D5). Safe. -/
  | r15Stored
  /-- R15 as a base that is written back (R193, R306, D13). Safe. -/
  | r15Writeback
  /-- LDM/STM with an empty list (R271, D16). Safe. -/
  | emptyList
  /-- LDM/STM with base R15 (R271, D16). Safe. -/
  | lsmBaseR15
  /-- STM with R15 in the list (R271, D5, D16). Safe. -/
  | stmOfR15
  /-- A block of words that passes 2^32 (R71, R271, R303, D11). Safe. -/
  | blockPassesTop
  /-- LDM loading the PC with a value that is no multiple of 4 (R268, D14). Safe. -/
  | pcTargetNotAligned
  /-- A store that meets the program text (R76, D21). Safe. -/
  | storeToText
  deriving DecidableEq, Repr

/-- The machine right after reset (10_state.md R46, R47; 70_reset_and_hazards.md R360 to R362): the spec gives no value,
so each stands in the assumption log (2 to 15). Memory lists nothing. -/
def State.reset : State where
  regs := []
  pc := resetPc
  cpsr := resetPsr
  spsr := []
  mem := []
  cpLog := []
  draws := 0
  cfg := resetConfig

end Sys2Proof.Machine
end

