-- ==== Sys2Proof/Machine/Ops.lean ====
section
/-! DEFINITION. The operations every meaning is written over: how a computation stops, the registers of a mode, the
advance of the pc, memory and its checks, conditional execution, and the return of R266. The spec has no exception
entry (60_exceptions.md R330, R334, decision D23), so none stands here: an outcome of R331 ends the run. -/

namespace Sys2Proof.Machine

/-! ### Outcomes (R12, R331) -/

/-- Why a computation stops. -/
inductive Stop where
  | fault (f : Fault)
  | refused (r : Refusal)
  deriving DecidableEq, Repr

/-- Ends the instruction with the fault `f`. -/
def raiseFault {α : Type} (f : Fault) : Except Stop α := .error (.fault f)

/-- Ends the instruction with the refusal `r`. -/
def refuse {α : Type} (r : Refusal) : Except Stop α := .error (.refused r)

/-- Faults unpredictable for `reason` where `b` holds (R331). -/
def unpredictableIf (b : Bool) (reason : UnpredictableReason) : Except Stop Unit :=
  if b then raiseFault (.unpredictable reason) else .ok ()

/-- Refuses with `r` where `b` holds (R331). -/
def refuseIf (b : Bool) (r : Refusal) : Except Stop Unit := if b then refuse r else .ok ()

/-- An instruction's outcome: the new state, or the stop with no state changed (R12, D34). -/
def finish : Except Stop State → Host.Outcome State Fault Refusal
  | .ok s => .next s
  | .error (.fault f) => .fault f
  | .error (.refused r) => .refused r

/-! ### Registers (R10, R30, R33) -/

/-- `Bank(User, i)`: the physical register that is Ri in user mode (R33, D17). -/
def userHome (cfg : Config) (i : Reg) : Nat := cfg.userBank.getD i.toNat i.toNat

/-- `Bank(mode, i)`: the physical register that is Ri in a mode (R33, D17). A mode the configuration does not list sees
the user-mode registers (log 24). The value for R15 is never used: R15 is the pc (R34, log 21). -/
def homeOf (cfg : Config) (m : Mode) (i : Reg) : Nat :=
  match m with
  | .user => userHome cfg i
  | .other k =>
    match cfg.modes[k]? with
    | some info => info.bank.getD i.toNat (userHome cfg i)
    | none => userHome cfg i

/-- `HasSPSR` (R40, D17). -/
def hasSpsr (cfg : Config) (m : Mode) : Bool :=
  match m with
  | .user => cfg.userHasSpsr
  | .other k =>
    match cfg.modes[k]? with
    | some info => info.hasSpsr
    | none => false

/-- Whether a mode is a member of the set `Mode` of the configuration (R41, D17). -/
def isMode (cfg : Config) (m : Mode) : Bool :=
  match m with
  | .user => true
  | .other k => decide (k < cfg.modes.length)

/-- The physical register of number k. -/
def State.phys (s : State) (k : Nat) : Word := cellGet resetWord s.regs k

/-- The state with the physical register of number k set to `v`. -/
def State.setPhys (s : State) (k : Nat) (v : Word) : State := { s with regs := cellSet resetWord s.regs k v }

/-- `x[i]` for i in 0 to 14, as the current mode sees it (R10, R33). -/
def State.reg (s : State) (i : Reg) : Word := s.phys (homeOf s.cfg s.cpsr.mode i)

/-- `x[i] <- v` for i in 0 to 14. Writes of R15 never come here: they are refused (D13) or are LDM's (R268). -/
def State.setReg (s : State) (i : Reg) (v : Word) : State := s.setPhys (homeOf s.cfg s.cpsr.mode i) v

/-- `x_usr[i]` for i in 0 to 14: the user-mode bank (R10, R33). -/
def State.usrReg (s : State) (i : Reg) : Word := s.phys (userHome s.cfg i)

/-- `x_usr[i] <- v` for i in 0 to 14. -/
def State.setUsrReg (s : State) (i : Reg) (v : Word) : State := s.setPhys (userHome s.cfg i) v

/-- Reading `x[i]` as an operand: R15 reads as `pc + PC_READ_OFFSET`, and is refused where that parameter is not
instantiated (R35, D5). -/
def readReg (s : State) (i : Reg) : Except Stop Word :=
  if i = Reg.pc then
    match s.cfg.pcReadOffset with
    | some k => .ok (s.pc + BitVec.ofNat 32 k)
    | none => refuse .r15Read
  else .ok (s.reg i)

/-- The SPSR of a mode (R40). -/
def State.spsrOf (s : State) (m : Mode) : Psr :=
  match m with
  | .user => cellGet resetPsr s.spsr 0
  | .other k => cellGet resetPsr s.spsr (k + 1)

/-- `CPSR <- SPSR_of(mode)`, all fields, flags and mode: the restoring half of the return of R266 and R335. -/
def State.restoreStatus (s : State) : State := { s with cpsr := s.spsrOf s.cpsr.mode }

/-! ### The program counter (R36) -/

/-- `pc <- pc + 4`, refused where it would pass 2^32 (R36, D4). -/
def advance (s : State) : Except Stop State :=
  if s.pc.toNat + 4 < addressSpace then .ok { s with pc := s.pc + 4#32 } else refuse .pcPassesTop

/-! ### Conditional execution (R130, R131) -/

/-- `ConditionPassed(cond)` (R130, Table 3-2). -/
def conditionPassed (c : Cond) (p : Psr) : Bool :=
  match c with
  | .eq => p.z
  | .ne => !p.z
  | .cs => p.c
  | .cc => !p.c
  | .mi => p.n
  | .pl => !p.n
  | .vs => p.v
  | .vc => !p.v
  | .hi => p.c && !p.z
  | .ls => !p.c || p.z
  | .ge => p.n == p.v
  | .lt => p.n != p.v
  | .gt => !p.z && (p.n == p.v)
  | .le => p.z || (p.n != p.v)
  | .al => true

/-- The skeleton of R131 and R333: the checks on the word alone, which no condition suppresses; then the condition,
whose failure only advances the pc; then the instruction's own effect. -/
def execute (decodeTime : Except Stop Unit) (c : Cond) (s : State) (body : Except Stop State) :
    Host.Outcome State Fault Refusal :=
  match decodeTime with
  | .error e => finish (.error e)
  | .ok () => if conditionPassed c s.cpsr then finish body else finish (advance s)

/-! ### Memory (20_memory.md R60 to R73) -/

/-- The byte at an address. -/
def State.byteAt (s : State) (a : Nat) : Byte := cellGet unlistedByte s.mem a

/-- The state with one byte of memory set. -/
def State.setByte (s : State) (a : Nat) (b : Byte) : State := { s with mem := cellSet unlistedByte s.mem a b }

/-- Whether a region admits an access of a kind. -/
def regionAllows (r : Region) (kind : AccessKind) : Bool :=
  match kind with
  | .read => r.read
  | .write => r.write
  | .fetch => r.fetch

/-- `Mapped(addr, n, kind)`: some region admits the kind and the width and holds all n bytes (R69, D22, log 7). -/
def mapped (cfg : Config) (kind : AccessKind) (a n : Nat) : Bool :=
  cfg.regions.any fun r =>
    regionAllows r kind && r.widths.contains n && decide (r.base ≤ a) && decide (a + n ≤ r.base + r.size)

/-- Whether an address lies in the program text. An empty piece of the text holds no address (log 8). -/
def byteInText (cfg : Config) (a : Nat) : Bool :=
  cfg.text.any fun t => decide (t.base ≤ a) && decide (a < t.base + t.size)

/-- Whether n bytes from `a` overlap the program text: one of them lies in it (R76, D21). -/
def meetsText (cfg : Config) (a n : Nat) : Bool := (List.range n).any fun i => byteInText cfg (a + i)

/-- The n bytes from address `a` upwards. -/
def State.bytesAt (s : State) (a : Nat) : Nat → List Byte
  | 0 => []
  | n + 1 => s.byteAt a :: s.bytesAt (a + 1) n

/-- Storing bytes from address `a` upwards. -/
def State.setBytes (s : State) (a : Nat) : List Byte → State
  | [] => s
  | b :: bs => (s.setByte a b).setBytes (a + 1) bs

/-- The number whose base-256 digits are the bytes, the first the lowest: the sum of R62 under `little`. -/
def joinLittle : List Byte → Nat
  | [] => 0
  | b :: bs => b.toNat + 256 * joinLittle bs

/-- The lowest n base-256 digits of a number, the lowest first. -/
def splitLittle : Nat → Nat → List Byte
  | 0, _ => []
  | n + 1, v => BitVec.ofNat 8 v :: splitLittle n (v / 256)

/-- The value n bytes of memory make under a byte order (R62). -/
def joinBytes (e : Endian) (bs : List Byte) : Nat :=
  match e with
  | .little => joinLittle bs
  | .big => joinLittle bs.reverse

/-- The bytes, lowest address first, that hold a value of n bytes under a byte order (R62). -/
def splitBytes (e : Endian) (n v : Nat) : List Byte :=
  match e with
  | .little => splitLittle n v
  | .big => (splitLittle n v).reverse

/-- The value of the n bytes at `a`, extended with zeros to a word: `MemRead` of R62 without its checks. -/
def State.load (s : State) (a : Word) (n : Nat) : Word :=
  BitVec.ofNat 32 (joinBytes s.cfg.endian (s.bytesAt a.toNat n))

/-- Storing the low n bytes of `v` at `a`: `MemWrite` of R62 without its checks. -/
def State.store (s : State) (a : Word) (n : Nat) (v : Word) : State :=
  s.setBytes a.toNat (splitBytes s.cfg.endian n v.toNat)

/-- The checks of an access of n bytes at `a`: alignment, then the address map (R62, R64, R69; R333 step 6). -/
def checkAccess (s : State) (kind : AccessKind) (a : Word) (n : Nat) : Except Stop Unit :=
  if a.toNat % n ≠ 0 then raiseFault (.misaligned a n)
  else if mapped s.cfg kind a.toNat n then .ok () else raiseFault (.unmapped a n)

/-- `MemRead(addr, n)` as a data access, zero-extended (R62). -/
def memRead (s : State) (a : Word) (n : Nat) : Except Stop Word := do
  checkAccess s .read a n
  return s.load a n

/-- `MemWrite(addr, n, v)` (R62), refused where it meets the program text (R76). -/
def memWrite (s : State) (a : Word) (n : Nat) (v : Word) : Except Stop State := do
  checkAccess s .write a n
  refuseIf (meetsText s.cfg a.toNat n) .storeToText
  return s.store a n v

/-! ### Blocks of words (R66, R71, R73) -/

/-- The address of word j of a block. -/
def wordAddr (start : Word) (j : Nat) : Word := start + BitVec.ofNat 32 (4 * j)

/-- The address map checked word by word, ascending from word j; the lowest failing word is reported (R333 step 6). -/
def checkWords (s : State) (kind : AccessKind) (start : Word) : Nat → Nat → Except Stop Unit
  | _, 0 => .ok ()
  | j, n + 1 =>
    if mapped s.cfg kind (wordAddr start j).toNat 4 then checkWords s kind start (j + 1) n
    else raiseFault (.unmapped (wordAddr start j) 4)

/-- The checks of a block of n words from `start`: no pass over 2^32, alignment, the address map, and for a store the
program text (R71, R64, R69, R76; R333 step 6). -/
def checkBlock (s : State) (kind : AccessKind) (start : Word) (n : Nat) : Except Stop Unit := do
  refuseIf (decide (addressSpace < start.toNat + 4 * n)) .blockPassesTop
  if start.toNat % 4 ≠ 0 then raiseFault (.misaligned start 4)
  checkWords s kind start 0 n
  refuseIf (decide (kind = .write) && meetsText s.cfg start.toNat (4 * n)) .storeToText

/-- The n words from `start` upwards, in ascending order (R66, R67). -/
def State.loadWords (s : State) (start : Word) : Nat → List Word
  | 0 => []
  | n + 1 => s.load start 4 :: s.loadWords (start + 4#32) n

/-- Storing words from `start` upwards, in ascending order (R66, R67). -/
def State.storeWords (s : State) (start : Word) : List Word → State
  | [] => s
  | v :: vs => (s.store start 4 v).storeWords (start + 4#32) vs

/-! ### Extensions (R11, R65) -/

/-- `sext_32` of the low n bytes of a word (R11, R65). -/
def signExtendBytes (n : Nat) (v : Word) : Word := (v.setWidth (8 * n)).signExtend 32

/-! ### The interface to coprocessors (R300, R303 to R305) -/

/-- The state after a coprocessor transfer took its draw and was recorded. -/
def State.noteTransfer (s : State) (t : CpTransfer) : State :=
  { s with cpLog := t :: s.cpLog, draws := s.draws + 1 }

end Sys2Proof.Machine
end

