-- ==== Sys2Proof/Machine/Operands.lean ====
section
/-! DEFINITION. The operand forms: the shifter of a data-processing instruction with its carry-out
(41_data_processing_operand2.md R141 to R151), the offsets of a single Load/Store (42 R181 to R183, 43 R221, R222), and
the address and write-back of the indexing forms (42 R184, 43 R223). The carry-outs other than RRX's are the spec's
general-knowledge passages G3 (log 18). -/

namespace Sys2Proof.Machine

/-- A shifter result: the 32-bit value and the one-bit carry-out (R140). -/
abbrev Shifted := Word × Bool

/-- `RRX32` with the bit shifted out (R13, R151). -/
def rrx (v : Word) (carry : Bool) : Shifted :=
  ((BitVec.ofBool carry).setWidth 32 <<< 31 ||| v >>> 1, v.getLsbD 0)

/-- The amount an LSR or ASR field stands for: 0 means 32 (R144, R145). -/
def rightAmount (amount : BitVec 5) : Nat := if amount = 0#5 then 32 else amount.toNat

/-- A register shifted by the 5-bit field (forms 2, 3 and 5; R142 to R146, R151); `carry` is CPSR.C. -/
def shiftByImm (v : Word) (ty : ShiftType) (amount : BitVec 5) (carry : Bool) : Shifted :=
  match ty with
  | .lsl => (v <<< amount.toNat, if amount = 0#5 then carry else v.getLsbD (32 - amount.toNat))
  | .lsr => (v >>> rightAmount amount, v.getLsbD (rightAmount amount - 1))
  | .asr => (v.sshiftRight (rightAmount amount), v.getLsbD (rightAmount amount - 1))
  | .ror => if amount = 0#5 then rrx v carry else (v.rotateRight amount.toNat, v.getLsbD (amount.toNat - 1))

/-- A register shifted by a number n, 0 to 255, from a register (form 4; R147 to R150). -/
def shiftByReg (v : Word) (ty : ShiftType) (n : Nat) (carry : Bool) : Shifted :=
  if n = 0 then (v, carry)
  else
    match ty with
    | .lsl => (v <<< n, if n ≤ 32 then v.getLsbD (32 - n) else false)
    | .lsr => (v >>> n, if n ≤ 32 then v.getLsbD (n - 1) else false)
    | .asr => (v.sshiftRight n, if n ≤ 31 then v.getLsbD (n - 1) else v.getLsbD 31)
    | .ror => (v.rotateRight n, if n % 32 = 0 then v.getLsbD 31 else v.getLsbD (n % 32 - 1))

/-- An immediate operand: the 8-bit constant rotated right by twice the 4-bit field (form 1; R141). -/
def immOperand (rotate4 : BitVec 4) (immed8 : BitVec 8) (carry : Bool) : Shifted :=
  let value := (immed8.setWidth 32).rotateRight (2 * rotate4.toNat)
  (value, if rotate4 = 0#4 then carry else value.getLsbD 31)

/-- `Operand2(instr)`: the value and the shifter carry-out (R141 to R151). -/
def evalOperand2 (s : State) (op2 : Operand2) : Except Stop Shifted :=
  match op2 with
  | .imm r i => .ok (immOperand r i s.cpsr.c)
  | .shiftImm a ty rm => do
    let v ← readReg s rm
    return shiftByImm v ty a s.cpsr.c
  | .shiftReg rs ty rm => do
    let v ← readReg s rm
    let n ← readReg s rs
    return shiftByReg v ty (n.setWidth 8).toNat s.cpsr.c

/-- The offset of a single Load/Store. -/
inductive Offset where
  /-- An immediate, already extended with zeros (R181, R221). -/
  | imm (v : Word)
  /-- A register shifted by the 5-bit field; (0, LSL) is the plain register (R182, R183, R222). -/
  | scaled (amount : BitVec 5) (ty : ShiftType) (rm : Reg)
  deriving DecidableEq, Repr

/-- The value of an offset; the shifter's carry-out is discarded (R183). -/
def evalOffset (s : State) (off : Offset) : Except Stop Word :=
  match off with
  | .imm v => .ok v
  | .scaled a ty rm => do
    let v ← readReg s rm
    return (shiftByImm v ty a s.cpsr.c).1

/-- `base` with the offset added or subtracted by U, modulo 2^32 (R184, R71). -/
def indexed (up : Bool) (base offset : Word) : Word := if up then base + offset else base - offset

/-- Whether an indexing form writes the base back (R184, R192). P = 0, W = 0 does where `P0W0` admits it (R185). -/
def writesBack (ix : Indexing) : Bool :=
  match ix with
  | .offset => false
  | .preIndexed | .postIndexed | .unlisted => true

/-- The access address of an indexing form (R184); P = 0, W = 0 as P = 0, W = 1 (R185). -/
def accessAddress (ix : Indexing) (up : Bool) (base offset : Word) : Word :=
  match ix with
  | .offset | .preIndexed => indexed up base offset
  | .postIndexed | .unlisted => base

/-- The refusal of P = 0 with W = 0 under `P0W0 = refuse`, a check on the word alone (R185, R333 step 2). -/
def checkP0W0 (cfg : Config) (ix : Indexing) : Except Stop Unit :=
  refuseIf (decide (ix = .unlisted) && decide (cfg.p0w0 = .refuse)) .p0w0

end Sys2Proof.Machine
end

