-- ==== Sys2Proof/Machine/Coprocessor.lean ====
section
/-! DEFINITION. The coprocessor Load/Store instructions (45_coprocessor_load_store.md R300 to R311): one shared execution
and one meaning per row of the opcode table. The word count and the data a coprocessor supplies are the free values
`Config.coprocCount` and `Config.coprocData`, drawn at the index `State.draws` (log 14). -/

namespace Sys2Proof.Machine

/-- `CoprocPresent(cp_num)`, a check on the word alone (R308, D19; R333 step 2). -/
def checkPresent (cfg : Config) (cp : BitVec 4) (word : Word) : Except Stop Unit :=
  if cfg.coprocs.contains cp then .ok () else raiseFault (.undefinedEncoding .coprocessorAbsent word)

/-- The number of words of the transfer that takes draw t: 1 to 16 (R303, D18). -/
def drawnCount (t : Nat) : Nat := (Config.coprocCount t).val + 1

/-- The words a coprocessor supplies for a store that takes draw t (R304). -/
def drawnWords (t : Nat) : List Word := (List.range (drawnCount t)).map fun j => Config.coprocData t j

/-- The byte offset of an indexed form: the 8-bit field times 4 (R301). -/
def cpOffset (off : BitVec 8) : Word := off.setWidth 32 * 4#32

/-- What tells the four forms apart: the pair (P, W) and the low byte, an offset or the user-defined byte (R301, R302).
P = 0, W = 0 is the unindexed form here. -/
def cpFirst (ix : Indexing) (up : Bool) (base : Word) (low : BitVec 8) : Word :=
  match ix with
  | .offset | .preIndexed => indexed up base (cpOffset low)
  | .postIndexed | .unlisted => base

/-- Whether a form writes the base back (R301, R302). -/
def cpWritesBack (ix : Indexing) : Bool :=
  match ix with
  | .preIndexed | .postIndexed => true
  | .offset | .unlisted => false

/-- The byte handed to the coprocessor: the unindexed form's user-defined one (R302). -/
def cpOption (ix : Indexing) (low : BitVec 8) : Option (BitVec 8) :=
  match ix with
  | .unlisted => some low
  | .offset | .preIndexed | .postIndexed => none

/-- The base written back where the form says so (R306). -/
def writeCpBase (ix : Indexing) (rn : Reg) (v : Word) (s : State) : State :=
  if cpWritesBack ix then s.setReg rn v else s

/-- `CPLS(instr)` of R300; `word` is the instruction's word, which the absent coprocessor's fault carries. -/
def execCp (load : Bool) (word : Word) (c : Cond) (ix : Indexing) (up n : Bool) (rn crd cp : Reg) (low : BitVec 8)
    (s : State) : Host.Outcome State Fault Refusal :=
  execute (checkPresent s.cfg cp word) c s do
    refuseIf (cpWritesBack ix && rn == Reg.pc) .r15Writeback
    let base ← readReg s rn
    let first := cpFirst ix up base low
    let k := drawnCount s.draws
    checkBlock s (if load then .read else .write) first k
    let words := if load then s.loadWords first k else drawnWords s.draws
    let t := if load then s else s.storeWords first words
    let noted := t.noteTransfer { load := load, cp := cp, crd := crd, n := n, option := cpOption ix low, words := words }
    advance (writeCpBase ix rn (indexed up base (cpOffset low)) noted)

/-- LDC, offset form (R301, R307). -/
def execLdcOffset (c : Cond) (up n : Bool) (rn crd cp : Reg) (off : BitVec 8) (s : State) :
    Host.Outcome State Fault Refusal :=
  execCp true (encode (.ldcOffset c up n rn crd cp off)) c .offset up n rn crd cp off s

/-- LDC, pre-indexed with write-back (R301, R306, R307). -/
def execLdcPre (c : Cond) (up n : Bool) (rn crd cp : Reg) (off : BitVec 8) (s : State) :
    Host.Outcome State Fault Refusal :=
  execCp true (encode (.ldcPre c up n rn crd cp off)) c .preIndexed up n rn crd cp off s

/-- LDC, post-indexed (R301, R306, R307). -/
def execLdcPost (c : Cond) (up n : Bool) (rn crd cp : Reg) (off : BitVec 8) (s : State) :
    Host.Outcome State Fault Refusal :=
  execCp true (encode (.ldcPost c up n rn crd cp off)) c .postIndexed up n rn crd cp off s

/-- LDC, unindexed (R302, R307). -/
def execLdcUnindexed (c : Cond) (up n : Bool) (rn crd cp : Reg) (option : BitVec 8) (s : State) :
    Host.Outcome State Fault Refusal :=
  execCp true (encode (.ldcUnindexed c up n rn crd cp option)) c .unlisted up n rn crd cp option s

/-- STC, offset form (R301, R308). -/
def execStcOffset (c : Cond) (up n : Bool) (rn crd cp : Reg) (off : BitVec 8) (s : State) :
    Host.Outcome State Fault Refusal :=
  execCp false (encode (.stcOffset c up n rn crd cp off)) c .offset up n rn crd cp off s

/-- STC, pre-indexed with write-back (R301, R306, R308). -/
def execStcPre (c : Cond) (up n : Bool) (rn crd cp : Reg) (off : BitVec 8) (s : State) :
    Host.Outcome State Fault Refusal :=
  execCp false (encode (.stcPre c up n rn crd cp off)) c .preIndexed up n rn crd cp off s

/-- STC, post-indexed (R301, R306, R308). -/
def execStcPost (c : Cond) (up n : Bool) (rn crd cp : Reg) (off : BitVec 8) (s : State) :
    Host.Outcome State Fault Refusal :=
  execCp false (encode (.stcPost c up n rn crd cp off)) c .postIndexed up n rn crd cp off s

/-- STC, unindexed (R302, R308). -/
def execStcUnindexed (c : Cond) (up n : Bool) (rn crd cp : Reg) (option : BitVec 8) (s : State) :
    Host.Outcome State Fault Refusal :=
  execCp false (encode (.stcUnindexed c up n rn crd cp option)) c .unlisted up n rn crd cp option s

end Sys2Proof.Machine
end

