-- ==== Sys2Proof/Machine/Flags.lean ====
section
/-! DEFINITION. The sixteen data-processing operations, their results and the flags they write
(41_data_processing_operand2.md R155 to R159). Opcodes and flag arithmetic are the spec's general-knowledge passages G1
and G2 (log 17, log 18). Results are computed as exact integers and narrowed at the end. -/

namespace Sys2Proof.Machine

/-- The operations of R158's table. -/
inductive DpOp where
  | and | eor | sub | rsb | add | adc | sbc | rsc | tst | teq | cmp | cmn | orr | mov | bic | mvn
  deriving DecidableEq, Repr

/-- Whether the operation writes Rd (R158). -/
def writesRd (op : DpOp) : Bool :=
  match op with
  | .tst | .teq | .cmp | .cmn => false
  | .and | .eor | .sub | .rsb | .add | .adc | .sbc | .rsc | .orr | .mov | .bic | .mvn => true

/-- Whether the operation uses a first operand (R140, R158). -/
def usesRn (op : DpOp) : Bool :=
  match op with
  | .mov | .mvn => false
  | .and | .eor | .sub | .rsb | .add | .adc | .sbc | .rsc | .tst | .teq | .cmp | .cmn | .orr | .bic => true

/-- A result with the carry and overflow that its arithmetic gives. -/
structure Computed where
  result : Word
  carry : Bool
  overflow : Bool
  deriving DecidableEq, Repr

/-- The sum of two words and a carry in: C is the carry out of the unsigned sum, V the signed overflow (R156, R159). -/
def addCarry (a b : Word) (cin : Bool) : Computed :=
  let result := BitVec.ofNat 32 (a.toNat + b.toNat + cin.toNat)
  { result := result
    carry := decide (2 ^ 32 ≤ a.toNat + b.toNat + cin.toNat)
    overflow := decide (result.toInt ≠ a.toInt + b.toInt + (cin.toNat : Int)) }

/-- The difference of two words and a borrow in: C is NOT borrow of the unsigned difference, V the signed overflow
(R157, R159). -/
def subBorrow (a b : Word) (bin : Bool) : Computed :=
  let result := a - b - BitVec.ofNat 32 bin.toNat
  { result := result
    carry := decide (b.toNat + bin.toNat ≤ a.toNat)
    overflow := decide (result.toInt ≠ a.toInt - b.toInt - (bin.toNat : Int)) }

/-- The result of an operation on the first operand `a`, the second operand and the flags before (R158), with the C
and V it would write: the logical class takes C from the shifter and keeps V (R152, R159). -/
def compute (op : DpOp) (a : Word) (op2 : Shifted) (p : Psr) : Computed :=
  match op with
  | .and | .tst => ⟨a &&& op2.1, op2.2, p.v⟩
  | .eor | .teq => ⟨a ^^^ op2.1, op2.2, p.v⟩
  | .sub | .cmp => subBorrow a op2.1 false
  | .rsb => subBorrow op2.1 a false
  | .add | .cmn => addCarry a op2.1 false
  | .adc => addCarry a op2.1 p.c
  | .sbc => subBorrow a op2.1 (!p.c)
  | .rsc => subBorrow op2.1 a (!p.c)
  | .orr => ⟨a ||| op2.1, op2.2, p.v⟩
  | .mov => ⟨op2.1, op2.2, p.v⟩
  | .bic => ⟨a &&& ~~~op2.1, op2.2, p.v⟩
  | .mvn => ⟨~~~op2.1, op2.2, p.v⟩

/-- The status register with the four flags of a computation: N is bit 31, Z says the result is zero (R159). The mode
is kept. -/
def flagsOf (r : Computed) (p : Psr) : Psr :=
  { p with n := r.result.getLsbD 31, z := decide (r.result = 0#32), c := r.carry, v := r.overflow }

end Sys2Proof.Machine
end

