-- ==== Sys2Proof/Machine/DataProcessing.lean ====
section
/-! DEFINITION. The data-processing instructions (41_data_processing_operand2.md R140, R153 to R160): one shared
execution and one meaning per row of the opcode table. -/

namespace Sys2Proof.Machine

/-- Whether the second operand is form 4 and any of its registers, Rn or Rd is R15 (R153, U1). -/
def r15InRegisterShift (op2 : Operand2) (rn rd : Reg) : Bool :=
  match op2 with
  | .shiftReg rs _ rm => rn == Reg.pc || rm == Reg.pc || rd == Reg.pc || rs == Reg.pc
  | .imm .. | .shiftImm .. => false

/-- The register restrictions (R153, R154). -/
def checkDpRegs (op : DpOp) (op2 : Operand2) (rn rd : Reg) : Except Stop Unit := do
  unpredictableIf (r15InRegisterShift op2 rn rd) .r15InRegisterShift
  refuseIf (writesRd op && rd == Reg.pc) .r15Destination

/-- The first operand, read only where the operation uses one (R140). -/
def firstOperand (op : DpOp) (s : State) (rn : Reg) : Except Stop Word :=
  if usesRn op then readReg s rn else .ok 0#32

/-- The effect of a data-processing instruction but for the pc (R140): the result to Rd, the flags where S = 1. -/
def applyDp (op : DpOp) (setFlags : Bool) (rd : Reg) (a : Word) (op2 : Shifted) (s : State) : State :=
  let r := compute op a op2 s.cpsr
  let s1 := if writesRd op then s.setReg rd r.result else s
  if setFlags then { s1 with cpsr := flagsOf r s.cpsr } else s1

/-- `DP(instr)` of R140. All registers are read before any is written. -/
def execDp (op : DpOp) (c : Cond) (setFlags : Bool) (rn rd : Reg) (op2 : Operand2) (s : State) :
    Host.Outcome State Fault Refusal :=
  execute (.ok ()) c s do
    checkDpRegs op op2 rn rd
    let a ← firstOperand op s rn
    let v ← evalOperand2 s op2
    advance (applyDp op setFlags rd a v s)

/-- MOV, immediate operand (R155, R141). The Rn field is 0000 (R124). -/
def execMovImm (c : Cond) (sf : Bool) (rd : Reg) (rotate4 : BitVec 4) (immed8 : BitVec 8) (s : State) :
    Host.Outcome State Fault Refusal :=
  execDp .mov c sf 0#4 rd (.imm rotate4 immed8) s

/-- MOV, operand shifted by an immediate (R155, R142 to R146, R151). -/
def execMovShiftImm (c : Cond) (sf : Bool) (rd : Reg) (amount : BitVec 5) (ty : ShiftType) (rm : Reg) (s : State) :
    Host.Outcome State Fault Refusal :=
  execDp .mov c sf 0#4 rd (.shiftImm amount ty rm) s

/-- MOV, operand shifted by a register (R155, R147 to R150). -/
def execMovShiftReg (c : Cond) (sf : Bool) (rd : Reg) (rs : Reg) (ty : ShiftType) (rm : Reg) (s : State) :
    Host.Outcome State Fault Refusal :=
  execDp .mov c sf 0#4 rd (.shiftReg rs ty rm) s

/-- ADD, immediate operand (R156, R141). -/
def execAddImm (c : Cond) (sf : Bool) (rn rd : Reg) (rotate4 : BitVec 4) (immed8 : BitVec 8) (s : State) :
    Host.Outcome State Fault Refusal :=
  execDp .add c sf rn rd (.imm rotate4 immed8) s

/-- ADD, operand shifted by an immediate (R156, R142 to R146, R151). -/
def execAddShiftImm (c : Cond) (sf : Bool) (rn rd : Reg) (amount : BitVec 5) (ty : ShiftType) (rm : Reg) (s : State) :
    Host.Outcome State Fault Refusal :=
  execDp .add c sf rn rd (.shiftImm amount ty rm) s

/-- ADD, operand shifted by a register (R156, R147 to R150). -/
def execAddShiftReg (c : Cond) (sf : Bool) (rn rd : Reg) (rs : Reg) (ty : ShiftType) (rm : Reg) (s : State) :
    Host.Outcome State Fault Refusal :=
  execDp .add c sf rn rd (.shiftReg rs ty rm) s

/-- CMP, immediate operand (R157, R141): the flags always, no register; the Rd field is 0000 (R124). -/
def execCmpImm (c : Cond) (rn : Reg) (rotate4 : BitVec 4) (immed8 : BitVec 8) (s : State) :
    Host.Outcome State Fault Refusal :=
  execDp .cmp c true rn 0#4 (.imm rotate4 immed8) s

/-- CMP, operand shifted by an immediate (R157, R142 to R146, R151). -/
def execCmpShiftImm (c : Cond) (rn : Reg) (amount : BitVec 5) (ty : ShiftType) (rm : Reg) (s : State) :
    Host.Outcome State Fault Refusal :=
  execDp .cmp c true rn 0#4 (.shiftImm amount ty rm) s

/-- CMP, operand shifted by a register (R157, R147 to R150). -/
def execCmpShiftReg (c : Cond) (rn : Reg) (rs : Reg) (ty : ShiftType) (rm : Reg) (s : State) :
    Host.Outcome State Fault Refusal :=
  execDp .cmp c true rn 0#4 (.shiftReg rs ty rm) s

/-- AND: Rn AND operand 2 (R158). -/
def execAndDp (c : Cond) (sf : Bool) (rn rd : Reg) (op2 : Operand2) (s : State) : Host.Outcome State Fault Refusal :=
  execDp .and c sf rn rd op2 s

/-- EOR: Rn XOR operand 2 (R158). -/
def execEorDp (c : Cond) (sf : Bool) (rn rd : Reg) (op2 : Operand2) (s : State) : Host.Outcome State Fault Refusal :=
  execDp .eor c sf rn rd op2 s

/-- SUB: Rn - operand 2 (R158). -/
def execSubDp (c : Cond) (sf : Bool) (rn rd : Reg) (op2 : Operand2) (s : State) : Host.Outcome State Fault Refusal :=
  execDp .sub c sf rn rd op2 s

/-- RSB: operand 2 - Rn (R158). -/
def execRsbDp (c : Cond) (sf : Bool) (rn rd : Reg) (op2 : Operand2) (s : State) : Host.Outcome State Fault Refusal :=
  execDp .rsb c sf rn rd op2 s

/-- ADC: Rn + operand 2 + C (R158). -/
def execAdcDp (c : Cond) (sf : Bool) (rn rd : Reg) (op2 : Operand2) (s : State) : Host.Outcome State Fault Refusal :=
  execDp .adc c sf rn rd op2 s

/-- SBC: Rn - operand 2 - NOT C (R158). -/
def execSbcDp (c : Cond) (sf : Bool) (rn rd : Reg) (op2 : Operand2) (s : State) : Host.Outcome State Fault Refusal :=
  execDp .sbc c sf rn rd op2 s

/-- RSC: operand 2 - Rn - NOT C (R158). -/
def execRscDp (c : Cond) (sf : Bool) (rn rd : Reg) (op2 : Operand2) (s : State) : Host.Outcome State Fault Refusal :=
  execDp .rsc c sf rn rd op2 s

/-- TST: the flags of Rn AND operand 2 (R158); `sbz` is the field it does not use (log 20). -/
def execTstDp (c : Cond) (rn sbz : Reg) (op2 : Operand2) (s : State) : Host.Outcome State Fault Refusal :=
  execDp .tst c true rn sbz op2 s

/-- TEQ: the flags of Rn XOR operand 2 (R158). -/
def execTeqDp (c : Cond) (rn sbz : Reg) (op2 : Operand2) (s : State) : Host.Outcome State Fault Refusal :=
  execDp .teq c true rn sbz op2 s

/-- CMN: the flags of Rn + operand 2 (R158). -/
def execCmnDp (c : Cond) (rn sbz : Reg) (op2 : Operand2) (s : State) : Host.Outcome State Fault Refusal :=
  execDp .cmn c true rn sbz op2 s

/-- ORR: Rn OR operand 2 (R158). -/
def execOrrDp (c : Cond) (sf : Bool) (rn rd : Reg) (op2 : Operand2) (s : State) : Host.Outcome State Fault Refusal :=
  execDp .orr c sf rn rd op2 s

/-- BIC: Rn AND NOT operand 2 (R158). -/
def execBicDp (c : Cond) (sf : Bool) (rn rd : Reg) (op2 : Operand2) (s : State) : Host.Outcome State Fault Refusal :=
  execDp .bic c sf rn rd op2 s

/-- MVN: NOT operand 2 (R158); `sbz` is the field it does not use (log 20). -/
def execMvnDp (c : Cond) (sf : Bool) (sbz rd : Reg) (op2 : Operand2) (s : State) : Host.Outcome State Fault Refusal :=
  execDp .mvn c sf sbz rd op2 s

end Sys2Proof.Machine
end

