-- ==== Sys2Proof/Machine/LoadStore.lean ====
section
/-! DEFINITION. The single Load/Store instructions: word and unsigned byte (42_load_store_word_byte.md R180 to R197),
halfword and signed byte (43_load_store_halfword_signed_byte.md R220 to R232). One shared execution and one meaning per
row of the opcode table. -/

namespace Sys2Proof.Machine

/-- The eight single transfers (R186 to R189, R224 to R227). -/
inductive LsOp where
  | ldr | str | ldrb | strb | ldrh | ldrsb | ldrsh | strh
  deriving DecidableEq, Repr

/-- Whether the transfer is a load: L (R102, R107). -/
def isLoad (op : LsOp) : Bool :=
  match op with
  | .ldr | .ldrb | .ldrh | .ldrsb | .ldrsh => true
  | .str | .strb | .strh => false

/-- The width of the access in bytes (R61). -/
def accessSize (op : LsOp) : Nat :=
  match op with
  | .ldr | .str => 4
  | .ldrh | .ldrsh | .strh => 2
  | .ldrb | .strb | .ldrsb => 1

/-- What a load writes to Rd from the bytes read, given with zeros above them (R65). -/
def extendLoaded (op : LsOp) (v : Word) : Word :=
  match op with
  | .ldrsb => signExtendBytes 1 v
  | .ldrsh => signExtendBytes 2 v
  | .ldr | .ldrb | .ldrh | .str | .strb | .strh => v

/-- The source's restrictions on Rm and Rn of a word or byte transfer with a register offset (R191). -/
def checkWordByteIndex (off : Offset) (rn : Reg) : Except Stop Unit :=
  match off with
  | .imm _ => .ok ()
  | .scaled _ _ rm => do
    unpredictableIf (rm == Reg.pc) .pcAsIndex
    unpredictableIf (rn == rm) .baseIsIndex

/-- The source's restrictions on Rn and Rm of a halfword or signed-byte transfer (R230, R231). -/
def checkHalfwordIndex (off : Offset) (rn : Reg) : Except Stop Unit :=
  match off with
  | .imm _ => unpredictableIf (rn == Reg.pc) .pcAsHalfwordBase
  | .scaled _ _ rm => do
    unpredictableIf (rn == Reg.pc) .pcAsHalfwordBase
    unpredictableIf (rm == Reg.pc) .pcAsIndex
    unpredictableIf (rn == rm) .baseIsIndex

/-- The restrictions of both classes on Rd, and on a base that is written back (R192, R193, R232). -/
def checkTransferRegs (op : LsOp) (ix : Indexing) (rn rd : Reg) : Except Stop Unit := do
  unpredictableIf (writesBack ix && rd == rn) .destinationIsWrittenBase
  refuseIf (rd == Reg.pc) (if isLoad op then .r15Loaded else .r15Stored)
  refuseIf (writesBack ix && rn == Reg.pc) .r15Writeback

/-- The base after the access: `indexed` where the form writes back, else untouched (R184, R223). -/
def writeBase (ix : Indexing) (rn : Reg) (v : Word) (s : State) : State :=
  if writesBack ix then s.setReg rn v else s

/-- The access of a single transfer and its commit, but for the pc: memory or Rd, then the base (R73, R196). -/
def transfer (op : LsOp) (ix : Indexing) (rn rd : Reg) (address wb : Word) (s : State) : Except Stop State :=
  if isLoad op then do
    let v ← memRead s address (accessSize op)
    return writeBase ix rn wb (s.setReg rd (extendLoaded op v))
  else do
    let t ← memWrite s address (accessSize op) (s.reg rd)
    return writeBase ix rn wb t

/-- The skeleton of R186, R187 and R220: `checkIndex` is the class's own restriction on Rn and Rm. -/
def execLs (op : LsOp) (checkIndex : Except Stop Unit) (c : Cond) (ix : Indexing) (up : Bool) (rn rd : Reg)
    (off : Offset) (s : State) : Host.Outcome State Fault Refusal :=
  execute (checkP0W0 s.cfg ix) c s do
    checkIndex
    checkTransferRegs op ix rn rd
    let base ← readReg s rn
    let offset ← evalOffset s off
    let t ← transfer op ix rn rd (accessAddress ix up base offset) (indexed up base offset) s
    advance t

/-- A word or unsigned-byte transfer with a 12-bit immediate offset (R103, R181). -/
def execWordByteImm (op : LsOp) (c : Cond) (ix : Indexing) (up : Bool) (rn rd : Reg) (offset : BitVec 12) (s : State) :
    Host.Outcome State Fault Refusal :=
  execLs op (checkWordByteIndex (.imm (offset.setWidth 32)) rn) c ix up rn rd (.imm (offset.setWidth 32)) s

/-- A word or unsigned-byte transfer with a register or scaled-register offset (R104, R105, R182, R183). -/
def execWordByteReg (op : LsOp) (c : Cond) (ix : Indexing) (up : Bool) (rn rd : Reg) (amount : BitVec 5)
    (ty : ShiftType) (rm : Reg) (s : State) : Host.Outcome State Fault Refusal :=
  execLs op (checkWordByteIndex (.scaled amount ty rm) rn) c ix up rn rd (.scaled amount ty rm) s

/-- A halfword or signed-byte transfer with an 8-bit immediate offset in two parts (R108, R221). -/
def execHalfwordImm (op : LsOp) (c : Cond) (ix : Indexing) (up : Bool) (rn rd : Reg) (offsetH offsetL : BitVec 4)
    (s : State) : Host.Outcome State Fault Refusal :=
  execLs op (checkHalfwordIndex (.imm ((offsetH ++ offsetL).setWidth 32)) rn) c ix up rn rd
    (.imm ((offsetH ++ offsetL).setWidth 32)) s

/-- A halfword or signed-byte transfer with a register offset, unshifted (R109, R222). -/
def execHalfwordReg (op : LsOp) (c : Cond) (ix : Indexing) (up : Bool) (rn rd rm : Reg) (s : State) :
    Host.Outcome State Fault Refusal :=
  execLs op (checkHalfwordIndex (.scaled 0#5 .lsl rm) rn) c ix up rn rd (.scaled 0#5 .lsl rm) s

/-- LDR, immediate offset (R186). -/
def execLdrImm (c : Cond) (ix : Indexing) (up : Bool) (rn rd : Reg) (offset : BitVec 12) (s : State) :
    Host.Outcome State Fault Refusal :=
  execWordByteImm .ldr c ix up rn rd offset s

/-- LDR, register or scaled-register offset (R186). -/
def execLdrReg (c : Cond) (ix : Indexing) (up : Bool) (rn rd : Reg) (amount : BitVec 5) (ty : ShiftType) (rm : Reg)
    (s : State) : Host.Outcome State Fault Refusal :=
  execWordByteReg .ldr c ix up rn rd amount ty rm s

/-- STR, immediate offset (R187). -/
def execStrImm (c : Cond) (ix : Indexing) (up : Bool) (rn rd : Reg) (offset : BitVec 12) (s : State) :
    Host.Outcome State Fault Refusal :=
  execWordByteImm .str c ix up rn rd offset s

/-- STR, register or scaled-register offset (R187). -/
def execStrReg (c : Cond) (ix : Indexing) (up : Bool) (rn rd : Reg) (amount : BitVec 5) (ty : ShiftType) (rm : Reg)
    (s : State) : Host.Outcome State Fault Refusal :=
  execWordByteReg .str c ix up rn rd amount ty rm s

/-- LDRB, immediate offset (R188). -/
def execLdrbImm (c : Cond) (ix : Indexing) (up : Bool) (rn rd : Reg) (offset : BitVec 12) (s : State) :
    Host.Outcome State Fault Refusal :=
  execWordByteImm .ldrb c ix up rn rd offset s

/-- LDRB, register or scaled-register offset (R188). -/
def execLdrbReg (c : Cond) (ix : Indexing) (up : Bool) (rn rd : Reg) (amount : BitVec 5) (ty : ShiftType) (rm : Reg)
    (s : State) : Host.Outcome State Fault Refusal :=
  execWordByteReg .ldrb c ix up rn rd amount ty rm s

/-- STRB, immediate offset (R189). -/
def execStrbImm (c : Cond) (ix : Indexing) (up : Bool) (rn rd : Reg) (offset : BitVec 12) (s : State) :
    Host.Outcome State Fault Refusal :=
  execWordByteImm .strb c ix up rn rd offset s

/-- STRB, register or scaled-register offset (R189). -/
def execStrbReg (c : Cond) (ix : Indexing) (up : Bool) (rn rd : Reg) (amount : BitVec 5) (ty : ShiftType) (rm : Reg)
    (s : State) : Host.Outcome State Fault Refusal :=
  execWordByteReg .strb c ix up rn rd amount ty rm s

/-- LDRH, immediate offset (R224). -/
def execLdrhImm (c : Cond) (ix : Indexing) (up : Bool) (rn rd : Reg) (offsetH offsetL : BitVec 4) (s : State) :
    Host.Outcome State Fault Refusal :=
  execHalfwordImm .ldrh c ix up rn rd offsetH offsetL s

/-- LDRH, register offset (R224). -/
def execLdrhReg (c : Cond) (ix : Indexing) (up : Bool) (rn rd rm : Reg) (s : State) :
    Host.Outcome State Fault Refusal :=
  execHalfwordReg .ldrh c ix up rn rd rm s

/-- LDRSB, immediate offset (R225). -/
def execLdrsbImm (c : Cond) (ix : Indexing) (up : Bool) (rn rd : Reg) (offsetH offsetL : BitVec 4) (s : State) :
    Host.Outcome State Fault Refusal :=
  execHalfwordImm .ldrsb c ix up rn rd offsetH offsetL s

/-- LDRSB, register offset (R225). -/
def execLdrsbReg (c : Cond) (ix : Indexing) (up : Bool) (rn rd rm : Reg) (s : State) :
    Host.Outcome State Fault Refusal :=
  execHalfwordReg .ldrsb c ix up rn rd rm s

/-- LDRSH, immediate offset (R226). -/
def execLdrshImm (c : Cond) (ix : Indexing) (up : Bool) (rn rd : Reg) (offsetH offsetL : BitVec 4) (s : State) :
    Host.Outcome State Fault Refusal :=
  execHalfwordImm .ldrsh c ix up rn rd offsetH offsetL s

/-- LDRSH, register offset (R226). -/
def execLdrshReg (c : Cond) (ix : Indexing) (up : Bool) (rn rd rm : Reg) (s : State) :
    Host.Outcome State Fault Refusal :=
  execHalfwordReg .ldrsh c ix up rn rd rm s

/-- STRH, immediate offset (R227). -/
def execStrhImm (c : Cond) (ix : Indexing) (up : Bool) (rn rd : Reg) (offsetH offsetL : BitVec 4) (s : State) :
    Host.Outcome State Fault Refusal :=
  execHalfwordImm .strh c ix up rn rd offsetH offsetL s

/-- STRH, register offset (R227). -/
def execStrhReg (c : Cond) (ix : Indexing) (up : Bool) (rn rd rm : Reg) (s : State) :
    Host.Outcome State Fault Refusal :=
  execHalfwordReg .strh c ix up rn rd rm s

end Sys2Proof.Machine
end

