-- ==== Sys2Proof/Machine/LoadStoreMultiple.lean ====
section
/-! DEFINITION. LDM and STM (44_load_store_multiple.md R260 to R273). -/

namespace Sys2Proof.Machine

/-- The sixteen register numbers in ascending order. -/
def allRegs : List Reg :=
  [0#4, 1#4, 2#4, 3#4, 4#4, 5#4, 6#4, 7#4, 8#4, 9#4, 10#4, 11#4, 12#4, 13#4, 14#4, 15#4]

/-- Whether register i takes part: bit i of the list (R112). -/
def inList (list : BitVec 16) (i : Reg) : Bool := list.getLsbD i.toNat

/-- The registers of a list, lowest number first (R112, R262). -/
def regsOf (list : BitVec 16) : List Reg := allRegs.filter fun i => inList list i

/-- `popcount16` of a list (R9): how many registers it names. -/
def countOf (list : BitVec 16) : Nat := (regsOf list).length

/-- The lowest address of the block (R261); `before` is P, `up` is U. -/
def blockStart (before up : Bool) (base : Word) (n : Nat) : Word :=
  match up, before with
  | true, false => base
  | true, true => base + 4#32
  | false, false => base - BitVec.ofNat 32 (4 * n) + 4#32
  | false, true => base - BitVec.ofNat 32 (4 * n)

/-- The value written back to the base (R261, R265). -/
def blockEnd (up : Bool) (base : Word) (n : Nat) : Word :=
  if up then base + BitVec.ofNat 32 (4 * n) else base - BitVec.ofNat 32 (4 * n)

/-- Whether `User` is the only mode (D17, R271). -/
def singleMode (cfg : Config) : Bool := cfg.modes.isEmpty

/-- The corner cases of R271 and R266, in the order of R271's table. -/
def checkLsm (load user wb : Bool) (rn : Reg) (list : BitVec 16) (s : State) : Except Stop Unit := do
  refuseIf (list == 0#16) .emptyList
  refuseIf (rn == Reg.pc) .lsmBaseR15
  unpredictableIf (inList list rn && wb) .baseInListWithWriteback
  refuseIf (!load && inList list Reg.pc) .stmOfR15
  unpredictableIf (user && wb && !inList list Reg.pc) .userBankWithWriteback
  unpredictableIf (user && singleMode s.cfg) .sBitInSingleMode
  unpredictableIf (user && inList list Reg.pc && !hasSpsr s.cfg s.cpsr.mode) .noSpsr

/-- The bank a transfer uses: the user-mode bank where S = 1 and the PC is not in the list (R267), else that of the
current mode. -/
def usesUserBank (user : Bool) (list : BitVec 16) : Bool := user && !inList list Reg.pc

/-- Register i as a multiple transfer sees it (R263, R264, R267). -/
def lsmReg (userBank : Bool) (s : State) (i : Reg) : Word := if userBank then s.usrReg i else s.reg i

/-- Writing register i (R0 to R14) as a multiple transfer does (R263, R267). -/
def setLsmReg (userBank : Bool) (s : State) (i : Reg) (v : Word) : State :=
  if userBank then s.setUsrReg i v else s.setReg i v

/-- The loaded words to their registers, R15 left to `loadPc` (R263). -/
def writeRegs (userBank : Bool) (s : State) : List (Reg × Word) → State
  | [] => s
  | (i, v) :: rest => writeRegs userBank (if i = Reg.pc then s else setLsmReg userBank s i v) rest

/-- Loading the PC with the word of R15, refused where it is no multiple of 4 (R268). -/
def loadPc (s : State) (v : Word) : Except Stop State :=
  if v.toNat % 4 = 0 then .ok { s with pc := v } else refuse .pcTargetNotAligned

/-- The base written back where W = 1 (R265). -/
def writeBlockBase (wb : Bool) (rn : Reg) (v : Word) (s : State) : State := if wb then s.setReg rn v else s

/-- How an LDM leaves: with the PC in the list the loaded word, and the restored status where S = 1 (R266, R268);
else the next instruction. -/
def leaveLdm (user : Bool) (list : BitVec 16) (pcWord : Word) (s : State) : Except Stop State :=
  if inList list Reg.pc then loadPc (if user then s.restoreStatus else s) pcWord else advance s

/-- LDM (R260, R263, R266 to R268). -/
def execLdm (c : Cond) (before up user wb : Bool) (rn : Reg) (list : BitVec 16) (s : State) :
    Host.Outcome State Fault Refusal :=
  execute (.ok ()) c s do
    checkLsm true user wb rn list s
    let base := s.reg rn
    let n := countOf list
    let start := blockStart before up base n
    checkBlock s .read start n
    let words := s.loadWords start n
    let t := writeRegs (usesUserBank user list) s ((regsOf list).zip words)
    leaveLdm user list (s.load (wordAddr start (n - 1)) 4) (writeBlockBase wb rn (blockEnd up base n) t)

/-- STM (R260, R264, R267). -/
def execStm (c : Cond) (before up user wb : Bool) (rn : Reg) (list : BitVec 16) (s : State) :
    Host.Outcome State Fault Refusal :=
  execute (.ok ()) c s do
    checkLsm false user wb rn list s
    let base := s.reg rn
    let n := countOf list
    let start := blockStart before up base n
    checkBlock s .write start n
    let t := s.storeWords start ((regsOf list).map fun i => lsmReg (usesUserBank user list) s i)
    advance (writeBlockBase wb rn (blockEnd up base n) t)

end Sys2Proof.Machine
end

