-- ==== Sys2Proof/Machine/Reserved.lean ====
section
/-! DEFINITION. The reserved rows of the opcode table: each is the outcome the spec names for it, raised from the word
alone, whatever the flags (30_encoding.md R117; 60_exceptions.md R331, R333 step 2). -/

namespace Sys2Proof.Machine

/-- cond = 1111 (R132, D6). -/
def execUndefinedCond1111 (w : Word) (_s : State) : Host.Outcome State Fault Refusal :=
  .fault (.undefinedEncoding .cond1111 w)

/-- Word or byte Load/Store with I = 1 and bit 4 = 1 (R195, D28). -/
def execUndefinedLsRegBit4 (w : Word) (_s : State) : Host.Outcome State Fault Refusal :=
  .fault (.undefinedEncoding .registerOffsetBit4 w)

/-- Halfword class with S = 1 and L = 0 (R228, U7). -/
def execUndefinedSignedStore (w : Word) (_s : State) : Host.Outcome State Fault Refusal :=
  .fault (.undefinedEncoding .signedStore w)

/-- The branch class (R117, D32). -/
def execRefusedBranchClass (w : Word) (_s : State) : Host.Outcome State Fault Refusal :=
  .refused (.branchClass w)

/-- The class `instr[27:25] = 111` (R117, D32). -/
def execRefusedClass111 (w : Word) (_s : State) : Host.Outcome State Fault Refusal :=
  .refused (.class111 w)

/-- The multiply and swap space (R229, D32). -/
def execRefusedMulSwapSpace (w : Word) (_s : State) : Host.Outcome State Fault Refusal :=
  .refused (.mulSwapSpace w)

end Sys2Proof.Machine
end

