-- ==== Sys2Proof/Machine/Dispatch.lean ====
section
/-! DEFINITION. One arm per instruction: each a direct call of its meaning. -/

namespace Sys2Proof.Machine

/-- What an instruction does (41 to 45 of spec/, and R117 for the reserved rows). -/
def exec (i : Instr) (s : State) : Host.Outcome State Fault Refusal :=
  match i with
  | .movImm c sf rd rotate4 immed8 => Sys2Proof.Machine.execMovImm c sf rd rotate4 immed8 s
  | .movShiftImm c sf rd amount ty rm => Sys2Proof.Machine.execMovShiftImm c sf rd amount ty rm s
  | .movShiftReg c sf rd rs ty rm => Sys2Proof.Machine.execMovShiftReg c sf rd rs ty rm s
  | .addImm c sf rn rd rotate4 immed8 => Sys2Proof.Machine.execAddImm c sf rn rd rotate4 immed8 s
  | .addShiftImm c sf rn rd amount ty rm => Sys2Proof.Machine.execAddShiftImm c sf rn rd amount ty rm s
  | .addShiftReg c sf rn rd rs ty rm => Sys2Proof.Machine.execAddShiftReg c sf rn rd rs ty rm s
  | .cmpImm c rn rotate4 immed8 => Sys2Proof.Machine.execCmpImm c rn rotate4 immed8 s
  | .cmpShiftImm c rn amount ty rm => Sys2Proof.Machine.execCmpShiftImm c rn amount ty rm s
  | .cmpShiftReg c rn rs ty rm => Sys2Proof.Machine.execCmpShiftReg c rn rs ty rm s
  | .andDp c sf rn rd op2 => Sys2Proof.Machine.execAndDp c sf rn rd op2 s
  | .eorDp c sf rn rd op2 => Sys2Proof.Machine.execEorDp c sf rn rd op2 s
  | .subDp c sf rn rd op2 => Sys2Proof.Machine.execSubDp c sf rn rd op2 s
  | .rsbDp c sf rn rd op2 => Sys2Proof.Machine.execRsbDp c sf rn rd op2 s
  | .adcDp c sf rn rd op2 => Sys2Proof.Machine.execAdcDp c sf rn rd op2 s
  | .sbcDp c sf rn rd op2 => Sys2Proof.Machine.execSbcDp c sf rn rd op2 s
  | .rscDp c sf rn rd op2 => Sys2Proof.Machine.execRscDp c sf rn rd op2 s
  | .tstDp c rn sbz op2 => Sys2Proof.Machine.execTstDp c rn sbz op2 s
  | .teqDp c rn sbz op2 => Sys2Proof.Machine.execTeqDp c rn sbz op2 s
  | .cmnDp c rn sbz op2 => Sys2Proof.Machine.execCmnDp c rn sbz op2 s
  | .orrDp c sf rn rd op2 => Sys2Proof.Machine.execOrrDp c sf rn rd op2 s
  | .bicDp c sf rn rd op2 => Sys2Proof.Machine.execBicDp c sf rn rd op2 s
  | .mvnDp c sf sbz rd op2 => Sys2Proof.Machine.execMvnDp c sf sbz rd op2 s
  | .ldrImm c ix up rn rd offset => Sys2Proof.Machine.execLdrImm c ix up rn rd offset s
  | .ldrReg c ix up rn rd amount ty rm => Sys2Proof.Machine.execLdrReg c ix up rn rd amount ty rm s
  | .strImm c ix up rn rd offset => Sys2Proof.Machine.execStrImm c ix up rn rd offset s
  | .strReg c ix up rn rd amount ty rm => Sys2Proof.Machine.execStrReg c ix up rn rd amount ty rm s
  | .ldrbImm c ix up rn rd offset => Sys2Proof.Machine.execLdrbImm c ix up rn rd offset s
  | .ldrbReg c ix up rn rd amount ty rm => Sys2Proof.Machine.execLdrbReg c ix up rn rd amount ty rm s
  | .strbImm c ix up rn rd offset => Sys2Proof.Machine.execStrbImm c ix up rn rd offset s
  | .strbReg c ix up rn rd amount ty rm => Sys2Proof.Machine.execStrbReg c ix up rn rd amount ty rm s
  | .ldrhImm c ix up rn rd offsetH offsetL => Sys2Proof.Machine.execLdrhImm c ix up rn rd offsetH offsetL s
  | .ldrhReg c ix up rn rd rm => Sys2Proof.Machine.execLdrhReg c ix up rn rd rm s
  | .ldrsbImm c ix up rn rd offsetH offsetL => Sys2Proof.Machine.execLdrsbImm c ix up rn rd offsetH offsetL s
  | .ldrsbReg c ix up rn rd rm => Sys2Proof.Machine.execLdrsbReg c ix up rn rd rm s
  | .ldrshImm c ix up rn rd offsetH offsetL => Sys2Proof.Machine.execLdrshImm c ix up rn rd offsetH offsetL s
  | .ldrshReg c ix up rn rd rm => Sys2Proof.Machine.execLdrshReg c ix up rn rd rm s
  | .strhImm c ix up rn rd offsetH offsetL => Sys2Proof.Machine.execStrhImm c ix up rn rd offsetH offsetL s
  | .strhReg c ix up rn rd rm => Sys2Proof.Machine.execStrhReg c ix up rn rd rm s
  | .ldm c before up user wb rn list => Sys2Proof.Machine.execLdm c before up user wb rn list s
  | .stm c before up user wb rn list => Sys2Proof.Machine.execStm c before up user wb rn list s
  | .ldcOffset c up n rn crd cp off => Sys2Proof.Machine.execLdcOffset c up n rn crd cp off s
  | .ldcPre c up n rn crd cp off => Sys2Proof.Machine.execLdcPre c up n rn crd cp off s
  | .ldcPost c up n rn crd cp off => Sys2Proof.Machine.execLdcPost c up n rn crd cp off s
  | .ldcUnindexed c up n rn crd cp option => Sys2Proof.Machine.execLdcUnindexed c up n rn crd cp option s
  | .stcOffset c up n rn crd cp off => Sys2Proof.Machine.execStcOffset c up n rn crd cp off s
  | .stcPre c up n rn crd cp off => Sys2Proof.Machine.execStcPre c up n rn crd cp off s
  | .stcPost c up n rn crd cp off => Sys2Proof.Machine.execStcPost c up n rn crd cp off s
  | .stcUnindexed c up n rn crd cp option => Sys2Proof.Machine.execStcUnindexed c up n rn crd cp option s
  | .undefinedCond1111 w => Sys2Proof.Machine.execUndefinedCond1111 w s
  | .undefinedLsRegBit4 w => Sys2Proof.Machine.execUndefinedLsRegBit4 w s
  | .undefinedSignedStore w => Sys2Proof.Machine.execUndefinedSignedStore w s
  | .refusedBranchClass w => Sys2Proof.Machine.execRefusedBranchClass w s
  | .refusedClass111 w => Sys2Proof.Machine.execRefusedClass111 w s
  | .refusedMulSwapSpace w => Sys2Proof.Machine.execRefusedMulSwapSpace w s

end Sys2Proof.Machine
end

