-- ==== Sys2Proof/Machine/Fetch.lean ====
section
/-! DEFINITION. Fetching an instruction (20_memory.md R78, 10_state.md R36, 60_exceptions.md R333 steps 1 and 2) and the
end of a run (70_reset_and_hazards.md R367). -/

namespace Sys2Proof.Machine

/-- A status register by its name (R37, R40). -/
def statusOf (s : State) (r : StatusReg) : Psr :=
  match r with
  | .cpsr => s.cpsr
  | .spsr m => s.spsrOf m

/-- A flag of a status register (R37). -/
def flagOf (p : Psr) (f : Flag) : Bool :=
  match f with
  | .n => p.n
  | .z => p.z
  | .c => p.c
  | .v => p.v

/-- Whether a halting predicate holds of a state (R367, D25). -/
def haltHolds (s : State) (h : Halt) : Bool :=
  match h with
  | .never => false
  | .pcIs w => decide (s.pc = w)
  | .registerIs k w => decide (s.phys k = w)
  | .flagIs r f b => decide (flagOf (statusOf s r) f = b)
  | .modeIs r m => decide ((statusOf s r).mode = m)
  | .byteIs a b => decide (s.byteAt a = b)
  | .negation h => !haltHolds s h
  | .both h k => haltHolds s h && haltHolds s k
  | .either h k => haltHolds s h || haltHolds s k

/-- `HALT`, checked before each fetch (R367, D25). -/
def halted (s : State) : Bool := haltHolds s s.cfg.halt

/-- The word the decoder is given: the four bytes at the pc under `ENDIAN` (R78). -/
def fetchedWord (s : State) : Word := s.load s.pc 4

/-- The refusal of a word that is no row of the opcode table (R117, R124, R158). -/
def decodeRefusal (e : DecodeError) (w : Word) : Refusal :=
  match e with
  | .movRnNotZero => .movRnNotZero w
  | .cmpRdNotZero => .cmpRdNotZero w
  | .compareWithoutS => .compareWithoutS w
  | .halfwordBits11To8 => .halfwordBits11To8 w

/-- The instruction at the pc: `HALT`, then the pc's alignment, the address map and the decoder (R333 steps 1, 2). A pc
that is a multiple of 4 never has `pc + 4` above 2^32, so that check of R333 needs no line of its own. -/
def fetch (s : State) : Except Stop Instr := do
  refuseIf (halted s) .halted
  refuseIf (decide (s.pc.toNat % 4 ≠ 0)) .pcNotAligned
  if !mapped s.cfg .fetch s.pc.toNat 4 then raiseFault (.unmapped s.pc 4)
  match decode (fetchedWord s) with
  | .ok i => return i
  | .error e => refuse (decodeRefusal e (fetchedWord s))

/-- The state with the word of `nbits` bits `w` (zeros above them) stored at the pc, where the next fetch reads it. -/
def storeAtPc (s : State) (nbits w : Nat) : State := s.store s.pc 4 (BitVec.ofNat 32 (w % 2 ^ nbits))

end Sys2Proof.Machine
end

