-- ==== Sys2Proof/Machine/Step.lean ====
section
/-! DEFINITION. One step: fetch the instruction at the pc and execute it (20_memory.md R78, 60_exceptions.md R333). -/

namespace Sys2Proof.Machine

/-- One step of the machine. -/
def step (s : State) : Host.Outcome State Fault Refusal :=
  match fetch s with
  | .ok i => exec i s
  | .error e => finish (.error e)

/-- The state with an instruction of the opcode table's numbering stored where `step` fetches next (log 16). -/
def State.withFetchWord (s : State) (nbits w : Nat) : State := storeAtPc s nbits w

end Sys2Proof.Machine
end

