-- ==== Sys2Proof/Safety.lean ====
section
/-! DEFINITION. What counts as a safe run, the invariant of the machine's states, and the words the statements use: what
two states have in common, what a finished instruction leaves, and what the source's tables say of an instruction. -/

namespace Sys2Proof.Machine

/-! ### Safe runs and the invariant -/

/-- The invariant: memory, register banks and SPSRs are in canonical form, the pc is a multiple of 4 (R36), and the
mode of the CPSR and of every SPSR is a member of the configuration's set `Mode` (R39 to R41). -/
def State.inv (s : State) : Bool :=
  Memory.wf s.mem && Registers.wf s.regs && cellsWf resetPsr s.spsr && decide (s.pc.toNat % 4 = 0)
    && isMode s.cfg s.cpsr.mode && s.spsr.all fun e => isMode s.cfg e.2.mode

/-- A state from which the next step completes: no fault and no refusal. -/
def State.Safe (s : State) : Prop := ∃ t, step s = .next t

/-- A state from which k steps complete. -/
def State.SafeFor : Nat → State → Prop
  | 0, _ => True
  | k + 1, s => ∃ t, step s = .next t ∧ State.SafeFor k t

/-! ### What two states have in common -/

/-- The pc can advance: `pc + 4` does not pass 2^32 (R36, D4). -/
def State.CanAdvance (s : State) : Prop := s.pc.toNat + 4 < 2 ^ 32

/-- The physical register that is Ri in the current mode (R33, D17). -/
def State.home (s : State) (i : Reg) : Nat := homeOf s.cfg s.cpsr.mode i

/-- The physical register that an LDM or STM means by Ri: the user mode's where S = 1 and the PC is not in the list, else
the current mode's (R263, R264, R267). -/
def State.lsmHome (s : State) (user : Bool) (list : BitVec 16) (i : Reg) : Nat :=
  if user = true ∧ inList list Reg.pc = false then userHome s.cfg i else s.home i

/-- Ri, not the PC, is the highest register of a list that lies in its physical register: where `Bank` lets registers
share one, the last word loaded stays (R260, log 21). -/
def lastAtHome (home : Reg → Nat) (list : BitVec 16) (i : Reg) : Prop :=
  i ≠ Reg.pc ∧ ∀ j, inList list j = true → j ≠ Reg.pc → home j = home i → j.toNat ≤ i.toNat

/-- Every byte of memory reads the same. -/
def SameMemory (s t : State) : Prop := ∀ a, t.byteAt a = s.byteAt a

/-- Every byte outside the n bytes from `a` reads the same. -/
def SameMemoryOutside (a : Word) (n : Nat) (s t : State) : Prop :=
  ∀ j, j < a.toNat ∨ a.toNat + n ≤ j → t.byteAt j = s.byteAt j

/-- Every physical register, so every register of every mode, holds the same, but for those of which `p` holds. -/
def SameRegistersBut (p : Nat → Prop) (s t : State) : Prop := ∀ k, ¬ p k → t.phys k = s.phys k

/-- The SPSRs and the configuration are the same. -/
def SameSaved (s t : State) : Prop := t.spsr = s.spsr ∧ t.cfg = s.cfg

/-- No coprocessor took part: the record of transfers and the draws are the same. -/
def SameCoprocessors (s t : State) : Prop := t.cpLog = s.cpLog ∧ t.draws = s.draws

/-! ### What a finished instruction leaves -/

/-- The state after a data-processing instruction: the result in the destination, if there is one; where S = 1 the flags
N (bit 31 of the result), Z (the result is zero), C and V; the pc moved on (R140). -/
def afterDp (s : State) (dest : Option Reg) (setFlags : Bool) (result : Word) (c v : Bool) : State :=
  { (match dest with
      | some rd => s.setReg rd result
      | none => s) with
    cpsr :=
      if setFlags then
        { n := result.getLsbD 31, z := decide (result = 0#32), c := c, v := v, mode := s.cpsr.mode }
      else s.cpsr
    pc := s.pc + 4#32 }

/-- The overflow of a sum as R156 has it: the operands' signs agree and the result's differs. -/
def sumOverflow (a b result : Word) : Bool :=
  a.getLsbD 31 == b.getLsbD 31 && result.getLsbD 31 != a.getLsbD 31

/-- The overflow of a difference as R157 has it: the operands' signs differ and the result's differs from the first. -/
def differenceOverflow (a b result : Word) : Bool :=
  a.getLsbD 31 != b.getLsbD 31 && result.getLsbD 31 != a.getLsbD 31

/-- The base plus or minus the offset, by U (R184). -/
def indexedBase (up : Bool) (base offset : Word) : Word := if up then base + offset else base - offset

/-- The access address of a single Load/Store: the indexed base where P = 1, else the base (R184). -/
def addressOf (ix : Indexing) (up : Bool) (base offset : Word) : Word :=
  if ix.p then indexedBase up base offset else base

/-- Write-back: W = 1 or P = 0 (R184, R185). -/
def basesWritten (ix : Indexing) : Bool := ix.w || !ix.p

/-- The state after a single load of the value `v` into Rd (R186): then the base, where it is written back. -/
def afterLoad (s : State) (ix : Indexing) (up : Bool) (rn rd : Reg) (base offset v : Word) : State :=
  let t := s.setReg rd v
  { (if basesWritten ix then t.setReg rn (indexedBase up base offset) else t) with pc := s.pc + 4#32 }

/-- The state after a single store of the low n bytes of `v` (R187): then the base, where it is written back. -/
def afterStore (s : State) (ix : Indexing) (up : Bool) (rn : Reg) (base offset : Word) (n : Nat) (v : Word) : State :=
  let t := s.store (addressOf ix up base offset) n v
  { (if basesWritten ix then t.setReg rn (indexedBase up base offset) else t) with pc := s.pc + 4#32 }

/-- The state after a coprocessor transfer: `t` is the state after the memory part, `wb` the written-back base; the
transfer is recorded and one draw taken (R300, R306). -/
def afterCp (s t : State) (rn : Reg) (wb : Option Word) (note : CpTransfer) : State :=
  { (match wb with
      | some v => t.setReg rn v
      | none => t) with
    cpLog := note :: s.cpLog
    draws := s.draws + 1
    pc := s.pc + 4#32 }

/-- How many registers of a list have a number below i: the rank of Ri in the block (R262). -/
def rankIn (list : BitVec 16) (i : Nat) : Nat := ((List.range i).filter fun k => list.getLsbD k).length

/-- The lowest address of the block of an LDM or STM in a state (R261). -/
def lsmStart (s : State) (before up : Bool) (rn : Reg) (list : BitVec 16) : Word :=
  blockStart before up (s.reg rn) (countOf list)

/-- The address of register i's word in the block (R262). -/
def lsmAddress (s : State) (before up : Bool) (rn : Reg) (list : BitVec 16) (i : Reg) : Word :=
  wordAddr (lsmStart s before up rn list) (rankIn list i.toNat)

/-- The block lies below 2^32, is aligned, and every word of it is mapped (R71, R64, R69). -/
def BlockAdmitted (s : State) (kind : AccessKind) (start : Word) (n : Nat) : Prop :=
  start.toNat + 4 * n ≤ 2 ^ 32 ∧ start.toNat % 4 = 0 ∧ ∀ j, j < n → mapped s.cfg kind (wordAddr start j).toNat 4 = true

end Sys2Proof.Machine

namespace Sys2Proof

open Sys2Proof.Machine

/-! ### What the tables say of an instruction -/

/-- The condition of an instruction; the reserved rows have none. -/
def Instr.condition? : Instr → Option Cond
  | .movImm c .. | .movShiftImm c .. | .movShiftReg c .. | .addImm c .. | .addShiftImm c .. | .addShiftReg c ..
  | .cmpImm c .. | .cmpShiftImm c .. | .cmpShiftReg c .. | .andDp c .. | .eorDp c .. | .subDp c .. | .rsbDp c ..
  | .adcDp c .. | .sbcDp c .. | .rscDp c .. | .tstDp c .. | .teqDp c .. | .cmnDp c .. | .orrDp c .. | .bicDp c ..
  | .mvnDp c .. | .ldrImm c .. | .ldrReg c .. | .strImm c .. | .strReg c .. | .ldrbImm c .. | .ldrbReg c ..
  | .strbImm c .. | .strbReg c .. | .ldrhImm c .. | .ldrhReg c .. | .ldrsbImm c .. | .ldrsbReg c ..
  | .ldrshImm c .. | .ldrshReg c .. | .strhImm c .. | .strhReg c .. | .ldm c .. | .stm c .. | .ldcOffset c ..
  | .ldcPre c .. | .ldcPost c .. | .ldcUnindexed c .. | .stcOffset c .. | .stcPre c .. | .stcPost c ..
  | .stcUnindexed c .. => some c
  | .undefinedCond1111 .. | .undefinedLsRegBit4 .. | .undefinedSignedStore .. | .refusedBranchClass ..
  | .refusedClass111 .. | .refusedMulSwapSpace .. => none

/-- The indexing form of a single Load/Store. -/
def Instr.indexing? : Instr → Option Indexing
  | .ldrImm _ ix .. | .ldrReg _ ix .. | .strImm _ ix .. | .strReg _ ix .. | .ldrbImm _ ix .. | .ldrbReg _ ix ..
  | .strbImm _ ix .. | .strbReg _ ix .. | .ldrhImm _ ix .. | .ldrhReg _ ix .. | .ldrsbImm _ ix .. | .ldrsbReg _ ix ..
  | .ldrshImm _ ix .. | .ldrshReg _ ix .. | .strhImm _ ix .. | .strhReg _ ix .. => some ix
  | .movImm .. | .movShiftImm .. | .movShiftReg .. | .addImm .. | .addShiftImm .. | .addShiftReg .. | .cmpImm ..
  | .cmpShiftImm .. | .cmpShiftReg .. | .andDp .. | .eorDp .. | .subDp .. | .rsbDp .. | .adcDp .. | .sbcDp ..
  | .rscDp .. | .tstDp .. | .teqDp .. | .cmnDp .. | .orrDp .. | .bicDp .. | .mvnDp .. | .ldm .. | .stm ..
  | .ldcOffset .. | .ldcPre .. | .ldcPost .. | .ldcUnindexed .. | .stcOffset .. | .stcPre .. | .stcPost ..
  | .stcUnindexed .. | .undefinedCond1111 .. | .undefinedLsRegBit4 .. | .undefinedSignedStore ..
  | .refusedBranchClass .. | .refusedClass111 .. | .refusedMulSwapSpace .. => none

/-- The coprocessor a coprocessor Load/Store names. -/
def Instr.coprocessor? : Instr → Option (BitVec 4)
  | .ldcOffset _ _ _ _ _ cp _ | .ldcPre _ _ _ _ _ cp _ | .ldcPost _ _ _ _ _ cp _ | .ldcUnindexed _ _ _ _ _ cp _
  | .stcOffset _ _ _ _ _ cp _ | .stcPre _ _ _ _ _ cp _ | .stcPost _ _ _ _ _ cp _ | .stcUnindexed _ _ _ _ _ cp _ =>
    some cp
  | .movImm .. | .movShiftImm .. | .movShiftReg .. | .addImm .. | .addShiftImm .. | .addShiftReg .. | .cmpImm ..
  | .cmpShiftImm .. | .cmpShiftReg .. | .andDp .. | .eorDp .. | .subDp .. | .rsbDp .. | .adcDp .. | .sbcDp ..
  | .rscDp .. | .tstDp .. | .teqDp .. | .cmnDp .. | .orrDp .. | .bicDp .. | .mvnDp .. | .ldrImm .. | .ldrReg ..
  | .strImm .. | .strReg .. | .ldrbImm .. | .ldrbReg .. | .strbImm .. | .strbReg .. | .ldrhImm .. | .ldrhReg ..
  | .ldrsbImm .. | .ldrsbReg .. | .ldrshImm .. | .ldrshReg .. | .strhImm .. | .strhReg .. | .ldm .. | .stm ..
  | .undefinedCond1111 .. | .undefinedLsRegBit4 .. | .undefinedSignedStore .. | .refusedBranchClass ..
  | .refusedClass111 .. | .refusedMulSwapSpace .. => none

/-- The checks on the word alone that no condition suppresses: an unlisted indexing form only where `P0W0` admits it,
and a coprocessor that is present (R333 step 2). -/
def Instr.AdmittedBy (cfg : Config) (i : Instr) : Prop :=
  (i.indexing? = some .unlisted → cfg.p0w0 = .postindexWriteback) ∧
    ∀ cp, i.coprocessor? = some cp → cfg.coprocs.contains cp = true

/-- What a data-processing instruction may write: Rd, or nothing for a compare, and whether its S bit is 1. -/
def Instr.dpWrites? : Instr → Option (Option Reg × Bool)
  | .movImm _ s rd .. | .movShiftImm _ s rd .. | .movShiftReg _ s rd .. | .addImm _ s _ rd .. | .addShiftImm _ s _ rd ..
  | .addShiftReg _ s _ rd .. | .andDp _ s _ rd _ | .eorDp _ s _ rd _ | .subDp _ s _ rd _ | .rsbDp _ s _ rd _
  | .adcDp _ s _ rd _ | .sbcDp _ s _ rd _ | .rscDp _ s _ rd _ | .orrDp _ s _ rd _ | .bicDp _ s _ rd _
  | .mvnDp _ s _ rd _ => some (some rd, s)
  | .cmpImm .. | .cmpShiftImm .. | .cmpShiftReg .. | .tstDp .. | .teqDp .. | .cmnDp .. => some (none, true)
  | .ldrImm .. | .ldrReg .. | .strImm .. | .strReg .. | .ldrbImm .. | .ldrbReg .. | .strbImm .. | .strbReg ..
  | .ldrhImm .. | .ldrhReg .. | .ldrsbImm .. | .ldrsbReg .. | .ldrshImm .. | .ldrshReg .. | .strhImm .. | .strhReg ..
  | .ldm .. | .stm .. | .ldcOffset .. | .ldcPre .. | .ldcPost .. | .ldcUnindexed .. | .stcOffset .. | .stcPre ..
  | .stcPost .. | .stcUnindexed .. | .undefinedCond1111 .. | .undefinedLsRegBit4 .. | .undefinedSignedStore ..
  | .refusedBranchClass .. | .refusedClass111 .. | .refusedMulSwapSpace .. => none

/-- A single Load/Store as the statements see it. -/
structure SingleTransfer where
  load : Bool
  bytes : Nat
  ix : Indexing
  up : Bool
  rn : Reg
  rd : Reg
  offset : Offset
  deriving DecidableEq, Repr

/-- The source's restrictions on an index register do not apply: it is neither the PC nor Rn (R191, R231). -/
def SingleTransfer.IndexAllowed (x : SingleTransfer) : Prop :=
  ∀ amount ty rm, x.offset = .scaled amount ty rm → rm ≠ Reg.pc ∧ rm ≠ x.rn

/-- The parts of a single Load/Store: L, the width, the indexing form, U, Rn, Rd and the offset (R102, R107). -/
def Instr.single? : Instr → Option SingleTransfer
  | .ldrImm _ ix u rn rd o => some ⟨true, 4, ix, u, rn, rd, .imm (o.setWidth 32)⟩
  | .ldrReg _ ix u rn rd a t m => some ⟨true, 4, ix, u, rn, rd, .scaled a t m⟩
  | .strImm _ ix u rn rd o => some ⟨false, 4, ix, u, rn, rd, .imm (o.setWidth 32)⟩
  | .strReg _ ix u rn rd a t m => some ⟨false, 4, ix, u, rn, rd, .scaled a t m⟩
  | .ldrbImm _ ix u rn rd o => some ⟨true, 1, ix, u, rn, rd, .imm (o.setWidth 32)⟩
  | .ldrbReg _ ix u rn rd a t m => some ⟨true, 1, ix, u, rn, rd, .scaled a t m⟩
  | .strbImm _ ix u rn rd o => some ⟨false, 1, ix, u, rn, rd, .imm (o.setWidth 32)⟩
  | .strbReg _ ix u rn rd a t m => some ⟨false, 1, ix, u, rn, rd, .scaled a t m⟩
  | .ldrhImm _ ix u rn rd h l => some ⟨true, 2, ix, u, rn, rd, .imm ((h ++ l).setWidth 32)⟩
  | .ldrhReg _ ix u rn rd m => some ⟨true, 2, ix, u, rn, rd, .scaled 0#5 .lsl m⟩
  | .ldrsbImm _ ix u rn rd h l => some ⟨true, 1, ix, u, rn, rd, .imm ((h ++ l).setWidth 32)⟩
  | .ldrsbReg _ ix u rn rd m => some ⟨true, 1, ix, u, rn, rd, .scaled 0#5 .lsl m⟩
  | .ldrshImm _ ix u rn rd h l => some ⟨true, 2, ix, u, rn, rd, .imm ((h ++ l).setWidth 32)⟩
  | .ldrshReg _ ix u rn rd m => some ⟨true, 2, ix, u, rn, rd, .scaled 0#5 .lsl m⟩
  | .strhImm _ ix u rn rd h l => some ⟨false, 2, ix, u, rn, rd, .imm ((h ++ l).setWidth 32)⟩
  | .strhReg _ ix u rn rd m => some ⟨false, 2, ix, u, rn, rd, .scaled 0#5 .lsl m⟩
  | .movImm .. | .movShiftImm .. | .movShiftReg .. | .addImm .. | .addShiftImm .. | .addShiftReg .. | .cmpImm ..
  | .cmpShiftImm .. | .cmpShiftReg .. | .andDp .. | .eorDp .. | .subDp .. | .rsbDp .. | .adcDp .. | .sbcDp ..
  | .rscDp .. | .tstDp .. | .teqDp .. | .cmnDp .. | .orrDp .. | .bicDp .. | .mvnDp .. | .ldm .. | .stm ..
  | .ldcOffset .. | .ldcPre .. | .ldcPost .. | .ldcUnindexed .. | .stcOffset .. | .stcPre .. | .stcPost ..
  | .stcUnindexed .. | .undefinedCond1111 .. | .undefinedLsRegBit4 .. | .undefinedSignedStore ..
  | .refusedBranchClass .. | .refusedClass111 .. | .refusedMulSwapSpace .. => none

/-- A coprocessor Load/Store as the statements see it; `ix = .unlisted` is the unindexed form. -/
structure CpAccess where
  load : Bool
  n : Bool
  ix : Indexing
  up : Bool
  rn : Reg
  crd : Reg
  cp : BitVec 4
  low : BitVec 8
  deriving DecidableEq, Repr

/-- The parts of a coprocessor Load/Store (R114, R115). -/
def Instr.cpAccess? : Instr → Option CpAccess
  | .ldcOffset _ u n rn crd cp o => some ⟨true, n, .offset, u, rn, crd, cp, o⟩
  | .ldcPre _ u n rn crd cp o => some ⟨true, n, .preIndexed, u, rn, crd, cp, o⟩
  | .ldcPost _ u n rn crd cp o => some ⟨true, n, .postIndexed, u, rn, crd, cp, o⟩
  | .ldcUnindexed _ u n rn crd cp o => some ⟨true, n, .unlisted, u, rn, crd, cp, o⟩
  | .stcOffset _ u n rn crd cp o => some ⟨false, n, .offset, u, rn, crd, cp, o⟩
  | .stcPre _ u n rn crd cp o => some ⟨false, n, .preIndexed, u, rn, crd, cp, o⟩
  | .stcPost _ u n rn crd cp o => some ⟨false, n, .postIndexed, u, rn, crd, cp, o⟩
  | .stcUnindexed _ u n rn crd cp o => some ⟨false, n, .unlisted, u, rn, crd, cp, o⟩
  | .movImm .. | .movShiftImm .. | .movShiftReg .. | .addImm .. | .addShiftImm .. | .addShiftReg .. | .cmpImm ..
  | .cmpShiftImm .. | .cmpShiftReg .. | .andDp .. | .eorDp .. | .subDp .. | .rsbDp .. | .adcDp .. | .sbcDp ..
  | .rscDp .. | .tstDp .. | .teqDp .. | .cmnDp .. | .orrDp .. | .bicDp .. | .mvnDp .. | .ldrImm .. | .ldrReg ..
  | .strImm .. | .strReg .. | .ldrbImm .. | .ldrbReg .. | .strbImm .. | .strbReg .. | .ldrhImm .. | .ldrhReg ..
  | .ldrsbImm .. | .ldrsbReg .. | .ldrshImm .. | .ldrshReg .. | .strhImm .. | .strhReg .. | .ldm .. | .stm ..
  | .undefinedCond1111 .. | .undefinedLsRegBit4 .. | .undefinedSignedStore .. | .refusedBranchClass ..
  | .refusedClass111 .. | .refusedMulSwapSpace .. => none

/-- The byte offset of an indexed coprocessor form (R301). -/
def CpAccess.byteOffset (a : CpAccess) : Word := BitVec.ofNat 32 (4 * a.low.toNat)

/-- The first address of a coprocessor transfer: the indexed base where P = 1, else the base (R301, R302). -/
def CpAccess.first (a : CpAccess) (base : Word) : Word :=
  if a.ix.p then indexedBase a.up base a.byteOffset else base

/-- The written-back base of a coprocessor transfer, where W = 1 (R301, R306). -/
def CpAccess.writeBack (a : CpAccess) (base : Word) : Option Word :=
  if a.ix.w then some (indexedBase a.up base a.byteOffset) else none

/-- The byte handed to the coprocessor: that of the unindexed form (R302). -/
def CpAccess.userByte (a : CpAccess) : Option (BitVec 8) := if a.ix = .unlisted then some a.low else none

/-- A data-processing word with a form 4 operand: `instr[27:25] = 000`, bit 7 = 0, bit 4 = 1 (R99). -/
def isFormFour (w : Word) : Prop := w &&& 0x0E000090#32 = 0x00000010#32

/-- A data-processing word with a form 1, 2, 3 or 5 operand (R96 to R98, R100). -/
def isOtherForm (w : Word) : Prop :=
  w &&& 0x0E000000#32 = 0x02000000#32 ∨ w &&& 0x0E000010#32 = 0x00000000#32

end Sys2Proof
end

