-- ==== Sys2Proof/Certificates/Slice0/Obligations.lean ====
section
/-! DEFINITION. The statements for the provers, family by family: encoding, the step, the second operand, data processing,
single Load/Store, multiple Load/Store, coprocessor Load/Store, and the whole machine. -/

open Sys2Proof Sys2Proof.Machine

/-! ### Encoding -/

/-- Decode and encode agree: the word of every well-formed instruction decodes to it (R123). -/
def Obligations.DecodeOfEncode : Prop := ∀ i : Instr, i.wf = true → decode (encode i) = .ok i

/-- Every word that decodes is the word of the instruction it decodes to, which is well formed (R123). -/
def Obligations.EncodeOfDecode : Prop := ∀ (w : Word) (i : Instr), decode w = .ok i → i.wf = true ∧ encode i = w

/-- The words of six assembly examples, one per family, written out from the format tables (R197 and
95_test_vectors.md). The source prints the assembly and no machine word: the opcode numbers 1101 and 0100 of the first
two are passage G1 (log 17), that H = 1 is the halfword in the fourth is passage G8 (log 19), and the name LDC of the last
is passage G10 (log 29). -/
def Obligations.ExampleWordsDecode : Prop :=
  decode 0xE3A00D3F#32 = .ok (.movImm .al false 0#4 13#4 0x3F#8) ∧
  decode 0x029210AB#32 = .ok (.addImm .eq true 2#4 1#4 0#4 0xAB#8) ∧
  decode 0xE7B10102#32 = .ok (.ldrReg .al .preIndexed true 1#4 0#4 2#5 .lsl 2#4) ∧
  decode 0xE0F100F4#32 = .ok (.ldrshImm .al .postIndexed true 1#4 0#4 0#4 4#4) ∧
  decode 0xE9200C3E#32 = .ok (.stm .al true false false true 0#4 0x0C3E#16) ∧
  decode 0xED913502#32 = .ok (.ldcOffset .al true false 1#4 3#4 5#4 2#8)

/-- The decoder refuses exactly the words R117 lists beyond the reserved rows: a MOV with a non-zero Rn field, a CMP
with a non-zero Rd field, the opcodes 1000 to 1011 with S = 0, and a halfword register form with non-zero bits 11:8. -/
def Obligations.DecoderRefusalsAreThoseListed : Prop :=
  ∀ w : Word, w &&& 0xF0000000#32 ≠ 0xF0000000#32 →
    (decode w = .error .movRnNotZero ↔
      (isFormFour w ∨ isOtherForm w) ∧ w &&& 0x01E00000#32 = 0x01A00000#32 ∧ w &&& 0x000F0000#32 ≠ 0#32) ∧
    (decode w = .error .cmpRdNotZero ↔
      (isFormFour w ∨ isOtherForm w) ∧ w &&& 0x01F00000#32 = 0x01500000#32 ∧ w &&& 0x0000F000#32 ≠ 0#32) ∧
    (decode w = .error .compareWithoutS ↔
      (isFormFour w ∨ isOtherForm w) ∧ w &&& 0x01900000#32 = 0x01000000#32) ∧
    (decode w = .error .halfwordBits11To8 ↔
      w &&& 0x0E400090#32 = 0x00000090#32 ∧ w &&& 0x00000060#32 ≠ 0#32 ∧
        w &&& 0x00100040#32 ≠ 0x00000040#32 ∧ w &&& 0x00000F00#32 ≠ 0#32)

/-- The halfword class with L = 0 and S = 1 is `UndefinedEncoding`, whatever the flags (R228). -/
def Obligations.SignedStoreIsUndefined : Prop :=
  ∀ w : Word, w &&& 0xF0000000#32 ≠ 0xF0000000#32 → w &&& 0x0E1000D0#32 = 0x000000D0#32 →
    decode w = .ok (.undefinedSignedStore w) ∧
      ∀ s, exec (.undefinedSignedStore w) s = .fault (.undefinedEncoding .signedStore w)

/-- The other reserved words: cond = 1111 and a word or byte Load/Store with I = 1 and bit 4 = 1 are
`UndefinedEncoding`; the branch class, the class 111 and the multiply and swap space are refused by name; each whatever
the flags (R132, R195, R117, R229; decisions D6, D28, D32). -/
def Obligations.ReservedWordsStop : Prop :=
  ∀ w : Word,
    (w &&& 0xF0000000#32 = 0xF0000000#32 →
      decode w = .ok (.undefinedCond1111 w) ∧
        ∀ s, exec (.undefinedCond1111 w) s = .fault (.undefinedEncoding .cond1111 w)) ∧
    (w &&& 0xF0000000#32 ≠ 0xF0000000#32 →
      (w &&& 0x0E000010#32 = 0x06000010#32 →
        decode w = .ok (.undefinedLsRegBit4 w) ∧
          ∀ s, exec (.undefinedLsRegBit4 w) s = .fault (.undefinedEncoding .registerOffsetBit4 w)) ∧
      (w &&& 0x0E000000#32 = 0x0A000000#32 →
        decode w = .ok (.refusedBranchClass w) ∧ ∀ s, exec (.refusedBranchClass w) s = .refused (.branchClass w)) ∧
      (w &&& 0x0E000000#32 = 0x0E000000#32 →
        decode w = .ok (.refusedClass111 w) ∧ ∀ s, exec (.refusedClass111 w) s = .refused (.class111 w)) ∧
      (w &&& 0x0E0000F0#32 = 0x00000090#32 →
        decode w = .ok (.refusedMulSwapSpace w) ∧ ∀ s, exec (.refusedMulSwapSpace w) s = .refused (.mulSwapSpace w)))

/-! ### The step -/

/-- A step runs the decoded instruction: where the run has not ended, the pc is aligned and mapped for fetch, and the
four bytes at it, under the byte order, decode to `i`, the step is `i`'s execution (R78, R333). -/
def Obligations.StepRunsDecodedInstruction : Prop :=
  ∀ (s : State) (i : Instr), halted s = false → s.pc.toNat % 4 = 0 → mapped s.cfg .fetch s.pc.toNat 4 = true →
    decode (s.load s.pc 4) = .ok i → step s = exec i s

/-- What stops a step before any instruction: `HALT`, an unaligned pc, an unmapped pc, a word of no row, in that order
(R367, R36, R69, R333 steps 1 and 2). R367 says that the run ends where `HALT` holds; that the predicate stands in the
configuration and that the step answers the refusal `halted` there is the model's choice (log 13). -/
def Obligations.FetchStopsInOrder : Prop :=
  ∀ s : State,
    (halted s = true → step s = .refused .halted) ∧
    (halted s = false →
      (s.pc.toNat % 4 ≠ 0 → step s = .refused .pcNotAligned) ∧
      (s.pc.toNat % 4 = 0 →
        (mapped s.cfg .fetch s.pc.toNat 4 = false → step s = .fault (.unmapped s.pc 4)) ∧
        (mapped s.cfg .fetch s.pc.toNat 4 = true →
          ∀ e, decode (s.load s.pc 4) = .error e → step s = .refused (decodeRefusal e (s.load s.pc 4)))))

/-- A word stored for the next fetch is the word fetched, and the state but for its four bytes is untouched (R78).
That a program is placed so is the model's choice (log 16). -/
def Obligations.StoredWordIsFetched : Prop :=
  ∀ (s : State) (w : Word),
    fetchedWord (s.withFetchWord 32 w.toNat) = w ∧ SameMemoryOutside s.pc 4 s (s.withFetchWord 32 w.toNat) ∧
      s.withFetchWord 32 w.toNat = { s with mem := (s.withFetchWord 32 w.toNat).mem }

/-- `ConditionPassed` is Table 3-2 (R130), and each odd row from 0001 to 1101 is the negation of the even row before it,
which R130 marks as its own inference (derived, by inspection of the flag tests). -/
def Obligations.ConditionTable : Prop :=
  ∀ p : Psr,
    (conditionPassed .eq p = true ↔ p.z = true) ∧ (conditionPassed .ne p = true ↔ p.z = false) ∧
    (conditionPassed .cs p = true ↔ p.c = true) ∧ (conditionPassed .cc p = true ↔ p.c = false) ∧
    (conditionPassed .mi p = true ↔ p.n = true) ∧ (conditionPassed .pl p = true ↔ p.n = false) ∧
    (conditionPassed .vs p = true ↔ p.v = true) ∧ (conditionPassed .vc p = true ↔ p.v = false) ∧
    (conditionPassed .hi p = true ↔ p.c = true ∧ p.z = false) ∧
    (conditionPassed .ls p = true ↔ p.c = false ∨ p.z = true) ∧
    (conditionPassed .ge p = true ↔ p.n = p.v) ∧ (conditionPassed .lt p = true ↔ p.n ≠ p.v) ∧
    (conditionPassed .gt p = true ↔ p.z = false ∧ p.n = p.v) ∧
    (conditionPassed .le p = true ↔ p.z = true ∨ p.n ≠ p.v) ∧
    conditionPassed .al p = true ∧
    (∀ c d : Cond, c.code.toNat % 2 = 0 → c.code.toNat < 14 → d.code.toNat = c.code.toNat + 1 →
      conditionPassed d p = !conditionPassed c p)

/-- An instruction whose condition fails only moves the pc on, whatever its operands, where the checks on the word alone
admit it; it is refused where `pc + 4` passes 2^32 (R131, decision D7; R36, decision D4). -/
def Obligations.FailedConditionOnlyAdvances : Prop :=
  ∀ (s : State) (i : Instr) (c : Cond), i.condition? = some c → i.AdmittedBy s.cfg → conditionPassed c s.cpsr = false →
    (s.CanAdvance → exec i s = .next { s with pc := s.pc + 4#32 }) ∧
    (¬ s.CanAdvance → exec i s = .refused .pcPassesTop)

/-! ### The second operand -/

/-- The immediate operand: the 8-bit constant rotated right in 32 bits by twice the 4-bit field (R141, R13), and the
carry-out of its general-knowledge passage (G3, log 18). -/
def Obligations.ImmediateOperandValue : Prop :=
  ∀ (s : State) (r : BitVec 4) (i : BitVec 8), ∃ v co,
    evalOperand2 s (.imm r i) = .ok (v, co) ∧
    v.toNat = i.toNat / 2 ^ (2 * r.toNat) + i.toNat % 2 ^ (2 * r.toNat) * 2 ^ (32 - 2 * r.toNat) ∧
    (r = 0#4 → co = s.cpsr.c) ∧ (r ≠ 0#4 → co = v.getLsbD 31)

/-- A register shifted by the 5-bit field (R142 to R146, R13): LSL by 0 to 31, LSR and ASR by 1 to 32 with 0 for 32, ROR
by 1 to 31, each with the carry-out of the rule's general-knowledge passage (G3, log 18). -/
def Obligations.ShiftByImmediateValue : Prop :=
  ∀ (s : State) (rm : Reg) (x : Word) (amount : BitVec 5), readReg s rm = .ok x →
    (∃ v co, evalOperand2 s (.shiftImm amount .lsl rm) = .ok (v, co) ∧
      v.toNat = x.toNat * 2 ^ amount.toNat % 2 ^ 32 ∧
      (amount = 0#5 → co = s.cpsr.c) ∧ (amount ≠ 0#5 → co = x.getLsbD (32 - amount.toNat))) ∧
    (∃ v co, evalOperand2 s (.shiftImm amount .lsr rm) = .ok (v, co) ∧
      (amount = 0#5 → v = 0#32 ∧ co = x.getLsbD 31) ∧
      (amount ≠ 0#5 → v.toNat = x.toNat / 2 ^ amount.toNat ∧ co = x.getLsbD (amount.toNat - 1))) ∧
    (∃ v co, evalOperand2 s (.shiftImm amount .asr rm) = .ok (v, co) ∧
      (amount = 0#5 → v = (if x.getLsbD 31 then 0xFFFFFFFF#32 else 0#32) ∧ co = x.getLsbD 31) ∧
      (amount ≠ 0#5 → v.toInt = x.toInt / 2 ^ amount.toNat ∧ co = x.getLsbD (amount.toNat - 1))) ∧
    (amount ≠ 0#5 → ∃ v co, evalOperand2 s (.shiftImm amount .ror rm) = .ok (v, co) ∧
      v.toNat = x.toNat / 2 ^ amount.toNat + x.toNat % 2 ^ amount.toNat * 2 ^ (32 - amount.toNat) ∧
      co = x.getLsbD (amount.toNat - 1))

/-- A register shifted by the low byte of Rs (R147 to R150, R13): amount 0 is no shift; 32 and above by the formulas. The
carry-outs are those of the general-knowledge passages (G3, log 18). -/
def Obligations.ShiftByRegisterValue : Prop :=
  ∀ (s : State) (rm rs : Reg) (x y : Word) (n : Nat), readReg s rm = .ok x → readReg s rs = .ok y → n = y.toNat % 256 →
    (n = 0 → ∀ ty, evalOperand2 s (.shiftReg rs ty rm) = .ok (x, s.cpsr.c)) ∧
    (n ≠ 0 →
      (∃ v co, evalOperand2 s (.shiftReg rs .lsl rm) = .ok (v, co) ∧ v.toNat = x.toNat * 2 ^ n % 2 ^ 32 ∧
        (n ≤ 32 → co = x.getLsbD (32 - n)) ∧ (32 < n → co = false)) ∧
      (∃ v co, evalOperand2 s (.shiftReg rs .lsr rm) = .ok (v, co) ∧ v.toNat = x.toNat / 2 ^ n ∧
        (n ≤ 32 → co = x.getLsbD (n - 1)) ∧ (32 < n → co = false)) ∧
      (∃ v co, evalOperand2 s (.shiftReg rs .asr rm) = .ok (v, co) ∧ v.toInt = x.toInt / 2 ^ n ∧
        (n ≤ 31 → co = x.getLsbD (n - 1)) ∧ (31 < n → co = x.getLsbD 31)) ∧
      (∃ v co, evalOperand2 s (.shiftReg rs .ror rm) = .ok (v, co) ∧
        v.toNat = x.toNat / 2 ^ (n % 32) + x.toNat % 2 ^ (n % 32) * 2 ^ (32 - n % 32) % 2 ^ 32 ∧
        (n % 32 = 0 → co = x.getLsbD 31) ∧ (n % 32 ≠ 0 → co = x.getLsbD (n % 32 - 1))))

/-- RRX: Rm rotated right with extend by one place, the vacated bit the C flag, and the bit shifted out as carry-out
(R151). That a MOV with S = 1 writes that bit to C is not R151's: it is R152 with decision D8, where the class of MOV is
general knowledge (log 18, 31). -/
def Obligations.RotateWithExtendValue : Prop :=
  ∀ (s : State) (rm : Reg) (x : Word), readReg s rm = .ok x →
    (∃ v, evalOperand2 s (.shiftImm 0#5 .ror rm) = .ok (v, x.getLsbD 0) ∧
      v.toNat = (if s.cpsr.c then 2 ^ 31 else 0) + x.toNat / 2) ∧
    ∀ (c : Cond) (rd : Reg), conditionPassed c s.cpsr = true → rd ≠ Reg.pc → s.CanAdvance →
      ∃ t, exec (.movShiftImm c true rd 0#5 .ror rm) s = .next t ∧ t.cpsr.c = x.getLsbD 0

/-! ### Data processing -/

/-- Reading a register as an operand: R0 to R14 from the physical registers of the current mode, R15 as
`pc + PC_READ_OFFSET`, or a refusal where that parameter is not instantiated (R10, R33, R35, decision D5). -/
def Obligations.OperandReadOfRegisters : Prop :=
  ∀ (s : State) (i : Reg),
    (i ≠ Reg.pc → readReg s i = .ok (s.phys (s.home i))) ∧
    (∀ k, s.cfg.pcReadOffset = some k → readReg s Reg.pc = .ok (s.pc + BitVec.ofNat 32 k)) ∧
    (s.cfg.pcReadOffset = none → readReg s Reg.pc = .error (.refused .r15Read))

/-- MOV in its three rows, MVN, AND, EOR, ORR and BIC complete with operand 2, its complement, or the bitwise result in Rd;
where S = 1 with N and Z of the result, C from the shifter and V kept (R155, R158, R159). The operations of the optional
rows and the flags are general-knowledge passages (G1, G2; log 17, 18); that MVN runs for every value of its unused Rn
field is deduced (log 20). -/
def Obligations.LogicalResults : Prop :=
  ∀ (s : State) (c : Cond) (sf : Bool) (rd : Reg) (v : Word) (co : Bool),
    conditionPassed c s.cpsr = true → rd ≠ Reg.pc → s.CanAdvance →
    (∀ r i, evalOperand2 s (.imm r i) = .ok (v, co) →
      exec (.movImm c sf rd r i) s = .next (afterDp s (some rd) sf v co s.cpsr.v)) ∧
    (∀ a ty rm, evalOperand2 s (.shiftImm a ty rm) = .ok (v, co) →
      exec (.movShiftImm c sf rd a ty rm) s = .next (afterDp s (some rd) sf v co s.cpsr.v)) ∧
    (∀ rs ty rm, rs ≠ Reg.pc → rm ≠ Reg.pc → evalOperand2 s (.shiftReg rs ty rm) = .ok (v, co) →
      exec (.movShiftReg c sf rd rs ty rm) s = .next (afterDp s (some rd) sf v co s.cpsr.v)) ∧
    (∀ sbz op2, r15InRegisterShift op2 sbz rd = false → evalOperand2 s op2 = .ok (v, co) →
      exec (.mvnDp c sf sbz rd op2) s = .next (afterDp s (some rd) sf (~~~v) co s.cpsr.v)) ∧
    (∀ rn op2 a, r15InRegisterShift op2 rn rd = false → readReg s rn = .ok a → evalOperand2 s op2 = .ok (v, co) →
      exec (.andDp c sf rn rd op2) s = .next (afterDp s (some rd) sf (a &&& v) co s.cpsr.v) ∧
      exec (.eorDp c sf rn rd op2) s = .next (afterDp s (some rd) sf (a ^^^ v) co s.cpsr.v) ∧
      exec (.orrDp c sf rn rd op2) s = .next (afterDp s (some rd) sf (a ||| v) co s.cpsr.v) ∧
      exec (.bicDp c sf rn rd op2) s = .next (afterDp s (some rd) sf (a &&& ~~~v) co s.cpsr.v))

/-- ADD, in its three rows, completes with the sum modulo 2^32 in Rd; where S = 1 with C the carry out of the unsigned
sum and V by the operands' and the result's signs (R156; the flags are passage G2, log 18). -/
def Obligations.AddResults : Prop :=
  ∀ (s : State) (c : Cond) (sf : Bool) (rn rd : Reg) (a v : Word) (co : Bool),
    conditionPassed c s.cpsr = true → rd ≠ Reg.pc → readReg s rn = .ok a → s.CanAdvance →
    (∀ r i, evalOperand2 s (.imm r i) = .ok (v, co) →
      exec (.addImm c sf rn rd r i) s =
        .next (afterDp s (some rd) sf (a + v) (decide (2 ^ 32 ≤ a.toNat + v.toNat)) (sumOverflow a v (a + v)))) ∧
    (∀ k ty rm, evalOperand2 s (.shiftImm k ty rm) = .ok (v, co) →
      exec (.addShiftImm c sf rn rd k ty rm) s =
        .next (afterDp s (some rd) sf (a + v) (decide (2 ^ 32 ≤ a.toNat + v.toNat)) (sumOverflow a v (a + v)))) ∧
    (∀ rs ty rm, rn ≠ Reg.pc → rs ≠ Reg.pc → rm ≠ Reg.pc → evalOperand2 s (.shiftReg rs ty rm) = .ok (v, co) →
      exec (.addShiftReg c sf rn rd rs ty rm) s =
        .next (afterDp s (some rd) sf (a + v) (decide (2 ^ 32 ≤ a.toNat + v.toNat)) (sumOverflow a v (a + v))))

/-- ADC, SUB, SBC, RSB and RSC complete with their sum or difference modulo 2^32 in Rd; where S = 1 with C the carry out
or NOT borrow and V the signed overflow (R158, R159; passages G1, G2; log 17, 18). -/
def Obligations.ArithmeticResults : Prop :=
  ∀ (s : State) (c : Cond) (sf : Bool) (rn rd : Reg) (op2 : Operand2) (a v : Word) (co : Bool),
    conditionPassed c s.cpsr = true → r15InRegisterShift op2 rn rd = false → rd ≠ Reg.pc → readReg s rn = .ok a →
    evalOperand2 s op2 = .ok (v, co) → s.CanAdvance →
    let one : Word := if s.cpsr.c then 1#32 else 0#32
    let borrow : Word := if s.cpsr.c then 0#32 else 1#32
    exec (.adcDp c sf rn rd op2) s =
      .next (afterDp s (some rd) sf (a + v + one) (decide (2 ^ 32 ≤ a.toNat + v.toNat + one.toNat))
        (sumOverflow a v (a + v + one))) ∧
    exec (.subDp c sf rn rd op2) s =
      .next (afterDp s (some rd) sf (a - v) (decide (v.toNat ≤ a.toNat)) (differenceOverflow a v (a - v))) ∧
    exec (.sbcDp c sf rn rd op2) s =
      .next (afterDp s (some rd) sf (a - v - borrow) (decide (v.toNat + borrow.toNat ≤ a.toNat))
        (differenceOverflow a v (a - v - borrow))) ∧
    exec (.rsbDp c sf rn rd op2) s =
      .next (afterDp s (some rd) sf (v - a) (decide (a.toNat ≤ v.toNat)) (differenceOverflow v a (v - a))) ∧
    exec (.rscDp c sf rn rd op2) s =
      .next (afterDp s (some rd) sf (v - a - borrow) (decide (a.toNat + borrow.toNat ≤ v.toNat))
        (differenceOverflow v a (v - a - borrow)))

/-- CMP, in its three rows, completes with the flags of the difference and writes no register: C = 1 exactly where the
first operand is unsigned higher or same (R157; V is passage G2, log 18). -/
def Obligations.CompareResults : Prop :=
  ∀ (s : State) (c : Cond) (rn : Reg) (a v : Word) (co : Bool),
    conditionPassed c s.cpsr = true → readReg s rn = .ok a → s.CanAdvance →
    (∀ r i, evalOperand2 s (.imm r i) = .ok (v, co) →
      exec (.cmpImm c rn r i) s =
        .next (afterDp s none true (a - v) (decide (v.toNat ≤ a.toNat)) (differenceOverflow a v (a - v)))) ∧
    (∀ k ty rm, evalOperand2 s (.shiftImm k ty rm) = .ok (v, co) →
      exec (.cmpShiftImm c rn k ty rm) s =
        .next (afterDp s none true (a - v) (decide (v.toNat ≤ a.toNat)) (differenceOverflow a v (a - v)))) ∧
    (∀ rs ty rm, rn ≠ Reg.pc → rs ≠ Reg.pc → rm ≠ Reg.pc → evalOperand2 s (.shiftReg rs ty rm) = .ok (v, co) →
      exec (.cmpShiftReg c rn rs ty rm) s =
        .next (afterDp s none true (a - v) (decide (v.toNat ≤ a.toNat)) (differenceOverflow a v (a - v))))

/-- CMN, TST and TEQ complete with the flags of the sum, of the AND and of the exclusive OR, and write no register
(R158, R159; passages G1, G2; log 17, 18). That TST, TEQ and CMN run for every value of their unused Rd field is deduced
(log 20). -/
def Obligations.TestResults : Prop :=
  ∀ (s : State) (c : Cond) (rn sbz : Reg) (op2 : Operand2) (a v : Word) (co : Bool),
    conditionPassed c s.cpsr = true → r15InRegisterShift op2 rn sbz = false → readReg s rn = .ok a →
    evalOperand2 s op2 = .ok (v, co) → s.CanAdvance →
    exec (.cmnDp c rn sbz op2) s =
      .next (afterDp s none true (a + v) (decide (2 ^ 32 ≤ a.toNat + v.toNat)) (sumOverflow a v (a + v))) ∧
    exec (.tstDp c rn sbz op2) s = .next (afterDp s none true (a &&& v) co s.cpsr.v) ∧
    exec (.teqDp c rn sbz op2) s = .next (afterDp s none true (a ^^^ v) co s.cpsr.v)

/-- The frame of every data-processing instruction: no register but Rd of the current mode (none for a compare), no flag
where S = 0, never the mode; no memory, no SPSR, no coprocessor. -/
def Obligations.DataProcessingFrame : Prop :=
  ∀ (s t : State) (i : Instr) (dest : Option Reg) (sf : Bool), i.dpWrites? = some (dest, sf) → exec i s = .next t →
    SameRegistersBut (fun k => ∃ r, dest = some r ∧ k = s.home r) s t ∧ (sf = false → t.cpsr = s.cpsr) ∧
    t.cpsr.mode = s.cpsr.mode ∧ SameMemory s t ∧ SameSaved s t ∧ SameCoprocessors s t

/-- R15 as any of Rn, Rm, Rd, Rs of a register-shifted-by-register operand is unpredictable (R153): for every
data-processing word of form 4 one of whose four register fields is 15. -/
def Obligations.RegisterShiftOfR15IsUnpredictable : Prop :=
  ∀ (s : State) (w : Word) (i : Instr) (c : Cond), isFormFour w → decode w = .ok i → i.condition? = some c →
    conditionPassed c s.cpsr = true →
    field w 16 4 = Reg.pc ∨ field w 12 4 = Reg.pc ∨ field w 8 4 = Reg.pc ∨ field w 0 4 = Reg.pc →
    exec i s = .fault (.unpredictable .r15InRegisterShift)

/-- R15 as the destination of a data-processing instruction of another form that writes Rd is refused (R154, decision
D13): for every such word with Rd = 15 and an opcode outside 1000 to 1011. That those are the opcodes that write Rd is
R158's general-knowledge table (G1, log 17). -/
def Obligations.DestinationR15IsRefused : Prop :=
  ∀ (s : State) (w : Word) (i : Instr) (c : Cond), isOtherForm w → decode w = .ok i → i.condition? = some c →
    conditionPassed c s.cpsr = true → field w 12 4 = Reg.pc → w &&& 0x01800000#32 ≠ 0x01000000#32 →
    exec i s = .refused .r15Destination

/-! ### Single Load/Store -/

/-- The value of n bytes of memory and the bytes of a stored value, under each byte order (R62, decision D1). -/
def Obligations.BytesOfLoadsAndStores : Prop :=
  ∀ (s : State) (a : Word) (n : Nat), n = 1 ∨ n = 2 ∨ n = 4 →
    (s.cfg.endian = .little →
      (s.load a n).toNat = ((List.range n).map fun k => (s.byteAt (a.toNat + k)).toNat * 2 ^ (8 * k)).sum ∧
      ∀ v k, k < n → ((s.store a n v).byteAt (a.toNat + k)).toNat = v.toNat / 2 ^ (8 * k) % 256) ∧
    (s.cfg.endian = .big →
      (s.load a n).toNat = ((List.range n).map fun k => (s.byteAt (a.toNat + k)).toNat * 2 ^ (8 * (n - 1 - k))).sum ∧
      ∀ v k, k < n → ((s.store a n v).byteAt (a.toNat + k)).toNat = v.toNat / 2 ^ (8 * (n - 1 - k)) % 256)

/-- LDR and LDRB complete, in every indexing form and with either offset: the word, or the byte with zeros above it, at
the address of R184 in Rd, and the indexed base in Rn where the form writes back (R181 to R186, R188). -/
def Obligations.LoadWordAndByteComplete : Prop :=
  ∀ (s : State) (c : Cond) (ix : Indexing) (up : Bool) (rn rd : Reg) (base : Word),
    conditionPassed c s.cpsr = true → (ix = .unlisted → s.cfg.p0w0 = .postindexWriteback) → rd ≠ Reg.pc →
    (basesWritten ix = true → rd ≠ rn ∧ rn ≠ Reg.pc) → readReg s rn = .ok base → s.CanAdvance →
    (∀ (o : BitVec 12) (a : Word), a = addressOf ix up base (o.setWidth 32) →
      (a.toNat % 4 = 0 → mapped s.cfg .read a.toNat 4 = true →
        exec (.ldrImm c ix up rn rd o) s = .next (afterLoad s ix up rn rd base (o.setWidth 32) (s.load a 4))) ∧
      (mapped s.cfg .read a.toNat 1 = true →
        exec (.ldrbImm c ix up rn rd o) s =
          .next (afterLoad s ix up rn rd base (o.setWidth 32) ((s.byteAt a.toNat).setWidth 32)))) ∧
    (∀ (k : BitVec 5) (ty : ShiftType) (rm : Reg) (offset a : Word) (co : Bool), rm ≠ Reg.pc → rm ≠ rn →
      evalOperand2 s (.shiftImm k ty rm) = .ok (offset, co) → a = addressOf ix up base offset →
      (a.toNat % 4 = 0 → mapped s.cfg .read a.toNat 4 = true →
        exec (.ldrReg c ix up rn rd k ty rm) s = .next (afterLoad s ix up rn rd base offset (s.load a 4))) ∧
      (mapped s.cfg .read a.toNat 1 = true →
        exec (.ldrbReg c ix up rn rd k ty rm) s =
          .next (afterLoad s ix up rn rd base offset ((s.byteAt a.toNat).setWidth 32))))

/-- STR and STRB complete, in every indexing form and with either offset: the word, or the low byte, of Rd at the address
of R184, and the indexed base in Rn where the form writes back (R187, R189). -/
def Obligations.StoreWordAndByteComplete : Prop :=
  ∀ (s : State) (c : Cond) (ix : Indexing) (up : Bool) (rn rd : Reg) (base : Word),
    conditionPassed c s.cpsr = true → (ix = .unlisted → s.cfg.p0w0 = .postindexWriteback) → rd ≠ Reg.pc →
    (basesWritten ix = true → rd ≠ rn ∧ rn ≠ Reg.pc) → readReg s rn = .ok base → s.CanAdvance →
    (∀ (o : BitVec 12) (a : Word), a = addressOf ix up base (o.setWidth 32) →
      (a.toNat % 4 = 0 → mapped s.cfg .write a.toNat 4 = true → meetsText s.cfg a.toNat 4 = false →
        exec (.strImm c ix up rn rd o) s = .next (afterStore s ix up rn base (o.setWidth 32) 4 (s.reg rd))) ∧
      (mapped s.cfg .write a.toNat 1 = true → meetsText s.cfg a.toNat 1 = false →
        exec (.strbImm c ix up rn rd o) s = .next (afterStore s ix up rn base (o.setWidth 32) 1 (s.reg rd)))) ∧
    (∀ (k : BitVec 5) (ty : ShiftType) (rm : Reg) (offset a : Word) (co : Bool), rm ≠ Reg.pc → rm ≠ rn →
      evalOperand2 s (.shiftImm k ty rm) = .ok (offset, co) → a = addressOf ix up base offset →
      (a.toNat % 4 = 0 → mapped s.cfg .write a.toNat 4 = true → meetsText s.cfg a.toNat 4 = false →
        exec (.strReg c ix up rn rd k ty rm) s = .next (afterStore s ix up rn base offset 4 (s.reg rd))) ∧
      (mapped s.cfg .write a.toNat 1 = true → meetsText s.cfg a.toNat 1 = false →
        exec (.strbReg c ix up rn rd k ty rm) s = .next (afterStore s ix up rn base offset 1 (s.reg rd))))

/-- LDRH, LDRSB and LDRSH complete, in every indexing form and with either offset: the halfword with zeros above it, the
byte or the halfword sign-extended, in Rd; the base as R223 says (R220 to R226; which H bit is the halfword: log 19). -/
def Obligations.LoadHalfwordAndSignedComplete : Prop :=
  ∀ (s : State) (c : Cond) (ix : Indexing) (up : Bool) (rn rd : Reg),
    conditionPassed c s.cpsr = true → (ix = .unlisted → s.cfg.p0w0 = .postindexWriteback) → rd ≠ Reg.pc →
    rn ≠ Reg.pc → (basesWritten ix = true → rd ≠ rn) → s.CanAdvance →
    (∀ (h l : BitVec 4) (offset a : Word), offset = BitVec.ofNat 32 (16 * h.toNat + l.toNat) →
      a = addressOf ix up (s.reg rn) offset →
      (a.toNat % 2 = 0 → mapped s.cfg .read a.toNat 2 = true →
        exec (.ldrhImm c ix up rn rd h l) s = .next (afterLoad s ix up rn rd (s.reg rn) offset (s.load a 2)) ∧
        exec (.ldrshImm c ix up rn rd h l) s =
          .next (afterLoad s ix up rn rd (s.reg rn) offset (((s.load a 2).setWidth 16).signExtend 32))) ∧
      (mapped s.cfg .read a.toNat 1 = true →
        exec (.ldrsbImm c ix up rn rd h l) s =
          .next (afterLoad s ix up rn rd (s.reg rn) offset ((s.byteAt a.toNat).signExtend 32)))) ∧
    (∀ (rm : Reg) (a : Word), rm ≠ Reg.pc → rm ≠ rn → a = addressOf ix up (s.reg rn) (s.reg rm) →
      (a.toNat % 2 = 0 → mapped s.cfg .read a.toNat 2 = true →
        exec (.ldrhReg c ix up rn rd rm) s = .next (afterLoad s ix up rn rd (s.reg rn) (s.reg rm) (s.load a 2)) ∧
        exec (.ldrshReg c ix up rn rd rm) s =
          .next (afterLoad s ix up rn rd (s.reg rn) (s.reg rm) (((s.load a 2).setWidth 16).signExtend 32))) ∧
      (mapped s.cfg .read a.toNat 1 = true →
        exec (.ldrsbReg c ix up rn rd rm) s =
          .next (afterLoad s ix up rn rd (s.reg rn) (s.reg rm) ((s.byteAt a.toNat).signExtend 32))))

/-- STRH completes, in every indexing form and with either offset: the low halfword of Rd at the address of R223 (R227). -/
def Obligations.StoreHalfwordCompletes : Prop :=
  ∀ (s : State) (c : Cond) (ix : Indexing) (up : Bool) (rn rd : Reg),
    conditionPassed c s.cpsr = true → (ix = .unlisted → s.cfg.p0w0 = .postindexWriteback) → rd ≠ Reg.pc →
    rn ≠ Reg.pc → (basesWritten ix = true → rd ≠ rn) → s.CanAdvance →
    (∀ (h l : BitVec 4) (offset a : Word), offset = BitVec.ofNat 32 (16 * h.toNat + l.toNat) →
      a = addressOf ix up (s.reg rn) offset → a.toNat % 2 = 0 → mapped s.cfg .write a.toNat 2 = true →
      meetsText s.cfg a.toNat 2 = false →
      exec (.strhImm c ix up rn rd h l) s = .next (afterStore s ix up rn (s.reg rn) offset 2 (s.reg rd))) ∧
    (∀ (rm : Reg) (a : Word), rm ≠ Reg.pc → rm ≠ rn → a = addressOf ix up (s.reg rn) (s.reg rm) → a.toNat % 2 = 0 →
      mapped s.cfg .write a.toNat 2 = true → meetsText s.cfg a.toNat 2 = false →
      exec (.strhReg c ix up rn rd rm) s = .next (afterStore s ix up rn (s.reg rn) (s.reg rm) 2 (s.reg rd)))

/-- The frame of every single load: no register but Rd and, where the form writes back, Rn, both of the current mode; no
flag, no memory, no SPSR, no coprocessor. -/
def Obligations.SingleLoadFrame : Prop :=
  ∀ (s t : State) (i : Instr) (x : SingleTransfer), i.single? = some x → x.load = true → exec i s = .next t →
    SameRegistersBut (fun k => k = s.home x.rd ∨ (basesWritten x.ix = true ∧ k = s.home x.rn)) s t ∧
    t.cpsr = s.cpsr ∧ SameMemory s t ∧ SameSaved s t ∧ SameCoprocessors s t

/-- The frame of every single store: no register but Rn, where the form writes back; no flag, no SPSR, no coprocessor;
every byte of memory but those of the form's width at the address of R184; and none where the condition fails. -/
def Obligations.SingleStoreFrame : Prop :=
  ∀ (s t : State) (i : Instr) (x : SingleTransfer) (c : Cond), i.single? = some x → x.load = false →
    i.condition? = some c → exec i s = .next t →
    SameRegistersBut (fun k => basesWritten x.ix = true ∧ k = s.home x.rn) s t ∧
    t.cpsr = s.cpsr ∧ SameSaved s t ∧ SameCoprocessors s t ∧
    (conditionPassed c s.cpsr = true → ∀ base offset, readReg s x.rn = .ok base → evalOffset s x.offset = .ok offset →
      SameMemoryOutside (addressOf x.ix x.up base offset) x.bytes s t) ∧
    (conditionPassed c s.cpsr = false → SameMemory s t)

/-- The PC as the index register, or Rn and Rm the same register, of a word or byte Load/Store with a register offset is
unpredictable in all three syntax forms (R191): for every word of the class with I = 1, bit 4 = 0, that is not the
P = 0, W = 0 word under `P0W0 = refuse`. -/
def Obligations.IndexRegisterRestriction : Prop :=
  ∀ (s : State) (w : Word) (i : Instr) (c : Cond), w &&& 0x0E000010#32 = 0x06000000#32 → decode w = .ok i →
    i.condition? = some c → i.AdmittedBy s.cfg → conditionPassed c s.cpsr = true →
    (field w 0 4 = Reg.pc → exec i s = .fault (.unpredictable .pcAsIndex)) ∧
    (field w 0 4 ≠ Reg.pc → field w 0 4 = field w 16 4 → exec i s = .fault (.unpredictable .baseIsIndex))

/-- The PC as the base of a halfword or signed-byte Load/Store with an immediate offset is unpredictable in all three
syntax forms (R230): for every word of the class with bit 22 = 1. -/
def Obligations.HalfwordImmediateBaseRestriction : Prop :=
  ∀ (s : State) (w : Word) (i : Instr) (c : Cond), w &&& 0x0E400090#32 = 0x00400090#32 → i.single?.isSome = true →
    decode w = .ok i → i.condition? = some c → i.AdmittedBy s.cfg → conditionPassed c s.cpsr = true →
    field w 16 4 = Reg.pc → exec i s = .fault (.unpredictable .pcAsHalfwordBase)

/-- The PC as base or index, or the same register as both, of a halfword or signed-byte Load/Store with a register offset
is unpredictable in all three syntax forms (R231): for every word of the class with bit 22 = 0. -/
def Obligations.HalfwordRegisterRestriction : Prop :=
  ∀ (s : State) (w : Word) (i : Instr) (c : Cond), w &&& 0x0E400090#32 = 0x00000090#32 → i.single?.isSome = true →
    decode w = .ok i → i.condition? = some c → i.AdmittedBy s.cfg → conditionPassed c s.cpsr = true →
    (field w 16 4 = Reg.pc → exec i s = .fault (.unpredictable .pcAsHalfwordBase)) ∧
    (field w 16 4 ≠ Reg.pc → field w 0 4 = Reg.pc → exec i s = .fault (.unpredictable .pcAsIndex)) ∧
    (field w 16 4 ≠ Reg.pc → field w 0 4 = field w 16 4 → exec i s = .fault (.unpredictable .baseIsIndex))

/-- The further register restrictions of a single Load/Store, in their order, where those of R191, R230 and R231 do not
apply: Rd = Rn with write-back is unpredictable (decision D15), R15 loaded or stored is refused, a written-back R15 is
refused (R192, R193, R232, decisions D5, D13). -/
def Obligations.TransferRegisterRestrictions : Prop :=
  ∀ (s : State) (i : Instr) (x : SingleTransfer) (c : Cond), i.single? = some x → i.condition? = some c →
    i.AdmittedBy s.cfg → conditionPassed c s.cpsr = true → x.IndexAllowed →
    (x.rn = Reg.pc → encode i &&& 0x0C000000#32 = 0x04000000#32) →
    (basesWritten x.ix = true → x.rd = x.rn → exec i s = .fault (.unpredictable .destinationIsWrittenBase)) ∧
    (¬ (basesWritten x.ix = true ∧ x.rd = x.rn) → x.rd = Reg.pc →
      exec i s = .refused (if x.load then .r15Loaded else .r15Stored)) ∧
    (x.rd ≠ Reg.pc → basesWritten x.ix = true → x.rn = Reg.pc → exec i s = .refused .r15Writeback)

/-- A single Load/Store with P = 0 and W = 0: refused under `P0W0 = refuse` whatever the flags; under
`postindex_writeback` exactly the P = 0, W = 1 instruction (R185, decision D10). -/
def Obligations.UnlistedIndexingFollowsParameter : Prop :=
  ∀ (s : State) (c : Cond) (up : Bool) (rn rd rm : Reg) (o : BitVec 12) (k : BitVec 5) (ty : ShiftType) (h l : BitVec 4),
    (∀ i : Instr, i.indexing? = some .unlisted → s.cfg.p0w0 = .refuse → exec i s = .refused .p0w0) ∧
    (s.cfg.p0w0 = .postindexWriteback →
      exec (.ldrImm c .unlisted up rn rd o) s = exec (.ldrImm c .postIndexed up rn rd o) s ∧
      exec (.ldrReg c .unlisted up rn rd k ty rm) s = exec (.ldrReg c .postIndexed up rn rd k ty rm) s ∧
      exec (.strImm c .unlisted up rn rd o) s = exec (.strImm c .postIndexed up rn rd o) s ∧
      exec (.strReg c .unlisted up rn rd k ty rm) s = exec (.strReg c .postIndexed up rn rd k ty rm) s ∧
      exec (.ldrbImm c .unlisted up rn rd o) s = exec (.ldrbImm c .postIndexed up rn rd o) s ∧
      exec (.ldrbReg c .unlisted up rn rd k ty rm) s = exec (.ldrbReg c .postIndexed up rn rd k ty rm) s ∧
      exec (.strbImm c .unlisted up rn rd o) s = exec (.strbImm c .postIndexed up rn rd o) s ∧
      exec (.strbReg c .unlisted up rn rd k ty rm) s = exec (.strbReg c .postIndexed up rn rd k ty rm) s ∧
      exec (.ldrhImm c .unlisted up rn rd h l) s = exec (.ldrhImm c .postIndexed up rn rd h l) s ∧
      exec (.ldrhReg c .unlisted up rn rd rm) s = exec (.ldrhReg c .postIndexed up rn rd rm) s ∧
      exec (.ldrsbImm c .unlisted up rn rd h l) s = exec (.ldrsbImm c .postIndexed up rn rd h l) s ∧
      exec (.ldrsbReg c .unlisted up rn rd rm) s = exec (.ldrsbReg c .postIndexed up rn rd rm) s ∧
      exec (.ldrshImm c .unlisted up rn rd h l) s = exec (.ldrshImm c .postIndexed up rn rd h l) s ∧
      exec (.ldrshReg c .unlisted up rn rd rm) s = exec (.ldrshReg c .postIndexed up rn rd rm) s ∧
      exec (.strhImm c .unlisted up rn rd h l) s = exec (.strhImm c .postIndexed up rn rd h l) s ∧
      exec (.strhReg c .unlisted up rn rd rm) s = exec (.strhReg c .postIndexed up rn rd rm) s)

/-- A single Load/Store with no restricted register stops on its address in this order: not aligned, not mapped, and for
a store the program text (R64, R69, R76; decisions D2, D21, D22). R333 step 6 puts the alignment before the address map;
that the program text comes after both is deduced (log 22). -/
def Obligations.SingleTransferAddressStops : Prop :=
  ∀ (s : State) (i : Instr) (x : SingleTransfer) (c : Cond) (base offset a : Word), i.single? = some x →
    i.condition? = some c → i.AdmittedBy s.cfg → conditionPassed c s.cpsr = true → x.IndexAllowed →
    (x.rn = Reg.pc → encode i &&& 0x0C000000#32 = 0x04000000#32) → x.rd ≠ Reg.pc →
    (basesWritten x.ix = true → x.rd ≠ x.rn ∧ x.rn ≠ Reg.pc) → readReg s x.rn = .ok base →
    evalOffset s x.offset = .ok offset → a = addressOf x.ix x.up base offset →
    (a.toNat % x.bytes ≠ 0 → exec i s = .fault (.misaligned a x.bytes)) ∧
    (a.toNat % x.bytes = 0 →
      (mapped s.cfg (if x.load then .read else .write) a.toNat x.bytes = false →
        exec i s = .fault (.unmapped a x.bytes)) ∧
      (x.load = false → mapped s.cfg .write a.toNat x.bytes = true → meetsText s.cfg a.toNat x.bytes = true →
        exec i s = .refused .storeToText))

/-- A word stored is the word loaded: an LDR of the address an STR stored to, with any later condition that passes, gives
the stored value (R62, R72). -/
def Obligations.StoreThenLoadReturnsValue : Prop :=
  ∀ (s t : State) (c d : Cond) (up : Bool) (rn rd rd' : Reg) (o : BitVec 12),
    conditionPassed c s.cpsr = true → conditionPassed d s.cpsr = true → rn ≠ Reg.pc → rd' ≠ Reg.pc →
    exec (.strImm c .offset up rn rd o) s = .next t →
    mapped s.cfg .read (addressOf .offset up (s.reg rn) (o.setWidth 32)).toNat 4 = true → t.CanAdvance →
    ∃ u, exec (.ldrImm d .offset up rn rd' o) t = .next u ∧ u.reg rd' = s.reg rd ∧ SameMemory t u

/-! ### Multiple Load/Store -/

/-- The block of each address mode: its lowest and highest word address and the written-back base, modulo 2^32, for a
list of n registers (R261). -/
def Obligations.BlockAddressTable : Prop :=
  ∀ (s : State) (rn : Reg) (list : BitVec 16) (n : Word), n = BitVec.ofNat 32 (rankIn list 16) → list ≠ 0#16 →
    let base := s.reg rn
    let last := fun before up => wordAddr (lsmStart s before up rn list) (rankIn list 16 - 1)
    (lsmStart s false true rn list = base ∧ last false true = base + 4#32 * n - 4#32) ∧
    (lsmStart s true true rn list = base + 4#32 ∧ last true true = base + 4#32 * n) ∧
    (lsmStart s false false rn list = base - 4#32 * n + 4#32 ∧ last false false = base) ∧
    (lsmStart s true false rn list = base - 4#32 * n ∧ last true false = base - 4#32) ∧
    blockEnd true base (countOf list) = base + 4#32 * n ∧ blockEnd false base (countOf list) = base - 4#32 * n

/-- LDM without the PC completes: the k-th lowest register of the list gets the word at start + 4k, in the user-mode bank
where S = 1; Rn gets the written-back value where W = 1; nothing else changes but the pc (R260 to R263, R265, R267). Where
`Bank` lets registers share a physical one, the last write of R260's order stays (log 21). -/
def Obligations.LoadMultipleCompletes : Prop :=
  ∀ (s : State) (c : Cond) (before up user wb : Bool) (rn : Reg) (list : BitVec 16),
    conditionPassed c s.cpsr = true → list ≠ 0#16 → rn ≠ Reg.pc → ¬ (inList list rn = true ∧ wb = true) →
    inList list Reg.pc = false → (user = true → wb = false ∧ s.cfg.modes ≠ []) →
    BlockAdmitted s .read (lsmStart s before up rn list) (countOf list) → s.CanAdvance →
    ∃ t, exec (.ldm c before up user wb rn list) s = .next t ∧ t.pc = s.pc + 4#32 ∧ t.cpsr = s.cpsr ∧
      (∀ i, inList list i = true → lastAtHome (s.lsmHome user list) list i →
        ¬ (wb = true ∧ s.lsmHome user list i = s.home rn) →
        t.phys (s.lsmHome user list i) = s.load (lsmAddress s before up rn list i) 4) ∧
      (wb = true → t.phys (s.home rn) = blockEnd up (s.reg rn) (countOf list)) ∧
      SameRegistersBut (fun k => (∃ i, inList list i = true ∧ k = s.lsmHome user list i) ∨
        (wb = true ∧ k = s.home rn)) s t ∧
      SameMemory s t ∧ SameSaved s t ∧ SameCoprocessors s t

/-- LDM with the PC in the list completes: execution continues at the word at the highest address; the other registers of
the list are written in the current mode's bank; with S = 1 the SPSR of the current mode is copied into the CPSR, flags
and mode, in the same step (R263, R265, R266, R268). Shared physical registers are as above (log 21). -/
def Obligations.LoadMultipleReturns : Prop :=
  ∀ (s : State) (c : Cond) (before up user wb : Bool) (rn : Reg) (list : BitVec 16),
    conditionPassed c s.cpsr = true → rn ≠ Reg.pc → ¬ (inList list rn = true ∧ wb = true) →
    inList list Reg.pc = true → (user = true → s.cfg.modes ≠ [] ∧ hasSpsr s.cfg s.cpsr.mode = true) →
    BlockAdmitted s .read (lsmStart s before up rn list) (countOf list) →
    (s.load (lsmAddress s before up rn list Reg.pc) 4).toNat % 4 = 0 →
    ∃ t, exec (.ldm c before up user wb rn list) s = .next t ∧
      t.pc = s.load (lsmAddress s before up rn list Reg.pc) 4 ∧
      t.cpsr = (if user then s.spsrOf s.cpsr.mode else s.cpsr) ∧
      (∀ i, inList list i = true → lastAtHome s.home list i → ¬ (wb = true ∧ s.home i = s.home rn) →
        t.phys (s.home i) = s.load (lsmAddress s before up rn list i) 4) ∧
      (wb = true → t.phys (s.home rn) = blockEnd up (s.reg rn) (countOf list)) ∧
      SameRegistersBut (fun k => (∃ i, inList list i = true ∧ i ≠ Reg.pc ∧ k = s.home i) ∨
        (wb = true ∧ k = s.home rn)) s t ∧
      SameMemory s t ∧ SameSaved s t ∧ SameCoprocessors s t

/-- STM completes: the k-th lowest register of the list, of the user-mode bank where S = 1, is the word at start + 4k; Rn
gets the written-back value where W = 1; nothing outside the block changes (R260 to R262, R264, R265, R267). -/
def Obligations.StoreMultipleCompletes : Prop :=
  ∀ (s : State) (c : Cond) (before up user wb : Bool) (rn : Reg) (list : BitVec 16),
    conditionPassed c s.cpsr = true → list ≠ 0#16 → rn ≠ Reg.pc → ¬ (inList list rn = true ∧ wb = true) →
    inList list Reg.pc = false → (user = true → wb = false ∧ s.cfg.modes ≠ []) →
    BlockAdmitted s .write (lsmStart s before up rn list) (countOf list) →
    meetsText s.cfg (lsmStart s before up rn list).toNat (4 * countOf list) = false → s.CanAdvance →
    ∃ t, exec (.stm c before up user wb rn list) s = .next t ∧ t.pc = s.pc + 4#32 ∧ t.cpsr = s.cpsr ∧
      (∀ i, inList list i = true →
        t.load (lsmAddress s before up rn list i) 4 = s.phys (s.lsmHome user list i)) ∧
      SameMemoryOutside (lsmStart s before up rn list) (4 * countOf list) s t ∧
      (wb = true → t.phys (s.home rn) = blockEnd up (s.reg rn) (countOf list)) ∧
      SameRegistersBut (fun k => wb = true ∧ k = s.home rn) s t ∧
      SameSaved s t ∧ SameCoprocessors s t

/-- S = 1 with the PC not in the list moves the registers of the user-mode bank; the base is that of the current mode and
the CPSR is not changed (R267). No other physical register is written; where registers share one, the last load stays
(log 21). -/
def Obligations.UserBankTransfer : Prop :=
  ∀ (s t : State) (c : Cond) (before up wb : Bool) (rn : Reg) (list : BitVec 16),
    conditionPassed c s.cpsr = true → inList list Reg.pc = false →
    (exec (.ldm c before up true wb rn list) s = .next t →
      t.cpsr = s.cpsr ∧
      (∀ i, inList list i = true → lastAtHome (userHome s.cfg) list i →
        t.usrReg i = s.load (lsmAddress s before up rn list i) 4) ∧
      SameRegistersBut (fun k => ∃ i, inList list i = true ∧ k = userHome s.cfg i) s t) ∧
    (exec (.stm c before up true wb rn list) s = .next t →
      t.cpsr = s.cpsr ∧
      (∀ i, inList list i = true → t.load (lsmAddress s before up rn list i) 4 = s.usrReg i) ∧
      SameRegistersBut (fun _ => False) s t)

/-- The frames of LDM and STM: LDM keeps memory, every register but those of its list (in the user-mode bank where S = 1
and the PC is not in it, else in the current mode's) and a written-back Rn, and the CPSR but where it returns with
S = 1; STM keeps the CPSR, every register but a written-back Rn, and every byte outside the block it computes. -/
def Obligations.MultipleTransferFrame : Prop :=
  ∀ (s t : State) (c : Cond) (before up user wb : Bool) (rn : Reg) (list : BitVec 16),
    (exec (.ldm c before up user wb rn list) s = .next t →
      SameRegistersBut (fun k => (∃ i, inList list i = true ∧ i ≠ Reg.pc ∧ k = s.lsmHome user list i) ∨
        (wb = true ∧ k = s.home rn)) s t ∧
      (user = false ∨ inList list Reg.pc = false → t.cpsr = s.cpsr) ∧
      SameMemory s t ∧ SameSaved s t ∧ SameCoprocessors s t) ∧
    (exec (.stm c before up user wb rn list) s = .next t →
      SameRegistersBut (fun k => wb = true ∧ k = s.home rn) s t ∧ t.cpsr = s.cpsr ∧
      (conditionPassed c s.cpsr = true →
        SameMemoryOutside (lsmStart s before up rn list) (4 * countOf list) s t) ∧
      (conditionPassed c s.cpsr = false → SameMemory s t) ∧ SameSaved s t ∧ SameCoprocessors s t)

/-- The corner cases of LDM and STM: each ends as the table says (R271, R266; decisions D16, D17). Which case is reported
where several hold is the order in which the table lists them; that this is the order of the checks is deduced (log 22). -/
def Obligations.MultipleTransferCornerCases : Prop :=
  ∀ (s : State) (c : Cond) (before up user wb load : Bool) (rn : Reg) (list : BitVec 16) (i : Instr),
    conditionPassed c s.cpsr = true →
    i = (if load then .ldm c before up user wb rn list else .stm c before up user wb rn list) →
    (list = 0#16 → exec i s = .refused .emptyList) ∧
    (list ≠ 0#16 → rn = Reg.pc → exec i s = .refused .lsmBaseR15) ∧
    (rn ≠ Reg.pc → inList list rn = true → wb = true →
      exec i s = .fault (.unpredictable .baseInListWithWriteback)) ∧
    (rn ≠ Reg.pc → ¬ (inList list rn = true ∧ wb = true) →
      (load = false → inList list Reg.pc = true → exec i s = .refused .stmOfR15) ∧
      (list ≠ 0#16 → inList list Reg.pc = false → user = true → wb = true →
        exec i s = .fault (.unpredictable .userBankWithWriteback)) ∧
      (list ≠ 0#16 → user = true → s.cfg.modes = [] → (load = true ∨ inList list Reg.pc = false) →
        (inList list Reg.pc = true ∨ wb = false) → exec i s = .fault (.unpredictable .sBitInSingleMode)) ∧
      (load = true → inList list Reg.pc = true → user = true → s.cfg.modes ≠ [] →
        hasSpsr s.cfg s.cpsr.mode = false → exec i s = .fault (.unpredictable .noSpsr)))

/-- Where none of the corner cases holds, the block's address stops an LDM or STM in this order: the block passes 2^32,
it is not aligned, a word of it is not mapped (the lowest is reported), and for an STM the program text; an LDM of the
PC is refused for a target that is no multiple of 4 (R71, R64, R69, R76, R268). The order of the first three is R333
step 6; that the program text comes after them is deduced (log 22). -/
def Obligations.MultipleTransferAddressStops : Prop :=
  ∀ (s : State) (c : Cond) (before up user wb load : Bool) (rn : Reg) (list : BitVec 16) (i : Instr) (start : Word)
    (n : Nat),
    conditionPassed c s.cpsr = true → list ≠ 0#16 → rn ≠ Reg.pc → ¬ (inList list rn = true ∧ wb = true) →
    (load = false → inList list Reg.pc = false) →
    (user = true → s.cfg.modes ≠ [] ∧ (inList list Reg.pc = false → wb = false) ∧
      (inList list Reg.pc = true → hasSpsr s.cfg s.cpsr.mode = true)) →
    i = (if load then .ldm c before up user wb rn list else .stm c before up user wb rn list) →
    start = lsmStart s before up rn list → n = countOf list →
    (2 ^ 32 < start.toNat + 4 * n → exec i s = .refused .blockPassesTop) ∧
    (start.toNat + 4 * n ≤ 2 ^ 32 →
      (start.toNat % 4 ≠ 0 → exec i s = .fault (.misaligned start 4)) ∧
      (start.toNat % 4 = 0 →
        (∀ j, j < n → mapped s.cfg (if load then .read else .write) (wordAddr start j).toNat 4 = false →
          (∀ k, k < j → mapped s.cfg (if load then .read else .write) (wordAddr start k).toNat 4 = true) →
          exec i s = .fault (.unmapped (wordAddr start j) 4)) ∧
        (load = false → BlockAdmitted s .write start n → meetsText s.cfg start.toNat (4 * n) = true →
          exec i s = .refused .storeToText) ∧
        (load = true → BlockAdmitted s .read start n → inList list Reg.pc = true →
          (s.load (wordAddr start (n - 1)) 4).toNat % 4 ≠ 0 → exec i s = .refused .pcTargetNotAligned)))

/-- A block stored with write-back is reloaded, with the base restored, by the LDM of the opposite address mode with
write-back: every register of every mode is as before, and memory as after the store (R273). -/
def Obligations.OppositeModeRestoresBlock : Prop :=
  ∀ (s t : State) (c d : Cond) (before up : Bool) (rn : Reg) (list : BitVec 16),
    conditionPassed c s.cpsr = true → conditionPassed d s.cpsr = true →
    exec (.stm c before up false true rn list) s = .next t →
    (∀ j, j < countOf list → mapped s.cfg .read (wordAddr (lsmStart s before up rn list) j).toNat 4 = true) →
    t.CanAdvance →
    ∃ u, exec (.ldm d (!before) (!up) false true rn list) t = .next u ∧
      SameRegistersBut (fun _ => False) s u ∧ SameMemory t u

/-! ### Coprocessor Load/Store -/

/-- LDC completes, in its four forms, for a number of words k from 1 to 16 that the coprocessor decides: the k words from
the first address are handed to it with CRd, N and the user-defined byte; Rn gets the indexed base where W = 1; nothing
else changes but the pc (R300 to R307). The draw and the record are the model's own (log 14, 15). -/
def Obligations.CoprocessorLoadCompletes : Prop :=
  ∀ (s : State) (i : Instr) (x : CpAccess) (c : Cond) (base : Word), i.cpAccess? = some x → x.load = true →
    i.condition? = some c → conditionPassed c s.cpsr = true → s.cfg.coprocs.contains x.cp = true →
    (x.ix.w = true → x.rn ≠ Reg.pc) → readReg s x.rn = .ok base → BlockAdmitted s .read (x.first base) 16 →
    s.CanAdvance →
    ∃ k, 1 ≤ k ∧ k ≤ 16 ∧
      exec i s = .next (afterCp s s x.rn (x.writeBack base)
        ⟨true, x.cp, x.crd, x.n, x.userByte, (List.range k).map fun j => s.load (wordAddr (x.first base) j) 4⟩)

/-- STC completes, in its four forms, for a number of words from 1 to 16 and words the coprocessor supplies: they are
stored from the first address upwards; Rn gets the indexed base where W = 1 (R300 to R306, R308). The draw and the record
are the model's own (log 14, 15). -/
def Obligations.CoprocessorStoreCompletes : Prop :=
  ∀ (s : State) (i : Instr) (x : CpAccess) (c : Cond) (base : Word), i.cpAccess? = some x → x.load = false →
    i.condition? = some c → conditionPassed c s.cpsr = true → s.cfg.coprocs.contains x.cp = true →
    (x.ix.w = true → x.rn ≠ Reg.pc) → readReg s x.rn = .ok base → BlockAdmitted s .write (x.first base) 16 →
    meetsText s.cfg (x.first base).toNat 64 = false → s.CanAdvance →
    ∃ words : List Word, 1 ≤ words.length ∧ words.length ≤ 16 ∧
      exec i s = .next (afterCp s (s.storeWords (x.first base) words) x.rn (x.writeBack base)
        ⟨false, x.cp, x.crd, x.n, x.userByte, words⟩) ∧
      ∀ t, exec i s = .next t → ∀ j, j < words.length → t.load (wordAddr (x.first base) j) 4 = words.getD j 0#32

/-- The frame of LDC and STC: the CPSR, the SPSRs and every register but a written-back Rn of the current mode, whose new
value depends on no word count (R306); LDC keeps memory, STC every byte outside the 16 words from its first address. -/
def Obligations.CoprocessorTransferFrame : Prop :=
  ∀ (s t : State) (i : Instr) (x : CpAccess) (c : Cond), i.cpAccess? = some x → i.condition? = some c →
    exec i s = .next t →
    SameRegistersBut (fun k => x.ix.w = true ∧ k = s.home x.rn) s t ∧ t.cpsr = s.cpsr ∧
    SameSaved s t ∧ (x.load = true ∨ conditionPassed c s.cpsr = false → SameMemory s t) ∧
    (conditionPassed c s.cpsr = true → ∀ base, readReg s x.rn = .ok base →
      (x.load = false → SameMemoryOutside (x.first base) 64 s t) ∧
      ∀ v, x.writeBack base = some v → t.reg x.rn = v)

/-- What stops a coprocessor Load/Store: an absent coprocessor is `UndefinedEncoding`, whatever the flags (R308,
decision D19); then a written-back R15 is refused (R306, decision D13); then, where 16 words do not pass 2^32, a first
address that is not aligned is `Misaligned` and an unmapped first word `Unmapped` (R303). That an unmapped first word
always stops rests on a count of at least 1, the model's choice with decision D18 (log 14). -/
def Obligations.CoprocessorTransferStops : Prop :=
  ∀ (s : State) (i : Instr) (x : CpAccess) (c : Cond), i.cpAccess? = some x → i.condition? = some c →
    (s.cfg.coprocs.contains x.cp = false → exec i s = .fault (.undefinedEncoding .coprocessorAbsent (encode i))) ∧
    (s.cfg.coprocs.contains x.cp = true → conditionPassed c s.cpsr = true →
      (x.ix.w = true → x.rn = Reg.pc → exec i s = .refused .r15Writeback) ∧
      ((x.ix.w = true → x.rn ≠ Reg.pc) → ∀ base, readReg s x.rn = .ok base → (x.first base).toNat + 64 ≤ 2 ^ 32 →
        ((x.first base).toNat % 4 ≠ 0 → exec i s = .fault (.misaligned (x.first base) 4)) ∧
        ((x.first base).toNat % 4 = 0 →
          mapped s.cfg (if x.load then .read else .write) (x.first base).toNat 4 = false →
          exec i s = .fault (.unmapped (x.first base) 4))))

/-! ### The whole machine -/

/-- Every step keeps the invariant: memory, registers and SPSRs in canonical form, the pc a multiple of 4, every mode a
member of `Mode`. -/
def Obligations.StepKeepsStateWellFormed : Prop :=
  ∀ s t : State, s.inv = true → step s = .next t → t.inv = true

/-- The state after reset meets the invariant. The values of that state are the model's choices (log 2 to 13). -/
def Obligations.ResetStateIsWellFormed : Prop := State.reset.inv = true

/-- No step writes an SPSR or the configuration (R45, R335); a step that is no coprocessor transfer takes no draw. That the
configuration stands in State, the draws and the record are the model's own (log 1, 14, 15). -/
def Obligations.StepKeepsSavedStatus : Prop :=
  ∀ s t : State, step s = .next t →
    SameSaved s t ∧
    (SameCoprocessors s t ∨
      ∃ i note, decode (s.load s.pc 4) = .ok i ∧ i.cpAccess?.isSome = true ∧ t.draws = s.draws + 1 ∧
        t.cpLog = note :: s.cpLog)

/-- The program text is immutable: no step changes a byte of it (R76, decision D21). -/
def Obligations.ProgramTextIsImmutable : Prop :=
  ∀ (s t : State) (span : Span) (a : Nat), span ∈ s.cfg.text → span.base ≤ a → a < span.base + span.size →
    step s = .next t → t.byteAt a = s.byteAt a

/-- Only an LDM with the PC in its list transfers control: every other step moves the pc on by 4 (R36). -/
def Obligations.OnlyLoadMultipleTransfersControl : Prop :=
  ∀ s t : State, step s = .next t →
    (t.pc = s.pc + 4#32 ∧ t.pc.toNat = s.pc.toNat + 4) ∨
    ∃ c before up user wb rn list,
      decode (s.load s.pc 4) = .ok (.ldm c before up user wb rn list) ∧ inList list Reg.pc = true ∧
      conditionPassed c s.cpsr = true ∧ t.pc = s.load (lsmAddress s before up rn list Reg.pc) 4

/-- Only a data-processing instruction with S = 1 writes a flag, and only an LDM with S = 1 and the PC in its list
replaces the CPSR, by the SPSR of the mode; nothing else changes the mode (R38, R41). -/
def Obligations.WhatWritesTheStatusRegister : Prop :=
  ∀ s t : State, step s = .next t → t.cpsr ≠ s.cpsr →
    ∃ i, decode (s.load s.pc 4) = .ok i ∧
      ((∃ dest, i.dpWrites? = some (dest, true) ∧ t.cpsr.mode = s.cpsr.mode) ∨
        ∃ c before up wb rn list, i = .ldm c before up true wb rn list ∧ inList list Reg.pc = true ∧
          hasSpsr s.cfg s.cpsr.mode = true ∧ t.cpsr = s.spsrOf s.cpsr.mode)

/-- Only a store changes memory, and only bytes of an aligned access of 1, 2 or 4 bytes that is mapped for writing (R61,
R64, R69). -/
def Obligations.OnlyStoresChangeMappedMemory : Prop :=
  ∀ (s t : State) (a : Nat), step s = .next t → t.byteAt a ≠ s.byteAt a →
    a < 2 ^ 32 ∧
    (∃ b n, (n = 1 ∨ n = 2 ∨ n = 4) ∧ b % n = 0 ∧ b ≤ a ∧ a < b + n ∧ mapped s.cfg .write b n = true) ∧
    ∃ i, decode (s.load s.pc 4) = .ok i ∧
      ((∃ x, i.single? = some x ∧ x.load = false) ∨ (∃ c before up user wb rn list, i = .stm c before up user wb rn list) ∨
        ∃ x, i.cpAccess? = some x ∧ x.load = false)

/-- A step writes physical registers of the current mode, or of user mode by an LDM with S = 1, and no other (R33,
R267). -/
def Obligations.OtherBanksAreKept : Prop :=
  ∀ (s t : State) (k : Nat), step s = .next t → t.phys k ≠ s.phys k →
    (∃ r, r ≠ Reg.pc ∧ k = s.home r) ∨
    ∃ c before up wb rn list r, decode (s.load s.pc 4) = .ok (.ldm c before up true wb rn list) ∧
      inList list Reg.pc = false ∧ inList list r = true ∧ k = userHome s.cfg r

/-! ### Coprocessor Load/Store, after the first word -/

/-- What stops a coprocessor Load/Store after its first word, in this order: one number k of words, from 1 to 16, decides
whether the block passes 2^32, is not aligned, has a word that is not mapped (the lowest is reported), meets, as a store,
the program text, or is transferred whole (R71, R303, R308, R333 step 6). The range of k is decision D18 (log 14), and that
the program text is checked last is deduced (log 22). -/
def Obligations.CoprocessorBlockStops : Prop :=
  ∀ (s : State) (i : Instr) (x : CpAccess) (c : Cond) (base : Word) (kind : AccessKind), i.cpAccess? = some x →
    i.condition? = some c → conditionPassed c s.cpsr = true → s.cfg.coprocs.contains x.cp = true →
    (x.ix.w = true → x.rn ≠ Reg.pc) → readReg s x.rn = .ok base → kind = (if x.load then .read else .write) →
    ∃ k, 1 ≤ k ∧ k ≤ 16 ∧
      (2 ^ 32 < (x.first base).toNat + 4 * k → exec i s = .refused .blockPassesTop) ∧
      ((x.first base).toNat + 4 * k ≤ 2 ^ 32 →
        ((x.first base).toNat % 4 ≠ 0 → exec i s = .fault (.misaligned (x.first base) 4)) ∧
        ((x.first base).toNat % 4 = 0 →
          ∀ j, j < k → mapped s.cfg kind (wordAddr (x.first base) j).toNat 4 = false →
            (∀ m, m < j → mapped s.cfg kind (wordAddr (x.first base) m).toNat 4 = true) →
            exec i s = .fault (.unmapped (wordAddr (x.first base) j) 4)) ∧
        (BlockAdmitted s kind (x.first base) k →
          (x.load = false → meetsText s.cfg (x.first base).toNat (4 * k) = true → exec i s = .refused .storeToText) ∧
          ((x.load = false → meetsText s.cfg (x.first base).toNat (4 * k) = false) → s.CanAdvance →
            ∃ t note, exec i s = .next t ∧ t.cpLog = note :: s.cpLog ∧ note.words.length = k)))
end

