-- ==== Sys2Proof/Laws/Cells.lean ====
section
/-! SUPPORT. The laws of sparse storage: a read after a write, with no premise on the storage's form, and the canonical
form kept by every write. -/

namespace Sys2Proof.Machine

variable {α : Type}

@[simp] theorem cellGet_nil (d : α) (k : Nat) : cellGet d ([] : Cells α) k = d := rfl

theorem cellGet_erase_self (d : α) (m : Cells α) (k : Nat) : cellGet d (cellErase m k) k = d := by
  induction m with
  | nil => rfl
  | cons e rest ih =>
    obtain ⟨k', v⟩ := e
    by_cases h : k' = k
    · simpa [cellErase, h] using ih
    · simpa [cellErase, cellGet, h] using ih

theorem cellGet_erase_other (d : α) (m : Cells α) {k j : Nat} (hjk : j ≠ k) :
    cellGet d (cellErase m k) j = cellGet d m j := by
  induction m with
  | nil => rfl
  | cons e rest ih =>
    obtain ⟨k', v⟩ := e
    by_cases h : k' = k
    · subst h
      simpa [cellErase, cellGet, hjk.symm] using ih
    · by_cases hj : k' = j
      · simp [cellErase, cellGet, hj, hjk]
      · simpa [cellErase, cellGet, h, hj] using ih

/-- An insertion of a key that is not there yet is read back, and leaves the other keys alone. -/
theorem cellGet_insert (d : α) (m : Cells α) (k j : Nat) (v : α) (hfresh : ∀ e ∈ m, e.1 ≠ k) :
    cellGet d (cellInsert m k v) j = if j = k then v else cellGet d m j := by
  induction m with
  | nil =>
    by_cases h : j = k
    · simp [cellInsert, cellGet, h]
    · simp [cellInsert, cellGet, h, Ne.symm h]
  | cons e rest ih =>
    obtain ⟨k', v'⟩ := e
    have hk : k' ≠ k := hfresh (k', v') (by simp)
    have hrest := ih fun e he => hfresh e (by simp [he])
    by_cases hlt : k < k'
    · by_cases h : j = k
      · simp [cellInsert, cellGet, hlt, h]
      · simp [cellInsert, cellGet, hlt, h, Ne.symm h]
    · by_cases h : j = k
      · simpa [cellInsert, cellGet, hlt, h, hk] using hrest
      · by_cases hj : k' = j
        · subst hj; simp [cellInsert, cellGet, hlt, hk]
        · simpa [cellInsert, cellGet, hlt, h, hj] using hrest

/-- The law of reads and writes: the key written reads as written, every other key as before. -/
theorem cellGet_cellSet [DecidableEq α] (d : α) (m : Cells α) (k j : Nat) (v : α) :
    cellGet d (cellSet d m k v) j = if j = k then v else cellGet d m j := by
  unfold cellSet
  by_cases hv : v = d
  · by_cases h : j = k
    · subst h; simp [hv, cellGet_erase_self]
    · simp [hv, h, cellGet_erase_other d m h]
  · rw [if_neg hv, cellGet_insert]
    · by_cases h : j = k
      · simp [h]
      · simp [h, cellGet_erase_other d m h]
    · intro e he
      simpa using (List.mem_filter.mp he).2

@[simp] theorem cellGet_cellSet_self [DecidableEq α] (d : α) (m : Cells α) (k : Nat) (v : α) :
    cellGet d (cellSet d m k v) k = v := by simp [cellGet_cellSet]

theorem cellGet_cellSet_other [DecidableEq α] (d : α) (m : Cells α) {k j : Nat} (v : α) (h : j ≠ k) :
    cellGet d (cellSet d m k v) j = cellGet d m j := by simp [cellGet_cellSet, h]

theorem cellsWfFrom_mono [DecidableEq α] (d : α) {lo lo' : Nat} (m : Cells α) (hle : lo ≤ lo')
    (h : cellsWfFrom d lo' m = true) : cellsWfFrom d lo m = true := by
  cases m with
  | nil => rfl
  | cons e rest =>
    obtain ⟨k, v⟩ := e
    simp only [cellsWfFrom, Bool.and_eq_true, decide_eq_true_eq] at h ⊢
    exact ⟨⟨by omega, h.1.2⟩, h.2⟩

theorem cellsWfFrom_erase [DecidableEq α] (d : α) (lo : Nat) (m : Cells α) (k : Nat)
    (h : cellsWfFrom d lo m = true) : cellsWfFrom d lo (cellErase m k) = true := by
  induction m generalizing lo with
  | nil => rfl
  | cons e rest ih =>
    obtain ⟨k', v⟩ := e
    simp only [cellsWfFrom, Bool.and_eq_true, decide_eq_true_eq] at h
    by_cases hk : k' = k
    · have := cellsWfFrom_mono d rest (by omega : lo ≤ k' + 1) h.2
      simpa [cellErase, hk] using ih lo this
    · have := ih (k' + 1) h.2
      simp only [cellErase] at this
      simp [cellErase, hk, cellsWfFrom, h.1.1, h.1.2, this]

theorem cellsWfFrom_insert [DecidableEq α] (d : α) (lo : Nat) (m : Cells α) (k : Nat) (v : α) (hlo : lo ≤ k)
    (hv : v ≠ d) (hfresh : ∀ e ∈ m, e.1 ≠ k) (h : cellsWfFrom d lo m = true) :
    cellsWfFrom d lo (cellInsert m k v) = true := by
  induction m generalizing lo with
  | nil => simp [cellInsert, cellsWfFrom, hlo, hv]
  | cons e rest ih =>
    obtain ⟨k', v'⟩ := e
    have hk : k' ≠ k := hfresh (k', v') (by simp)
    simp only [cellsWfFrom, Bool.and_eq_true, decide_eq_true_eq] at h
    by_cases hlt : k < k'
    · simp [cellInsert, hlt, cellsWfFrom, hlo, hv, h.1.2, h.2]
    · have := ih (k' + 1) (by omega) (fun e he => hfresh e (by simp [he])) h.2
      simp [cellInsert, hlt, cellsWfFrom, h.1.1, h.1.2, this]

/-- A write keeps the canonical form. -/
theorem cellsWf_cellSet [DecidableEq α] (d : α) (m : Cells α) (k : Nat) (v : α) (h : cellsWf d m = true) :
    cellsWf d (cellSet d m k v) = true := by
  unfold cellSet
  have herase := cellsWfFrom_erase d 0 m k h
  by_cases hv : v = d
  · rw [if_pos hv]; exact herase
  · rw [if_neg hv]
    refine cellsWfFrom_insert d 0 _ k v (Nat.zero_le k) hv (fun e he => ?_) herase
    simpa using (List.mem_filter.mp he).2

theorem mem_cellInsert (m : Cells α) (k : Nat) (v : α) (e : Nat × α) (h : e ∈ cellInsert m k v) :
    e = (k, v) ∨ e ∈ m := by
  induction m with
  | nil => simpa [cellInsert] using h
  | cons e' rest ih =>
    obtain ⟨k', v'⟩ := e'
    by_cases hlt : k < k'
    · simpa [cellInsert, hlt] using h
    · simp only [cellInsert, hlt, if_false, List.mem_cons] at h ⊢
      rcases h with h | h
      · exact .inr (.inl h)
      · exact (ih h).imp id .inr

/-- The entries after a write are the one written and entries of before. -/
theorem mem_cellSet [DecidableEq α] (d : α) (m : Cells α) (k : Nat) (v : α) (e : Nat × α) (h : e ∈ cellSet d m k v) :
    e = (k, v) ∨ e ∈ m := by
  unfold cellSet at h
  by_cases hv : v = d
  · rw [if_pos hv] at h
    exact .inr (List.mem_filter.mp h).1
  · rw [if_neg hv] at h
    exact (mem_cellInsert _ _ _ _ h).imp id fun h => (List.mem_filter.mp h).1

/-- Two storages in canonical form that read the same everywhere are the same storage. -/
theorem cells_ext [DecidableEq α] (d : α) (m m' : Cells α) (lo : Nat) (h : cellsWfFrom d lo m = true)
    (h' : cellsWfFrom d lo m' = true) (heq : ∀ k, cellGet d m k = cellGet d m' k) : m = m' := by
  have below : ∀ (m : Cells α) (lo k : Nat), cellsWfFrom d lo m = true → k < lo → cellGet d m k = d := by
    intro m
    induction m with
    | nil => intros; rfl
    | cons e rest ih =>
      obtain ⟨k', v⟩ := e
      intro lo k hwf hlt
      simp only [cellsWfFrom, Bool.and_eq_true, decide_eq_true_eq] at hwf
      have hne : k' ≠ k := by omega
      simpa [cellGet, hne] using ih (k' + 1) k hwf.2 (by omega)
  induction m generalizing m' lo with
  | nil =>
    cases m' with
    | nil => rfl
    | cons e rest =>
      obtain ⟨k, v⟩ := e
      simp only [cellsWfFrom, Bool.and_eq_true, decide_eq_true_eq] at h'
      exact absurd (by simpa [cellGet] using (heq k).symm) h'.1.2
  | cons e rest ih =>
    obtain ⟨k, v⟩ := e
    have hwf := h
    simp only [cellsWfFrom, Bool.and_eq_true, decide_eq_true_eq] at h
    cases m' with
    | nil => exact absurd (by simpa [cellGet] using heq k) h.1.2
    | cons e' rest' =>
      obtain ⟨k', v'⟩ := e'
      have hwf' := h'
      simp only [cellsWfFrom, Bool.and_eq_true, decide_eq_true_eq] at h'
      have hkk : k = k' := by
        rcases Nat.lt_trichotomy k k' with hlt | heq' | hlt
        · have hk := heq k
          have hlow := below ((k', v') :: rest') (k + 1) k
            (by simp [cellsWfFrom, h'.1.2, h'.2]; omega) (by omega)
          rw [hlow] at hk
          exact absurd (by simpa [cellGet] using hk) h.1.2
        · exact heq'
        · have hk := heq k'
          have hlow := below ((k, v) :: rest) (k' + 1) k'
            (by simp [cellsWfFrom, h.1.2, h.2]; omega) (by omega)
          rw [hlow] at hk
          exact absurd (by simpa [cellGet] using hk.symm) h'.1.2
      subst hkk
      have hv : v = v' := by simpa [cellGet] using heq k
      subst hv
      congr 1
      refine ih rest' (k + 1) h.2 h'.2 fun j => ?_
      by_cases hj : k = j
      · subst hj
        rw [below rest (k + 1) k h.2 (by omega), below rest' (k + 1) k h'.2 (by omega)]
      · simpa [cellGet, hj] using heq j

end Sys2Proof.Machine
end

