-- ==== Sys2Proof/Laws/Decode.lean ====
section
/-! SUPPORT. The laws of bit fields: what a field or a bit of a word built from placed fields is. With them the decoder
runs on an encoder's word by simplification. -/

namespace Sys2Proof

@[simp] theorem field_or (v w : Word) (lo len : Nat) : field (v ||| w) lo len = field v lo len ||| field w lo len := by
  unfold field
  exact BitVec.extractLsb'_or

@[simp] theorem bit_or (v w : Word) (i : Nat) : bit (v ||| w) i = (bit v i || bit w i) := by simp [bit]

/-- Bit i of a placed field. -/
theorem bit_place {n : Nat} (v : BitVec n) (lo i : Nat) (h : lo + n ≤ 32) :
    bit (place v lo) i = (decide (lo ≤ i) && v.getLsbD (i - lo)) := by
  unfold bit place
  rw [BitVec.getLsbD_shiftLeft, BitVec.getLsbD_setWidth]
  by_cases h1 : lo ≤ i
  · by_cases h2 : i < 32
    · simp [h1, h2, Nat.not_lt.mpr h1]; omega
    · rw [BitVec.getLsbD_of_ge v (i - lo) (by omega)]; simp
  · simp [h1, Nat.lt_of_not_le h1]

/-- A field is read back from where it was placed. -/
theorem field_place_same {n : Nat} (v : BitVec n) (lo : Nat) (h : lo + n ≤ 32) : field (place v lo) lo n = v := by
  apply BitVec.eq_of_getLsbD_eq
  intro i hi
  have := bit_place v lo (lo + i) h
  rw [bit] at this
  rw [field, BitVec.getLsbD_extractLsb', this]
  simp [hi]

/-- A field apart from where a field was placed is zero. -/
theorem field_place_apart {n : Nat} (v : BitVec n) (lo lo' len : Nat) (hw : lo + n ≤ 32)
    (h : lo' + len ≤ lo ∨ lo + n ≤ lo') : field (place v lo) lo' len = 0#len := by
  apply BitVec.eq_of_getLsbD_eq
  intro i hi
  have := bit_place v lo (lo' + i) hw
  rw [bit] at this
  rw [field, BitVec.getLsbD_extractLsb', this]
  by_cases h1 : lo ≤ lo' + i
  · rw [BitVec.getLsbD_of_ge v _ (by omega)]; simp
  · simp [h1]

/-- Bit i of a placed bit. -/
theorem bit_placeBit (b : Bool) (lo i : Nat) (h : lo + 1 ≤ 32) : bit (placeBit b lo) i = (decide (lo = i) && b) := by
  rw [placeBit, bit_place _ _ _ h]
  by_cases h1 : lo = i
  · subst h1; simp
  · by_cases h2 : lo ≤ i
    · have h3 : ¬ (i - lo = 0) := by omega
      simp [h1, BitVec.getLsbD_ofBool, h3]
    · simp [h1, h2]

theorem field_placeBit_apart (b : Bool) (lo lo' len : Nat) (hw : lo + 1 ≤ 32) (h : lo' + len ≤ lo ∨ lo + 1 ≤ lo') :
    field (placeBit b lo) lo' len = 0#len := field_place_apart _ _ _ _ hw h

/-- The class field of a word that has bit 25 placed in it. -/
theorem class_placeBit (b : Bool) : field (placeBit b 25) 25 3 = (BitVec.ofBool b).setWidth 3 := by
  cases b <;> decide

@[simp] theorem condOfCode_code (c : Cond) : condOfCode c.code = some c := by cases c <;> rfl

@[simp] theorem shiftOfCode_code (t : ShiftType) : shiftOfCode t.code = t := by cases t <;> rfl

@[simp] theorem indexingOf_bits (ix : Indexing) : indexingOf ix.p ix.w = ix := by cases ix <;> rfl

@[simp] theorem code_shiftOfCode (b : BitVec 2) : (shiftOfCode b).code = b := by revert b; decide

/-- A code that stands for a condition is that condition's code. -/
theorem code_of_condOfCode (b : BitVec 4) (c : Cond) (h : condOfCode b = some c) : c.code = b := by
  revert b c
  decide

/-! ### Masks -/

/-- A field placed where the mask is zero is masked away. -/
theorem place_and_out {n : Nat} (v : BitVec n) (lo : Nat) (m : Word) (hw : lo + n ≤ 32) (h : field m lo n = 0#n) :
    place v lo &&& m = 0#32 := by
  apply BitVec.eq_of_getLsbD_eq
  intro i _
  have hb := bit_place v lo i hw
  rw [bit] at hb
  rw [BitVec.getLsbD_and, hb]
  by_cases h1 : lo ≤ i
  · by_cases h2 : i - lo < n
    · have := congrArg (fun x => x.getLsbD (i - lo)) h
      simp only [field, BitVec.getLsbD_extractLsb', h2, decide_true, Bool.true_and, BitVec.getLsbD_zero] at this
      rw [show lo + (i - lo) = i by omega] at this
      simp [this]
    · rw [BitVec.getLsbD_of_ge v _ (by omega)]; simp
  · simp [h1]

/-- A field placed where the mask is all ones is kept. -/
theorem place_and_in {n : Nat} (v : BitVec n) (lo : Nat) (m : Word) (hw : lo + n ≤ 32)
    (h : field m lo n = BitVec.allOnes n) : place v lo &&& m = place v lo := by
  apply BitVec.eq_of_getLsbD_eq
  intro i _
  have hb := bit_place v lo i hw
  rw [bit] at hb
  rw [BitVec.getLsbD_and, hb]
  by_cases h1 : lo ≤ i
  · by_cases h2 : i - lo < n
    · have := congrArg (fun x => x.getLsbD (i - lo)) h
      simp only [field, BitVec.getLsbD_extractLsb', h2, decide_true, Bool.true_and, BitVec.getLsbD_allOnes] at this
      rw [show lo + (i - lo) = i by omega] at this
      simp [this]
    · rw [BitVec.getLsbD_of_ge v _ (by omega)]; simp
  · simp [h1]

theorem or_and_distrib (v w m : Word) : (v ||| w) &&& m = (v &&& m) ||| (w &&& m) := by
  apply BitVec.eq_of_getLsbD_eq
  intro i _
  simp [Bool.and_or_distrib_right]

/-- The second operand's bits lie in bits 25 and 11:0. -/
theorem encodeOperand2_and_out (o : Operand2) (m : Word) (h : field m 25 1 = 0#1) (h' : field m 0 12 = 0#12) :
    encodeOperand2 o &&& m = 0#32 := by
  have hsub : ∀ lo n, lo + n ≤ 12 → field m lo n = 0#n := by
    intro lo n hle
    apply BitVec.eq_of_getLsbD_eq
    intro i hi
    have := congrArg (fun x => x.getLsbD (lo + i)) h'
    simp only [field, BitVec.getLsbD_extractLsb', BitVec.getLsbD_zero, show lo + i < 12 by omega, decide_true,
      Bool.true_and, Nat.zero_add] at this
    simp [field, hi, this]
  cases o <;>
    simp only [encodeOperand2, placeBit, or_and_distrib] <;>
    simp [place_and_out, h, hsub]

end Sys2Proof
end

