-- ==== Sys2Proof/Laws/State.lean ====
section
/-! SUPPORT. One lemma per field and update of the state, so that no later proof unfolds a record update; and the laws
of reads after writes for registers and bytes. -/

namespace Sys2Proof.Machine

variable (s : State)

/-! ### Single updates -/

@[simp] theorem State.setPhys_regs (k : Nat) (v : Word) : (s.setPhys k v).regs = cellSet resetWord s.regs k v := rfl
@[simp] theorem State.setPhys_pc (k : Nat) (v : Word) : (s.setPhys k v).pc = s.pc := rfl
@[simp] theorem State.setPhys_cpsr (k : Nat) (v : Word) : (s.setPhys k v).cpsr = s.cpsr := rfl
@[simp] theorem State.setPhys_spsr (k : Nat) (v : Word) : (s.setPhys k v).spsr = s.spsr := rfl
@[simp] theorem State.setPhys_mem (k : Nat) (v : Word) : (s.setPhys k v).mem = s.mem := rfl
@[simp] theorem State.setPhys_cpLog (k : Nat) (v : Word) : (s.setPhys k v).cpLog = s.cpLog := rfl
@[simp] theorem State.setPhys_draws (k : Nat) (v : Word) : (s.setPhys k v).draws = s.draws := rfl
@[simp] theorem State.setPhys_cfg (k : Nat) (v : Word) : (s.setPhys k v).cfg = s.cfg := rfl

@[simp] theorem State.setReg_regs (i : Reg) (v : Word) : (s.setReg i v).regs = cellSet resetWord s.regs (homeOf s.cfg s.cpsr.mode i) v := rfl
@[simp] theorem State.setReg_pc (i : Reg) (v : Word) : (s.setReg i v).pc = s.pc := rfl
@[simp] theorem State.setReg_cpsr (i : Reg) (v : Word) : (s.setReg i v).cpsr = s.cpsr := rfl
@[simp] theorem State.setReg_spsr (i : Reg) (v : Word) : (s.setReg i v).spsr = s.spsr := rfl
@[simp] theorem State.setReg_mem (i : Reg) (v : Word) : (s.setReg i v).mem = s.mem := rfl
@[simp] theorem State.setReg_cpLog (i : Reg) (v : Word) : (s.setReg i v).cpLog = s.cpLog := rfl
@[simp] theorem State.setReg_draws (i : Reg) (v : Word) : (s.setReg i v).draws = s.draws := rfl
@[simp] theorem State.setReg_cfg (i : Reg) (v : Word) : (s.setReg i v).cfg = s.cfg := rfl

@[simp] theorem State.setUsrReg_regs (i : Reg) (v : Word) : (s.setUsrReg i v).regs = cellSet resetWord s.regs (userHome s.cfg i) v := rfl
@[simp] theorem State.setUsrReg_pc (i : Reg) (v : Word) : (s.setUsrReg i v).pc = s.pc := rfl
@[simp] theorem State.setUsrReg_cpsr (i : Reg) (v : Word) : (s.setUsrReg i v).cpsr = s.cpsr := rfl
@[simp] theorem State.setUsrReg_spsr (i : Reg) (v : Word) : (s.setUsrReg i v).spsr = s.spsr := rfl
@[simp] theorem State.setUsrReg_mem (i : Reg) (v : Word) : (s.setUsrReg i v).mem = s.mem := rfl
@[simp] theorem State.setUsrReg_cpLog (i : Reg) (v : Word) : (s.setUsrReg i v).cpLog = s.cpLog := rfl
@[simp] theorem State.setUsrReg_draws (i : Reg) (v : Word) : (s.setUsrReg i v).draws = s.draws := rfl
@[simp] theorem State.setUsrReg_cfg (i : Reg) (v : Word) : (s.setUsrReg i v).cfg = s.cfg := rfl

@[simp] theorem State.restoreStatus_regs : (s.restoreStatus).regs = s.regs := rfl
@[simp] theorem State.restoreStatus_pc : (s.restoreStatus).pc = s.pc := rfl
@[simp] theorem State.restoreStatus_cpsr : (s.restoreStatus).cpsr = s.spsrOf s.cpsr.mode := rfl
@[simp] theorem State.restoreStatus_spsr : (s.restoreStatus).spsr = s.spsr := rfl
@[simp] theorem State.restoreStatus_mem : (s.restoreStatus).mem = s.mem := rfl
@[simp] theorem State.restoreStatus_cpLog : (s.restoreStatus).cpLog = s.cpLog := rfl
@[simp] theorem State.restoreStatus_draws : (s.restoreStatus).draws = s.draws := rfl
@[simp] theorem State.restoreStatus_cfg : (s.restoreStatus).cfg = s.cfg := rfl

@[simp] theorem State.setByte_regs (a : Nat) (b : Byte) : (s.setByte a b).regs = s.regs := rfl
@[simp] theorem State.setByte_pc (a : Nat) (b : Byte) : (s.setByte a b).pc = s.pc := rfl
@[simp] theorem State.setByte_cpsr (a : Nat) (b : Byte) : (s.setByte a b).cpsr = s.cpsr := rfl
@[simp] theorem State.setByte_spsr (a : Nat) (b : Byte) : (s.setByte a b).spsr = s.spsr := rfl
@[simp] theorem State.setByte_mem (a : Nat) (b : Byte) : (s.setByte a b).mem = cellSet unlistedByte s.mem a b := rfl
@[simp] theorem State.setByte_cpLog (a : Nat) (b : Byte) : (s.setByte a b).cpLog = s.cpLog := rfl
@[simp] theorem State.setByte_draws (a : Nat) (b : Byte) : (s.setByte a b).draws = s.draws := rfl
@[simp] theorem State.setByte_cfg (a : Nat) (b : Byte) : (s.setByte a b).cfg = s.cfg := rfl

@[simp] theorem State.noteTransfer_regs (t : CpTransfer) : (s.noteTransfer t).regs = s.regs := rfl
@[simp] theorem State.noteTransfer_pc (t : CpTransfer) : (s.noteTransfer t).pc = s.pc := rfl
@[simp] theorem State.noteTransfer_cpsr (t : CpTransfer) : (s.noteTransfer t).cpsr = s.cpsr := rfl
@[simp] theorem State.noteTransfer_spsr (t : CpTransfer) : (s.noteTransfer t).spsr = s.spsr := rfl
@[simp] theorem State.noteTransfer_mem (t : CpTransfer) : (s.noteTransfer t).mem = s.mem := rfl
@[simp] theorem State.noteTransfer_cpLog (t : CpTransfer) : (s.noteTransfer t).cpLog = t :: s.cpLog := rfl
@[simp] theorem State.noteTransfer_draws (t : CpTransfer) : (s.noteTransfer t).draws = s.draws + 1 := rfl
@[simp] theorem State.noteTransfer_cfg (t : CpTransfer) : (s.noteTransfer t).cfg = s.cfg := rfl

/-! ### Bytes and words stored: nothing but memory changes -/

@[simp] theorem State.setBytes_regs (a : Nat) (bs : List Byte) : (s.setBytes a bs).regs = s.regs := by
  induction bs generalizing s a with
  | nil => rfl
  | cons b bs ih => simp [State.setBytes, ih]

@[simp] theorem State.setBytes_pc (a : Nat) (bs : List Byte) : (s.setBytes a bs).pc = s.pc := by
  induction bs generalizing s a with
  | nil => rfl
  | cons b bs ih => simp [State.setBytes, ih]

@[simp] theorem State.setBytes_cpsr (a : Nat) (bs : List Byte) : (s.setBytes a bs).cpsr = s.cpsr := by
  induction bs generalizing s a with
  | nil => rfl
  | cons b bs ih => simp [State.setBytes, ih]

@[simp] theorem State.setBytes_spsr (a : Nat) (bs : List Byte) : (s.setBytes a bs).spsr = s.spsr := by
  induction bs generalizing s a with
  | nil => rfl
  | cons b bs ih => simp [State.setBytes, ih]

@[simp] theorem State.setBytes_cpLog (a : Nat) (bs : List Byte) : (s.setBytes a bs).cpLog = s.cpLog := by
  induction bs generalizing s a with
  | nil => rfl
  | cons b bs ih => simp [State.setBytes, ih]

@[simp] theorem State.setBytes_draws (a : Nat) (bs : List Byte) : (s.setBytes a bs).draws = s.draws := by
  induction bs generalizing s a with
  | nil => rfl
  | cons b bs ih => simp [State.setBytes, ih]

@[simp] theorem State.setBytes_cfg (a : Nat) (bs : List Byte) : (s.setBytes a bs).cfg = s.cfg := by
  induction bs generalizing s a with
  | nil => rfl
  | cons b bs ih => simp [State.setBytes, ih]

@[simp] theorem State.store_regs (a : Word) (n : Nat) (v : Word) : (s.store a n v).regs = s.regs := by simp [State.store]
@[simp] theorem State.store_pc (a : Word) (n : Nat) (v : Word) : (s.store a n v).pc = s.pc := by simp [State.store]
@[simp] theorem State.store_cpsr (a : Word) (n : Nat) (v : Word) : (s.store a n v).cpsr = s.cpsr := by simp [State.store]
@[simp] theorem State.store_spsr (a : Word) (n : Nat) (v : Word) : (s.store a n v).spsr = s.spsr := by simp [State.store]
@[simp] theorem State.store_cpLog (a : Word) (n : Nat) (v : Word) : (s.store a n v).cpLog = s.cpLog := by simp [State.store]
@[simp] theorem State.store_draws (a : Word) (n : Nat) (v : Word) : (s.store a n v).draws = s.draws := by simp [State.store]
@[simp] theorem State.store_cfg (a : Word) (n : Nat) (v : Word) : (s.store a n v).cfg = s.cfg := by simp [State.store]

@[simp] theorem State.storeWords_regs (a : Word) (vs : List Word) : (s.storeWords a vs).regs = s.regs := by
  induction vs generalizing s a with
  | nil => rfl
  | cons v vs ih => simp [State.storeWords, ih]

@[simp] theorem State.storeWords_pc (a : Word) (vs : List Word) : (s.storeWords a vs).pc = s.pc := by
  induction vs generalizing s a with
  | nil => rfl
  | cons v vs ih => simp [State.storeWords, ih]

@[simp] theorem State.storeWords_cpsr (a : Word) (vs : List Word) : (s.storeWords a vs).cpsr = s.cpsr := by
  induction vs generalizing s a with
  | nil => rfl
  | cons v vs ih => simp [State.storeWords, ih]

@[simp] theorem State.storeWords_spsr (a : Word) (vs : List Word) : (s.storeWords a vs).spsr = s.spsr := by
  induction vs generalizing s a with
  | nil => rfl
  | cons v vs ih => simp [State.storeWords, ih]

@[simp] theorem State.storeWords_cpLog (a : Word) (vs : List Word) : (s.storeWords a vs).cpLog = s.cpLog := by
  induction vs generalizing s a with
  | nil => rfl
  | cons v vs ih => simp [State.storeWords, ih]

@[simp] theorem State.storeWords_draws (a : Word) (vs : List Word) : (s.storeWords a vs).draws = s.draws := by
  induction vs generalizing s a with
  | nil => rfl
  | cons v vs ih => simp [State.storeWords, ih]

@[simp] theorem State.storeWords_cfg (a : Word) (vs : List Word) : (s.storeWords a vs).cfg = s.cfg := by
  induction vs generalizing s a with
  | nil => rfl
  | cons v vs ih => simp [State.storeWords, ih]

/-! ### Registers -/

/-- A physical register after a write to a physical register. -/
theorem State.phys_setPhys (k k' : Nat) (v : Word) : (s.setPhys k v).phys k' = if k' = k then v else s.phys k' := by
  simp [State.phys, cellGet_cellSet]

/-- Every physical register after a write to `x[i]`. -/
theorem State.phys_setReg (k : Nat) (i : Reg) (v : Word) :
    (s.setReg i v).phys k = if k = homeOf s.cfg s.cpsr.mode i then v else s.phys k := s.phys_setPhys _ _ _

/-- Every physical register after a write to `x_usr[i]`. -/
theorem State.phys_setUsrReg (k : Nat) (i : Reg) (v : Word) :
    (s.setUsrReg i v).phys k = if k = userHome s.cfg i then v else s.phys k := s.phys_setPhys _ _ _

/-- What the current mode sees after a write to `x[i]`: the value in every register that shares the physical one. -/
theorem State.reg_setReg (i j : Reg) (v : Word) :
    (s.setReg i v).reg j = if homeOf s.cfg s.cpsr.mode j = homeOf s.cfg s.cpsr.mode i then v else s.reg j := by
  simp only [State.reg, State.setReg_cfg, State.setReg_cpsr, s.phys_setReg]

@[simp] theorem State.reg_setReg_self (i : Reg) (v : Word) : (s.setReg i v).reg i = v := by simp [s.reg_setReg]

/-- A physical register depends only on the registers. -/
theorem State.phys_congr {t : State} (h : t.regs = s.regs) (k : Nat) : t.phys k = s.phys k := by
  simp [State.phys, h]

/-! ### Bytes -/

/-- A byte of memory after a write of one byte. -/
theorem State.byteAt_setByte (a a' : Nat) (b : Byte) :
    (s.setByte a b).byteAt a' = if a' = a then b else s.byteAt a' := by
  simp [State.byteAt, cellGet_cellSet]

/-- A byte depends only on memory. -/
theorem State.byteAt_congr {t : State} (h : t.mem = s.mem) (a : Nat) : t.byteAt a = s.byteAt a := by
  simp [State.byteAt, h]

end Sys2Proof.Machine
end

