-- ==== Sys2Proof/Laws/Ops.lean ====
section
/-! SUPPORT. What each shared operation can do, said once: when a computation answers a state, and what that state is. -/

namespace Sys2Proof.Machine

/-! ### Computations that may stop -/

/-- A sequence answers exactly where both parts do. -/
theorem bind_ok {α β : Type} (x : Except Stop α) (f : α → Except Stop β) (b : β) :
    (x >>= f) = .ok b ↔ ∃ a, x = .ok a ∧ f a = .ok b := by
  cases x <;> simp [bind, Except.bind]

@[simp] theorem ok_bind {α β : Type} (a : α) (f : α → Except Stop β) : ((.ok a : Except Stop α) >>= f) = f a := rfl

@[simp] theorem error_bind {α β : Type} (e : Stop) (f : α → Except Stop β) :
    ((.error e : Except Stop α) >>= f) = .error e := rfl

@[simp] theorem pure_eq_ok {α : Type} (a : α) : (pure a : Except Stop α) = .ok a := rfl

@[simp] theorem raiseFault_ne_ok {α : Type} (f : Fault) (a : α) : (raiseFault f : Except Stop α) ≠ .ok a := by
  simp [raiseFault]

@[simp] theorem refuse_ne_ok {α : Type} (r : Refusal) (a : α) : (refuse r : Except Stop α) ≠ .ok a := by
  simp [refuse]

@[simp] theorem unpredictableIf_ok (b : Bool) (r : UnpredictableReason) (u : Unit) :
    unpredictableIf b r = .ok u ↔ b = false := by
  cases b <;> simp [unpredictableIf]

@[simp] theorem refuseIf_ok (b : Bool) (r : Refusal) (u : Unit) : refuseIf b r = .ok u ↔ b = false := by
  cases b <;> simp [refuseIf]

@[simp] theorem unpredictableIf_false (r : UnpredictableReason) : unpredictableIf false r = .ok () := rfl

@[simp] theorem unpredictableIf_true (r : UnpredictableReason) :
    unpredictableIf true r = .error (.fault (.unpredictable r)) := rfl

@[simp] theorem refuseIf_false (r : Refusal) : refuseIf false r = .ok () := rfl

@[simp] theorem refuseIf_true (r : Refusal) : refuseIf true r = .error (.refused r) := rfl

@[simp] theorem finish_ok (s : State) : finish (.ok s) = .next s := rfl

@[simp] theorem finish_fault (f : Fault) : finish (.error (.fault f)) = .fault f := rfl

@[simp] theorem finish_refused (r : Refusal) : finish (.error (.refused r)) = .refused r := rfl

/-- An outcome is a next state exactly where the computation answers it. -/
@[simp] theorem finish_next (x : Except Stop State) (t : State) : finish x = .next t ↔ x = .ok t := by
  rcases x with (_ | _) | _ <;> simp [finish]

/-- What an instruction's skeleton can answer: the effect where the condition passes, only the advance where it fails;
either way the checks on the word alone have passed. -/
theorem execute_next (chk : Except Stop Unit) (c : Cond) (s t : State) (body : Except Stop State) :
    execute chk c s body = .next t ↔
      chk = .ok () ∧ ((conditionPassed c s.cpsr = true ∧ body = .ok t) ∨
        (conditionPassed c s.cpsr = false ∧ advance s = .ok t)) := by
  unfold execute
  rcases chk with e | u
  · rcases e with _ | _ <;> simp
  · cases h : conditionPassed c s.cpsr <;> simp

/-- The skeleton where the checks on the word pass and the condition passes: the effect alone. -/
theorem execute_passed {c : Cond} {s : State} (h : conditionPassed c s.cpsr = true) (body : Except Stop State) :
    execute (.ok ()) c s body = finish body := by simp [execute, h]

/-- The skeleton where the checks on the word pass and the condition fails: only the pc moves. -/
theorem execute_failed {c : Cond} {s : State} (h : conditionPassed c s.cpsr = false) (body : Except Stop State) :
    execute (.ok ()) c s body = finish (advance s) := by simp [execute, h]

/-! ### The program counter and the status -/

/-- The advance answers exactly below the top of the address space, and moves the pc alone. -/
theorem advance_ok (s t : State) :
    advance s = .ok t ↔ s.pc.toNat + 4 < addressSpace ∧ t = { s with pc := s.pc + 4#32 } := by
  unfold advance
  by_cases h : s.pc.toNat + 4 < addressSpace
  · simp [h, eq_comm]
  · simp [h]

theorem advance_of_lt {s : State} (h : s.pc.toNat + 4 < addressSpace) :
    advance s = .ok { s with pc := s.pc + 4#32 } := by simp [advance, h]

/-- Reading a register other than R15. -/
theorem readReg_of_ne {s : State} {i : Reg} (h : i ≠ Reg.pc) : readReg s i = .ok (s.reg i) := by simp [readReg, h]

/-- Reading R15 where `PC_READ_OFFSET` is instantiated. -/
theorem readReg_pc {s : State} {k : Nat} (h : s.cfg.pcReadOffset = some k) :
    readReg s Reg.pc = .ok (s.pc + BitVec.ofNat 32 k) := by simp [readReg, h]

/-! ### Bytes in memory -/

/-- Bytes stored from `a` upwards are read back, and every other address reads as before. -/
theorem State.byteAt_setBytes (s : State) (a : Nat) (bs : List Byte) (j : Nat) :
    (s.setBytes a bs).byteAt j = if a ≤ j ∧ j < a + bs.length then bs.getD (j - a) 0#8 else s.byteAt j := by
  induction bs generalizing s a with
  | nil =>
    have : ¬ (a ≤ j ∧ j < a + ([] : List Byte).length) := by simp
    rw [if_neg this]; rfl
  | cons b bs ih =>
    simp only [State.setBytes, ih, List.length_cons]
    by_cases h1 : a + 1 ≤ j ∧ j < a + 1 + bs.length
    · have h2 : a ≤ j ∧ j < a + (bs.length + 1) := by omega
      rw [if_pos h1, if_pos h2]
      have : j - a = (j - (a + 1)) + 1 := by omega
      rw [this, List.getD_cons_succ]
    · rw [if_neg h1, State.byteAt_setByte]
      by_cases h3 : j = a
      · subst h3; simp
      · have h2 : ¬ (a ≤ j ∧ j < a + (bs.length + 1)) := by omega
        rw [if_neg h3, if_neg h2]

/-- Outside the bytes stored, memory reads as before. -/
theorem State.byteAt_setBytes_outside (s : State) (a : Nat) (bs : List Byte) (j : Nat)
    (h : j < a ∨ a + bs.length ≤ j) : (s.setBytes a bs).byteAt j = s.byteAt j := by
  rw [State.byteAt_setBytes, if_neg (by omega)]

/-- The bytes read from where bytes were stored are the bytes stored. -/
theorem State.bytesAt_setBytes (s : State) (a : Nat) (bs : List Byte) :
    (s.setBytes a bs).bytesAt a bs.length = bs := by
  induction bs generalizing s a with
  | nil => rfl
  | cons b bs ih =>
    simp only [State.setBytes, List.length_cons, State.bytesAt, ih]
    rw [State.byteAt_setBytes_outside _ _ _ _ (by omega), State.byteAt_setByte, if_pos rfl]

/-- Bytes apart from those stored are read as before. -/
theorem State.bytesAt_setBytes_apart (s : State) (a n a' : Nat) (bs : List Byte)
    (h : a' + n ≤ a ∨ a + bs.length ≤ a') : (s.setBytes a bs).bytesAt a' n = s.bytesAt a' n := by
  induction n generalizing a' with
  | zero => rfl
  | succ n ih =>
    simp only [State.bytesAt]
    rw [ih (a' + 1) (by omega), State.byteAt_setBytes_outside _ _ _ _ (by omega)]

@[simp] theorem State.bytesAt_length (s : State) (a n : Nat) : (s.bytesAt a n).length = n := by
  induction n generalizing a with
  | zero => rfl
  | succ n ih => simp [State.bytesAt, ih]

/-- The bytes of a range depend only on memory. -/
theorem State.bytesAt_congr {s t : State} (h : t.mem = s.mem) (a n : Nat) : t.bytesAt a n = s.bytesAt a n := by
  induction n generalizing a with
  | zero => rfl
  | succ n ih => simp [State.bytesAt, ih, State.byteAt_congr s h]

/-! ### Byte order (R62) -/

@[simp] theorem splitLittle_length (n v : Nat) : (splitLittle n v).length = n := by
  induction n generalizing v with
  | zero => rfl
  | succ n ih => simp [splitLittle, ih]

@[simp] theorem splitBytes_length (e : Endian) (n v : Nat) : (splitBytes e n v).length = n := by
  cases e <;> simp [splitBytes]

theorem joinLittle_splitLittle (n v : Nat) : joinLittle (splitLittle n v) = v % 256 ^ n := by
  induction n generalizing v with
  | zero => simp [splitLittle, joinLittle, Nat.mod_one]
  | succ n ih =>
    simp only [splitLittle, joinLittle, ih, BitVec.toNat_ofNat]
    rw [show 256 ^ (n + 1) = 256 * 256 ^ n from Nat.pow_succ', Nat.mod_mul]

/-- A value split into n bytes and joined again is its low n bytes, under either byte order. -/
theorem joinBytes_splitBytes (e : Endian) (n v : Nat) : joinBytes e (splitBytes e n v) = v % 256 ^ n := by
  cases e <;> simp [joinBytes, splitBytes, joinLittle_splitLittle]

/-! ### Loads and stores -/

/-- What was stored is loaded back, cut to its width. -/
theorem State.load_store_self (s : State) (a : Word) (n : Nat) (v : Word) :
    (s.store a n v).load a n = BitVec.ofNat 32 (v.toNat % 256 ^ n) := by
  have h := State.bytesAt_setBytes s a.toNat (splitBytes s.cfg.endian n v.toNat)
  rw [splitBytes_length] at h
  simp only [State.load, State.store_cfg]
  rw [State.store, h, joinBytes_splitBytes]

/-- A store leaves a load of other bytes as it was. -/
theorem State.load_store_apart (s : State) (a a' : Word) (n n' : Nat) (v : Word)
    (h : a'.toNat + n' ≤ a.toNat ∨ a.toNat + n ≤ a'.toNat) : (s.store a n v).load a' n' = s.load a' n' := by
  simp only [State.load, State.store_cfg]
  rw [State.store, State.bytesAt_setBytes_apart _ _ _ _ _ (by simpa using h)]

/-- Outside the n bytes stored, memory reads as before. -/
theorem State.byteAt_store_outside (s : State) (a : Word) (n : Nat) (v : Word) (j : Nat)
    (h : j < a.toNat ∨ a.toNat + n ≤ j) : (s.store a n v).byteAt j = s.byteAt j :=
  State.byteAt_setBytes_outside _ _ _ _ (by simpa using h)

/-- A load depends only on memory and on the byte order. -/
theorem State.load_congr {s t : State} (hm : t.mem = s.mem) (hc : t.cfg = s.cfg) (a : Word) (n : Nat) :
    t.load a n = s.load a n := by simp [State.load, hc, State.bytesAt_congr hm]

/-! ### The checks of an access -/

/-- An access is admitted exactly where it is aligned and mapped. -/
theorem checkAccess_ok (s : State) (k : AccessKind) (a : Word) (n : Nat) (u : Unit) :
    checkAccess s k a n = .ok u ↔ a.toNat % n = 0 ∧ mapped s.cfg k a.toNat n = true := by
  unfold checkAccess
  by_cases h : a.toNat % n = 0
  · by_cases hm : mapped s.cfg k a.toNat n = true <;> simp [h, hm]
  · simp [h]

/-- Bytes miss the program text exactly where none of them lies in it. -/
theorem meetsText_eq_false (cfg : Config) (a n : Nat) :
    meetsText cfg a n = false ↔ ∀ j, a ≤ j → j < a + n → byteInText cfg j = false := by
  simp only [meetsText, List.any_eq_false, List.mem_range, Bool.not_eq_true]
  constructor
  · intro h j h1 h2
    have := h (j - a) (by omega)
    rwa [Nat.add_sub_cancel' h1] at this
  · exact fun h i hi => h (a + i) (by omega) (by omega)

/-- An address lies in the program text exactly where a piece of the text holds it. -/
theorem byteInText_eq_true (cfg : Config) (a : Nat) :
    byteInText cfg a = true ↔ ∃ t ∈ cfg.text, t.base ≤ a ∧ a < t.base + t.size := by
  simp [byteInText]

/-- A load answers exactly where the access is admitted, and changes nothing. -/
theorem memRead_ok (s : State) (a : Word) (n : Nat) (v : Word) :
    memRead s a n = .ok v ↔ a.toNat % n = 0 ∧ mapped s.cfg .read a.toNat n = true ∧ v = s.load a n := by
  unfold memRead
  simp only [bind_ok, checkAccess_ok, pure_eq_ok, Except.ok.injEq, exists_const, and_assoc]
  exact and_congr_right fun _ => and_congr_right fun _ => eq_comm

/-- A store answers exactly where the access is admitted and misses the program text. -/
theorem memWrite_ok (s t : State) (a : Word) (n : Nat) (v : Word) :
    memWrite s a n v = .ok t ↔ a.toNat % n = 0 ∧ mapped s.cfg .write a.toNat n = true ∧
      meetsText s.cfg a.toNat n = false ∧ t = s.store a n v := by
  unfold memWrite
  simp only [bind_ok, checkAccess_ok, refuseIf_ok, pure_eq_ok, Except.ok.injEq, exists_const, and_assoc]
  exact and_congr_right fun _ => and_congr_right fun _ => and_congr_right fun _ => eq_comm

/-- Every word of a block from word j is mapped exactly where the check of the words answers. -/
theorem checkWords_ok (s : State) (k : AccessKind) (start : Word) (j n : Nat) (u : Unit) :
    checkWords s k start j n = .ok u ↔
      ∀ i, j ≤ i → i < j + n → mapped s.cfg k (wordAddr start i).toNat 4 = true := by
  induction n generalizing j with
  | zero =>
    simp only [checkWords, true_iff]
    intro i h1 h2; omega
  | succ n ih =>
    simp only [checkWords]
    by_cases h : mapped s.cfg k (wordAddr start j).toNat 4 = true
    · rw [if_pos h, ih]
      constructor
      · intro hall i h1 h2
        by_cases hi : i = j
        · exact hi ▸ h
        · exact hall i (by omega) (by omega)
      · intro hall i h1 h2
        exact hall i (by omega) (by omega)
    · rw [if_neg h]
      simp only [raiseFault_ne_ok, false_iff]
      exact fun hall => h (hall j (Nat.le_refl j) (by omega))

/-- A block of words is admitted exactly where it stays below the top, is aligned, is mapped and, for a store, misses
the program text. -/
theorem checkBlock_ok (s : State) (k : AccessKind) (start : Word) (n : Nat) (u : Unit) :
    checkBlock s k start n = .ok u ↔
      start.toNat + 4 * n ≤ addressSpace ∧ start.toNat % 4 = 0 ∧
        (∀ i, i < n → mapped s.cfg k (wordAddr start i).toNat 4 = true) ∧
        (k = .write → meetsText s.cfg start.toNat (4 * n) = false) := by
  unfold checkBlock
  by_cases h : start.toNat % 4 = 0
  · simp [bind_ok, checkWords_ok, h, imp_iff_not_or]
  · simp [bind_ok, h]

/-! ### Blocks of words -/

@[simp] theorem State.loadWords_length (s : State) (a : Word) (n : Nat) : (s.loadWords a n).length = n := by
  induction n generalizing a with
  | zero => rfl
  | succ n ih => simp [State.loadWords, ih]

/-- Word j of a block is the word at its address. -/
theorem State.loadWords_getD (s : State) (a : Word) (n j : Nat) (d : Word) (h : j < n) :
    (s.loadWords a n).getD j d = s.load (wordAddr a j) 4 := by
  induction n generalizing a j with
  | zero => omega
  | succ n ih =>
    cases j with
    | zero => simp [State.loadWords, wordAddr]
    | succ j =>
      rw [State.loadWords, List.getD_cons_succ, ih _ _ (by omega)]
      congr 1
      unfold wordAddr
      apply BitVec.eq_of_toNat_eq
      simp only [BitVec.toNat_add, BitVec.toNat_ofNat]
      omega

/-- Outside a block of words stored below the top of the address space, memory reads as before. -/
theorem State.byteAt_storeWords_outside (s : State) (a : Word) (vs : List Word) (j : Nat)
    (htop : a.toNat + 4 * vs.length ≤ addressSpace) (h : j < a.toNat ∨ a.toNat + 4 * vs.length ≤ j) :
    (s.storeWords a vs).byteAt j = s.byteAt j := by
  induction vs generalizing s a with
  | nil => rfl
  | cons v vs ih =>
    simp only [List.length_cons, addressSpace] at htop h ih
    simp only [State.storeWords]
    cases vs with
    | nil =>
      simp only [State.storeWords]
      exact State.byteAt_store_outside _ _ _ _ _ (by simp at h; omega)
    | cons v' vs' =>
      have hnext : (a + 4#32).toNat = a.toNat + 4 := by
        simp only [BitVec.toNat_add, BitVec.toNat_ofNat, List.length_cons] at htop ⊢
        omega
      rw [ih _ _ (by rw [hnext]; omega) (by rw [hnext]; omega)]
      exact State.byteAt_store_outside _ _ _ _ _ (by omega)

/-! ### The canonical forms are kept -/

theorem Memory.wf_cellSet {m : List Host.Cell} {a : Nat} {b : Byte} (h : Memory.wf m = true) (ha : a < addressSpace) :
    Memory.wf (cellSet unlistedByte m a b) = true := by
  simp only [Memory.wf, Bool.and_eq_true, List.all_eq_true, decide_eq_true_eq] at h ⊢
  refine ⟨cellsWf_cellSet _ _ _ _ h.1, fun e he => ?_⟩
  rcases mem_cellSet _ _ _ _ e he with rfl | he
  · exact ha
  · exact h.2 e he

/-- Storing bytes below the top of the address space keeps memory's canonical form. -/
theorem State.setBytes_wf (s : State) (a : Nat) (bs : List Byte) (h : Memory.wf s.mem = true)
    (ha : a + bs.length ≤ addressSpace) : Memory.wf (s.setBytes a bs).mem = true := by
  induction bs generalizing s a with
  | nil => exact h
  | cons b bs ih =>
    simp only [List.length_cons] at ha
    exact ih _ _ (Memory.wf_cellSet h (by omega)) (by omega)

theorem State.store_wf (s : State) (a : Word) (n : Nat) (v : Word) (h : Memory.wf s.mem = true)
    (ha : a.toNat + n ≤ addressSpace) : Memory.wf (s.store a n v).mem = true :=
  State.setBytes_wf _ _ _ h (by simpa using ha)

theorem State.storeWords_wf (s : State) (a : Word) (vs : List Word) (h : Memory.wf s.mem = true)
    (ha : a.toNat + 4 * vs.length ≤ addressSpace) : Memory.wf (s.storeWords a vs).mem = true := by
  induction vs generalizing s a with
  | nil => exact h
  | cons v vs ih =>
    simp only [List.length_cons, addressSpace] at ha ih
    have hfirst := State.store_wf s a 4 v h (by simp only [addressSpace]; omega)
    simp only [State.storeWords]
    cases vs with
    | nil => exact hfirst
    | cons v' vs' =>
      have hnext : (a + 4#32).toNat = a.toNat + 4 := by
        simp only [BitVec.toNat_add, BitVec.toNat_ofNat, List.length_cons] at ha ⊢
        omega
      exact ih _ _ hfirst (by rw [hnext]; omega)

/-- A naturally aligned access lies below the top of the address space. -/
theorem aligned_below_top (a : Word) (n : Nat) (hn : n = 1 ∨ n = 2 ∨ n = 4) (h : a.toNat % n = 0) :
    a.toNat + n ≤ addressSpace := by
  have := a.isLt
  simp only [addressSpace]
  rcases hn with rfl | rfl | rfl <;> omega

/-- A register write keeps the registers' canonical form. -/
theorem State.setPhys_wf (s : State) (k : Nat) (v : Word) (h : Registers.wf s.regs = true) :
    Registers.wf (s.setPhys k v).regs = true := cellsWf_cellSet _ _ _ _ h

end Sys2Proof.Machine
end

