-- ==== Sys2Proof/Laws/Exec.lean ====
section
/-! SUPPORT. What each shared execution can answer, said once, and what the updates it is made of leave unchanged. -/

namespace Sys2Proof.Machine

variable (s t : State)

/-! ### Updates -/

@[simp] theorem applyDp_pc (op : DpOp) (sf : Bool) (rd : Reg) (a : Word) (v : Shifted) :
    (applyDp op sf rd a v s).pc = s.pc := by
  unfold applyDp
  cases writesRd op <;> cases sf <;> rfl

@[simp] theorem applyDp_spsr (op : DpOp) (sf : Bool) (rd : Reg) (a : Word) (v : Shifted) :
    (applyDp op sf rd a v s).spsr = s.spsr := by
  unfold applyDp
  cases writesRd op <;> cases sf <;> rfl

@[simp] theorem applyDp_mem (op : DpOp) (sf : Bool) (rd : Reg) (a : Word) (v : Shifted) :
    (applyDp op sf rd a v s).mem = s.mem := by
  unfold applyDp
  cases writesRd op <;> cases sf <;> rfl

@[simp] theorem applyDp_cpLog (op : DpOp) (sf : Bool) (rd : Reg) (a : Word) (v : Shifted) :
    (applyDp op sf rd a v s).cpLog = s.cpLog := by
  unfold applyDp
  cases writesRd op <;> cases sf <;> rfl

@[simp] theorem applyDp_draws (op : DpOp) (sf : Bool) (rd : Reg) (a : Word) (v : Shifted) :
    (applyDp op sf rd a v s).draws = s.draws := by
  unfold applyDp
  cases writesRd op <;> cases sf <;> rfl

@[simp] theorem applyDp_cfg (op : DpOp) (sf : Bool) (rd : Reg) (a : Word) (v : Shifted) :
    (applyDp op sf rd a v s).cfg = s.cfg := by
  unfold applyDp
  cases writesRd op <;> cases sf <;> rfl

@[simp] theorem applyDp_cpsr (op : DpOp) (sf : Bool) (rd : Reg) (a : Word) (v : Shifted) :
    (applyDp op sf rd a v s).cpsr = if sf then flagsOf (compute op a v s.cpsr) s.cpsr else s.cpsr := by
  unfold applyDp
  cases writesRd op <;> cases sf <;> rfl

@[simp] theorem applyDp_regs (op : DpOp) (sf : Bool) (rd : Reg) (a : Word) (v : Shifted) :
    (applyDp op sf rd a v s).regs =
      if writesRd op then (s.setReg rd (compute op a v s.cpsr).result).regs else s.regs := by
  unfold applyDp
  cases writesRd op <;> cases sf <;> rfl

@[simp] theorem flagsOf_mode (r : Computed) (p : Psr) : (flagsOf r p).mode = p.mode := rfl

@[simp] theorem writeBase_pc (ix : Indexing) (rn : Reg) (v : Word) : (writeBase ix rn v s).pc = s.pc := by
  unfold writeBase; cases writesBack ix <;> rfl

@[simp] theorem writeBase_cpsr (ix : Indexing) (rn : Reg) (v : Word) : (writeBase ix rn v s).cpsr = s.cpsr := by
  unfold writeBase; cases writesBack ix <;> rfl

@[simp] theorem writeBase_spsr (ix : Indexing) (rn : Reg) (v : Word) : (writeBase ix rn v s).spsr = s.spsr := by
  unfold writeBase; cases writesBack ix <;> rfl

@[simp] theorem writeBase_mem (ix : Indexing) (rn : Reg) (v : Word) : (writeBase ix rn v s).mem = s.mem := by
  unfold writeBase; cases writesBack ix <;> rfl

@[simp] theorem writeBase_cpLog (ix : Indexing) (rn : Reg) (v : Word) : (writeBase ix rn v s).cpLog = s.cpLog := by
  unfold writeBase; cases writesBack ix <;> rfl

@[simp] theorem writeBase_draws (ix : Indexing) (rn : Reg) (v : Word) : (writeBase ix rn v s).draws = s.draws := by
  unfold writeBase; cases writesBack ix <;> rfl

@[simp] theorem writeBase_cfg (ix : Indexing) (rn : Reg) (v : Word) : (writeBase ix rn v s).cfg = s.cfg := by
  unfold writeBase; cases writesBack ix <;> rfl

/-- Every physical register after the base was, or was not, written back. -/
theorem phys_writeBase (ix : Indexing) (rn : Reg) (v : Word) (k : Nat) :
    (writeBase ix rn v s).phys k =
      if writesBack ix = true ∧ k = homeOf s.cfg s.cpsr.mode rn then v else s.phys k := by
  unfold writeBase
  cases writesBack ix
  · simp
  · simp [s.phys_setReg]

/-- Writing the base back keeps the registers' canonical form. -/
theorem writeBase_wf (ix : Indexing) (rn : Reg) (v : Word) (h : Registers.wf s.regs = true) : Registers.wf (writeBase ix rn v s).regs = true := by
  unfold writeBase
  cases writesBack ix
  · exact h
  · exact State.setPhys_wf s _ _ h

@[simp] theorem writeBlockBase_pc (wb : Bool) (rn : Reg) (v : Word) : (writeBlockBase wb rn v s).pc = s.pc := by
  unfold writeBlockBase; cases wb <;> rfl

@[simp] theorem writeBlockBase_cpsr (wb : Bool) (rn : Reg) (v : Word) : (writeBlockBase wb rn v s).cpsr = s.cpsr := by
  unfold writeBlockBase; cases wb <;> rfl

@[simp] theorem writeBlockBase_spsr (wb : Bool) (rn : Reg) (v : Word) : (writeBlockBase wb rn v s).spsr = s.spsr := by
  unfold writeBlockBase; cases wb <;> rfl

@[simp] theorem writeBlockBase_mem (wb : Bool) (rn : Reg) (v : Word) : (writeBlockBase wb rn v s).mem = s.mem := by
  unfold writeBlockBase; cases wb <;> rfl

@[simp] theorem writeBlockBase_cpLog (wb : Bool) (rn : Reg) (v : Word) : (writeBlockBase wb rn v s).cpLog = s.cpLog := by
  unfold writeBlockBase; cases wb <;> rfl

@[simp] theorem writeBlockBase_draws (wb : Bool) (rn : Reg) (v : Word) : (writeBlockBase wb rn v s).draws = s.draws := by
  unfold writeBlockBase; cases wb <;> rfl

@[simp] theorem writeBlockBase_cfg (wb : Bool) (rn : Reg) (v : Word) : (writeBlockBase wb rn v s).cfg = s.cfg := by
  unfold writeBlockBase; cases wb <;> rfl

/-- Every physical register after the base was, or was not, written back. -/
theorem phys_writeBlockBase (wb : Bool) (rn : Reg) (v : Word) (k : Nat) :
    (writeBlockBase wb rn v s).phys k =
      if wb = true ∧ k = homeOf s.cfg s.cpsr.mode rn then v else s.phys k := by
  unfold writeBlockBase
  cases wb
  · simp
  · simp [s.phys_setReg]

/-- Writing the base back keeps the registers' canonical form. -/
theorem writeBlockBase_wf (wb : Bool) (rn : Reg) (v : Word) (h : Registers.wf s.regs = true) : Registers.wf (writeBlockBase wb rn v s).regs = true := by
  unfold writeBlockBase
  cases wb
  · exact h
  · exact State.setPhys_wf s _ _ h

@[simp] theorem writeCpBase_pc (ix : Indexing) (rn : Reg) (v : Word) : (writeCpBase ix rn v s).pc = s.pc := by
  unfold writeCpBase; cases cpWritesBack ix <;> rfl

@[simp] theorem writeCpBase_cpsr (ix : Indexing) (rn : Reg) (v : Word) : (writeCpBase ix rn v s).cpsr = s.cpsr := by
  unfold writeCpBase; cases cpWritesBack ix <;> rfl

@[simp] theorem writeCpBase_spsr (ix : Indexing) (rn : Reg) (v : Word) : (writeCpBase ix rn v s).spsr = s.spsr := by
  unfold writeCpBase; cases cpWritesBack ix <;> rfl

@[simp] theorem writeCpBase_mem (ix : Indexing) (rn : Reg) (v : Word) : (writeCpBase ix rn v s).mem = s.mem := by
  unfold writeCpBase; cases cpWritesBack ix <;> rfl

@[simp] theorem writeCpBase_cpLog (ix : Indexing) (rn : Reg) (v : Word) : (writeCpBase ix rn v s).cpLog = s.cpLog := by
  unfold writeCpBase; cases cpWritesBack ix <;> rfl

@[simp] theorem writeCpBase_draws (ix : Indexing) (rn : Reg) (v : Word) : (writeCpBase ix rn v s).draws = s.draws := by
  unfold writeCpBase; cases cpWritesBack ix <;> rfl

@[simp] theorem writeCpBase_cfg (ix : Indexing) (rn : Reg) (v : Word) : (writeCpBase ix rn v s).cfg = s.cfg := by
  unfold writeCpBase; cases cpWritesBack ix <;> rfl

/-- Every physical register after the base was, or was not, written back. -/
theorem phys_writeCpBase (ix : Indexing) (rn : Reg) (v : Word) (k : Nat) :
    (writeCpBase ix rn v s).phys k =
      if cpWritesBack ix = true ∧ k = homeOf s.cfg s.cpsr.mode rn then v else s.phys k := by
  unfold writeCpBase
  cases cpWritesBack ix
  · simp
  · simp [s.phys_setReg]

/-- Writing the base back keeps the registers' canonical form. -/
theorem writeCpBase_wf (ix : Indexing) (rn : Reg) (v : Word) (h : Registers.wf s.regs = true) : Registers.wf (writeCpBase ix rn v s).regs = true := by
  unfold writeCpBase
  cases cpWritesBack ix
  · exact h
  · exact State.setPhys_wf s _ _ h

@[simp] theorem setLsmReg_pc (ub : Bool) (i : Reg) (v : Word) : (setLsmReg ub s i v).pc = s.pc := by
  unfold setLsmReg; cases ub <;> rfl

@[simp] theorem setLsmReg_cpsr (ub : Bool) (i : Reg) (v : Word) : (setLsmReg ub s i v).cpsr = s.cpsr := by
  unfold setLsmReg; cases ub <;> rfl

@[simp] theorem setLsmReg_spsr (ub : Bool) (i : Reg) (v : Word) : (setLsmReg ub s i v).spsr = s.spsr := by
  unfold setLsmReg; cases ub <;> rfl

@[simp] theorem setLsmReg_mem (ub : Bool) (i : Reg) (v : Word) : (setLsmReg ub s i v).mem = s.mem := by
  unfold setLsmReg; cases ub <;> rfl

@[simp] theorem setLsmReg_cpLog (ub : Bool) (i : Reg) (v : Word) : (setLsmReg ub s i v).cpLog = s.cpLog := by
  unfold setLsmReg; cases ub <;> rfl

@[simp] theorem setLsmReg_draws (ub : Bool) (i : Reg) (v : Word) : (setLsmReg ub s i v).draws = s.draws := by
  unfold setLsmReg; cases ub <;> rfl

@[simp] theorem setLsmReg_cfg (ub : Bool) (i : Reg) (v : Word) : (setLsmReg ub s i v).cfg = s.cfg := by
  unfold setLsmReg; cases ub <;> rfl

@[simp] theorem writeRegs_pc (ub : Bool) (l : List (Reg × Word)) : (writeRegs ub s l).pc = s.pc := by
  induction l generalizing s with
  | nil => rfl
  | cons e rest ih =>
    obtain ⟨i, v⟩ := e
    simp only [writeRegs, ih]
    by_cases h : i = Reg.pc <;> simp [h]

@[simp] theorem writeRegs_cpsr (ub : Bool) (l : List (Reg × Word)) : (writeRegs ub s l).cpsr = s.cpsr := by
  induction l generalizing s with
  | nil => rfl
  | cons e rest ih =>
    obtain ⟨i, v⟩ := e
    simp only [writeRegs, ih]
    by_cases h : i = Reg.pc <;> simp [h]

@[simp] theorem writeRegs_spsr (ub : Bool) (l : List (Reg × Word)) : (writeRegs ub s l).spsr = s.spsr := by
  induction l generalizing s with
  | nil => rfl
  | cons e rest ih =>
    obtain ⟨i, v⟩ := e
    simp only [writeRegs, ih]
    by_cases h : i = Reg.pc <;> simp [h]

@[simp] theorem writeRegs_mem (ub : Bool) (l : List (Reg × Word)) : (writeRegs ub s l).mem = s.mem := by
  induction l generalizing s with
  | nil => rfl
  | cons e rest ih =>
    obtain ⟨i, v⟩ := e
    simp only [writeRegs, ih]
    by_cases h : i = Reg.pc <;> simp [h]

@[simp] theorem writeRegs_cpLog (ub : Bool) (l : List (Reg × Word)) : (writeRegs ub s l).cpLog = s.cpLog := by
  induction l generalizing s with
  | nil => rfl
  | cons e rest ih =>
    obtain ⟨i, v⟩ := e
    simp only [writeRegs, ih]
    by_cases h : i = Reg.pc <;> simp [h]

@[simp] theorem writeRegs_draws (ub : Bool) (l : List (Reg × Word)) : (writeRegs ub s l).draws = s.draws := by
  induction l generalizing s with
  | nil => rfl
  | cons e rest ih =>
    obtain ⟨i, v⟩ := e
    simp only [writeRegs, ih]
    by_cases h : i = Reg.pc <;> simp [h]

@[simp] theorem writeRegs_cfg (ub : Bool) (l : List (Reg × Word)) : (writeRegs ub s l).cfg = s.cfg := by
  induction l generalizing s with
  | nil => rfl
  | cons e rest ih =>
    obtain ⟨i, v⟩ := e
    simp only [writeRegs, ih]
    by_cases h : i = Reg.pc <;> simp [h]

/-- Loading registers keeps the registers' canonical form. -/
theorem writeRegs_wf (ub : Bool) (l : List (Reg × Word)) (h : Registers.wf s.regs = true) :
    Registers.wf (writeRegs ub s l).regs = true := by
  induction l generalizing s with
  | nil => exact h
  | cons e rest ih =>
    obtain ⟨i, v⟩ := e
    refine ih _ ?_
    by_cases hi : i = Reg.pc
    · simpa [hi] using h
    · cases ub
      · simpa [hi, setLsmReg] using State.setPhys_wf s (homeOf s.cfg s.cpsr.mode i) v h
      · simpa [hi, setLsmReg] using State.setPhys_wf s (userHome s.cfg i) v h

/-- The physical register a multiple transfer keeps register i in. -/
def transferHome (ub : Bool) (s : State) (i : Reg) : Nat := if ub then userHome s.cfg i else homeOf s.cfg s.cpsr.mode i

theorem phys_setLsmReg (ub : Bool) (i : Reg) (v : Word) (k : Nat) :
    (setLsmReg ub s i v).phys k = if k = transferHome ub s i then v else s.phys k := by
  unfold setLsmReg transferHome
  cases ub
  · simpa using s.phys_setReg k i v
  · simpa using s.phys_setUsrReg k i v

/-- A physical register that is that of no entry but R15's is not loaded. -/
theorem phys_writeRegs_other (ub : Bool) (l : List (Reg × Word)) (k : Nat)
    (h : ∀ e ∈ l, e.1 ≠ Reg.pc → k ≠ transferHome ub s e.1) : (writeRegs ub s l).phys k = s.phys k := by
  induction l generalizing s with
  | nil => rfl
  | cons e rest ih =>
    obtain ⟨i, v⟩ := e
    simp only [writeRegs]
    by_cases hi : i = Reg.pc
    · rw [if_pos hi]
      exact ih s fun e he => h e (by simp [he])
    · rw [if_neg hi, ih, phys_setLsmReg, if_neg (h (i, v) (by simp) hi)]
      intro e he hpc
      simpa [transferHome] using h e (by simp [he]) hpc

/-- A loaded register keeps its word where no later entry lies in the same physical register. -/
theorem phys_writeRegs_last (ub : Bool) (l l' : List (Reg × Word)) (i : Reg) (v : Word) (hi : i ≠ Reg.pc)
    (h : ∀ e ∈ l', e.1 ≠ Reg.pc → transferHome ub s i ≠ transferHome ub s e.1) :
    (writeRegs ub s (l ++ (i, v) :: l')).phys (transferHome ub s i) = v := by
  induction l generalizing s with
  | nil =>
    have hsame : ∀ j, transferHome ub (setLsmReg ub s i v) j = transferHome ub s j := fun j => by simp [transferHome]
    simp only [List.nil_append, writeRegs, if_neg hi]
    rw [phys_writeRegs_other _ _ _ _ (by simpa [hsame] using h), phys_setLsmReg, if_pos rfl]
  | cons e rest ih =>
    obtain ⟨j, w⟩ := e
    simp only [List.cons_append, writeRegs]
    by_cases hj : j = Reg.pc
    · rw [if_pos hj]; exact ih s h
    · rw [if_neg hj]
      have hsame : ∀ r, transferHome ub (setLsmReg ub s j w) r = transferHome ub s r := fun r => by simp [transferHome]
      have := ih (setLsmReg ub s j w) (by simpa [hsame] using h)
      rwa [hsame] at this

/-! ### The shared executions -/

/-- What a data-processing instruction can answer (R140). -/
theorem execDp_next (op : DpOp) (c : Cond) (sf : Bool) (rn rd : Reg) (op2 : Operand2) :
    execDp op c sf rn rd op2 s = .next t ↔
      (conditionPassed c s.cpsr = true ∧ r15InRegisterShift op2 rn rd = false ∧
        (writesRd op && rd == Reg.pc) = false ∧
        ∃ a, firstOperand op s rn = .ok a ∧ ∃ v, evalOperand2 s op2 = .ok v ∧
          advance (applyDp op sf rd a v s) = .ok t) ∨
      (conditionPassed c s.cpsr = false ∧ advance s = .ok t) := by
  unfold execDp checkDpRegs
  rw [execute_next]
  simp only [bind_ok, unpredictableIf_ok, refuseIf_ok, true_and, exists_const]
  constructor
  · rintro (⟨hc, ⟨_, h⟩, h'⟩ | h)
    · exact .inl ⟨hc, by assumption, h, h'⟩
    · exact .inr h
  · rintro (⟨hc, h1, h2, h3⟩ | h)
    · exact .inl ⟨hc, ⟨h1, h2⟩, h3⟩
    · exact .inr h

/-- What the access and commit of a load can answer. -/
theorem transfer_load_ok {op : LsOp} (hop : isLoad op = true) (ix : Indexing) (rn rd : Reg) (a wb : Word) :
    transfer op ix rn rd a wb s = .ok t ↔
      a.toNat % accessSize op = 0 ∧ mapped s.cfg .read a.toNat (accessSize op) = true ∧
        t = writeBase ix rn wb (s.setReg rd (extendLoaded op (s.load a (accessSize op)))) := by
  unfold transfer
  rw [if_pos hop]
  simp only [bind_ok, memRead_ok, pure_eq_ok, Except.ok.injEq]
  constructor
  · rintro ⟨v, ⟨h1, h2, rfl⟩, rfl⟩
    exact ⟨h1, h2, rfl⟩
  · rintro ⟨h1, h2, rfl⟩
    exact ⟨_, ⟨h1, h2, rfl⟩, rfl⟩

/-- What the access and commit of a store can answer. -/
theorem transfer_store_ok {op : LsOp} (hop : isLoad op = false) (ix : Indexing) (rn rd : Reg) (a wb : Word) :
    transfer op ix rn rd a wb s = .ok t ↔
      a.toNat % accessSize op = 0 ∧ mapped s.cfg .write a.toNat (accessSize op) = true ∧
        meetsText s.cfg a.toNat (accessSize op) = false ∧
        t = writeBase ix rn wb (s.store a (accessSize op) (s.reg rd)) := by
  unfold transfer
  rw [if_neg (by simp [hop])]
  simp only [bind_ok, memWrite_ok, pure_eq_ok, Except.ok.injEq]
  constructor
  · rintro ⟨v, ⟨h1, h2, h3, rfl⟩, rfl⟩
    exact ⟨h1, h2, h3, rfl⟩
  · rintro ⟨h1, h2, h3, rfl⟩
    exact ⟨_, ⟨h1, h2, h3, rfl⟩, rfl⟩

/-- What a single Load/Store can answer (R184 to R189, R220). -/
theorem execLs_next (op : LsOp) (chk : Except Stop Unit) (c : Cond) (ix : Indexing) (up : Bool) (rn rd : Reg)
    (off : Offset) :
    execLs op chk c ix up rn rd off s = .next t ↔
      (ix = .unlisted → s.cfg.p0w0 = .postindexWriteback) ∧
      ((conditionPassed c s.cpsr = true ∧ chk = .ok () ∧ (writesBack ix && rd == rn) = false ∧ (rd == Reg.pc) = false ∧
        (writesBack ix && rn == Reg.pc) = false ∧
        ∃ base, readReg s rn = .ok base ∧ ∃ offset, evalOffset s off = .ok offset ∧
          ∃ u, transfer op ix rn rd (accessAddress ix up base offset) (indexed up base offset) s = .ok u ∧
            advance u = .ok t) ∨
      (conditionPassed c s.cpsr = false ∧ advance s = .ok t)) := by
  unfold execLs checkP0W0 checkTransferRegs
  rw [execute_next]
  have hp : (decide (ix = .unlisted) && decide (s.cfg.p0w0 = .refuse)) = false ↔
      (ix = .unlisted → s.cfg.p0w0 = .postindexWriteback) := by
    cases ix <;> cases s.cfg.p0w0 <;> simp
  rw [refuseIf_ok, hp]
  refine and_congr_right fun _ => or_congr_left (and_congr_right fun _ => ?_)
  simp only [bind_ok, unpredictableIf_ok, refuseIf_ok, exists_const]
  constructor
  · rintro ⟨u, hchk, ⟨_, h1, h2⟩, h3⟩
    exact ⟨hchk, by assumption, h1, h2, h3⟩
  · rintro ⟨hchk, h1, h2, h3, h4⟩
    exact ⟨(), hchk, ⟨h1, h2, h3⟩, h4⟩

/-- When the corner cases of a multiple transfer are all absent (R266, R271). -/
theorem checkLsm_ok (load user wb : Bool) (rn : Reg) (list : BitVec 16) (u : Unit) :
    checkLsm load user wb rn list s = .ok u ↔
      list ≠ 0#16 ∧ rn ≠ Reg.pc ∧ (inList list rn && wb) = false ∧ (!load && inList list Reg.pc) = false ∧
        (user && wb && !inList list Reg.pc) = false ∧ (user && singleMode s.cfg) = false ∧
        (user && inList list Reg.pc && !hasSpsr s.cfg s.cpsr.mode) = false := by
  unfold checkLsm
  simp only [bind_ok, unpredictableIf_ok, refuseIf_ok, exists_const, beq_eq_false_iff_ne]

/-- What an LDM can answer (R260, R263, R265 to R268). -/
theorem execLdm_next (c : Cond) (before up user wb : Bool) (rn : Reg) (list : BitVec 16) :
    execLdm c before up user wb rn list s = .next t ↔
      (conditionPassed c s.cpsr = true ∧ checkLsm true user wb rn list s = .ok () ∧
        checkBlock s .read (blockStart before up (s.reg rn) (countOf list)) (countOf list) = .ok () ∧
        leaveLdm user list (s.load (wordAddr (blockStart before up (s.reg rn) (countOf list)) (countOf list - 1)) 4)
          (writeBlockBase wb rn (blockEnd up (s.reg rn) (countOf list))
            (writeRegs (usesUserBank user list) s ((regsOf list).zip
              (s.loadWords (blockStart before up (s.reg rn) (countOf list)) (countOf list))))) = .ok t) ∨
      (conditionPassed c s.cpsr = false ∧ advance s = .ok t) := by
  unfold execLdm
  rw [execute_next]
  simp only [bind_ok, true_and]
  constructor
  · rintro (⟨hc, _, h1, _, h2, h3⟩ | h)
    · exact .inl ⟨hc, h1, h2, h3⟩
    · exact .inr h
  · rintro (⟨hc, h1, h2, h3⟩ | h)
    · exact .inl ⟨hc, (), h1, (), h2, h3⟩
    · exact .inr h

/-- What an STM can answer (R260, R264, R265, R267). -/
theorem execStm_next (c : Cond) (before up user wb : Bool) (rn : Reg) (list : BitVec 16) :
    execStm c before up user wb rn list s = .next t ↔
      (conditionPassed c s.cpsr = true ∧ checkLsm false user wb rn list s = .ok () ∧
        checkBlock s .write (blockStart before up (s.reg rn) (countOf list)) (countOf list) = .ok () ∧
        advance (writeBlockBase wb rn (blockEnd up (s.reg rn) (countOf list))
          (s.storeWords (blockStart before up (s.reg rn) (countOf list))
            ((regsOf list).map fun i => lsmReg (usesUserBank user list) s i))) = .ok t) ∨
      (conditionPassed c s.cpsr = false ∧ advance s = .ok t) := by
  unfold execStm
  rw [execute_next]
  simp only [bind_ok, true_and]
  constructor
  · rintro (⟨hc, _, h1, _, h2, h3⟩ | h)
    · exact .inl ⟨hc, h1, h2, h3⟩
    · exact .inr h
  · rintro (⟨hc, h1, h2, h3⟩ | h)
    · exact .inl ⟨hc, (), h1, (), h2, h3⟩
    · exact .inr h

/-- How an LDM can leave (R266, R268). -/
theorem leaveLdm_ok (user : Bool) (list : BitVec 16) (w : Word) :
    leaveLdm user list w s = .ok t ↔
      (inList list Reg.pc = true ∧ w.toNat % 4 = 0 ∧ t = { (if user then s.restoreStatus else s) with pc := w }) ∨
      (inList list Reg.pc = false ∧ advance s = .ok t) := by
  unfold leaveLdm loadPc
  cases h : inList list Reg.pc
  · simp
  · by_cases hw : w.toNat % 4 = 0
    · simp [hw, eq_comm]
    · simp [hw]

@[simp] theorem checkPresent_ok (cfg : Config) (cp : BitVec 4) (w : Word) (u : Unit) :
    checkPresent cfg cp w = .ok u ↔ cfg.coprocs.contains cp = true := by
  unfold checkPresent
  cases cfg.coprocs.contains cp <;> simp

/-- The words of a drawn store are as many as drawn. -/
@[simp] theorem drawnWords_length (k : Nat) : (drawnWords k).length = drawnCount k := by simp [drawnWords]

/-- A draw is of 1 to 16 words (R303). -/
theorem drawnCount_range (k : Nat) : 1 ≤ drawnCount k ∧ drawnCount k ≤ 16 := by
  unfold drawnCount
  have := (Config.coprocCount k).isLt
  omega

/-- What a coprocessor load can answer (R300, R307). -/
theorem execCp_load_next (w : Word) (c : Cond) (ix : Indexing) (up n : Bool) (rn crd cp : Reg) (low : BitVec 8) :
    execCp true w c ix up n rn crd cp low s = .next t ↔
      s.cfg.coprocs.contains cp = true ∧
      ((conditionPassed c s.cpsr = true ∧ (cpWritesBack ix && rn == Reg.pc) = false ∧
        ∃ base, readReg s rn = .ok base ∧
          checkBlock s .read (cpFirst ix up base low) (drawnCount s.draws) = .ok () ∧
          advance (writeCpBase ix rn (indexed up base (cpOffset low))
            (s.noteTransfer ⟨true, cp, crd, n, cpOption ix low,
              s.loadWords (cpFirst ix up base low) (drawnCount s.draws)⟩)) = .ok t) ∨
      (conditionPassed c s.cpsr = false ∧ advance s = .ok t)) := by
  unfold execCp
  rw [execute_next]
  simp only [checkPresent_ok, bind_ok, refuseIf_ok, exists_const, if_true]
  refine and_congr_right fun _ => or_congr_left (and_congr_right fun _ => and_congr_right fun _ => ?_)
  exact exists_congr fun _ => and_congr_right fun _ => ⟨fun ⟨_, h⟩ => h, fun h => ⟨(), h⟩⟩

/-- What a coprocessor store can answer (R300, R308). -/
theorem execCp_store_next (w : Word) (c : Cond) (ix : Indexing) (up n : Bool) (rn crd cp : Reg) (low : BitVec 8) :
    execCp false w c ix up n rn crd cp low s = .next t ↔
      s.cfg.coprocs.contains cp = true ∧
      ((conditionPassed c s.cpsr = true ∧ (cpWritesBack ix && rn == Reg.pc) = false ∧
        ∃ base, readReg s rn = .ok base ∧
          checkBlock s .write (cpFirst ix up base low) (drawnCount s.draws) = .ok () ∧
          advance (writeCpBase ix rn (indexed up base (cpOffset low))
            ((s.storeWords (cpFirst ix up base low) (drawnWords s.draws)).noteTransfer
              ⟨false, cp, crd, n, cpOption ix low, drawnWords s.draws⟩)) = .ok t) ∨
      (conditionPassed c s.cpsr = false ∧ advance s = .ok t)) := by
  unfold execCp
  rw [execute_next]
  simp only [checkPresent_ok, bind_ok, refuseIf_ok, exists_const, Bool.false_eq_true, if_false]
  refine and_congr_right fun _ => or_congr_left (and_congr_right fun _ => and_congr_right fun _ => ?_)
  exact exists_congr fun _ => and_congr_right fun _ => ⟨fun ⟨_, h⟩ => h, fun h => ⟨(), h⟩⟩

/-! ### The step -/

/-- What a fetch can answer: nothing halts the run, the pc is aligned and mapped, and the word is an instruction. -/
theorem fetch_ok (i : Instr) :
    fetch s = .ok i ↔
      halted s = false ∧ s.pc.toNat % 4 = 0 ∧ mapped s.cfg .fetch s.pc.toNat 4 = true ∧
        decode (fetchedWord s) = .ok i := by
  unfold fetch
  by_cases ha : s.pc.toNat % 4 = 0
  · by_cases hm : mapped s.cfg .fetch s.pc.toNat 4 = true
    · cases hd : decode (fetchedWord s) <;> simp [bind_ok, ha, hm]
    · simp [bind_ok, ha, hm]
  · simp [bind_ok, ha]

/-- A step answers a next state exactly where an instruction is fetched and its execution answers that state. -/
theorem step_next : step s = .next t ↔ ∃ i, fetch s = .ok i ∧ exec i s = .next t := by
  unfold step
  cases h : fetch s with
  | ok i => simp
  | error e => rcases e with _ | _ <;> simp

end Sys2Proof.Machine
end

