-- ==== Sys2Proof/Laws/PerInstr.lean ====
section
/-! SUPPORT. Per instruction: the encoder's word lies in the instruction's row of spec/opcode_table.json, under the
row's own `match` and `mask`. -/

namespace Sys2Proof

/-- The word of a well-formed instruction has, under its row's mask, its row's fixed bits. -/
def Laws.InRow.Statement (i : Instr) : Prop := i.wf = true → encode i &&& i.row.mask = i.row.pattern

theorem Laws.InRow.movImm : ∀ c s rd rotate4 immed8, Laws.InRow.Statement (.movImm c s rd rotate4 immed8) := by
  intro c s rd rotate4 immed8 _
  show encodeDp c 0b1101#4 s 0#4 rd (.imm rotate4 immed8) &&& 0x0FEF0000#32 = 0x03A00000#32
  simp (disch := decide) only [encodeDp, encodeOperand2, placeBit, or_and_distrib,
    place_and_out, place_and_in]
  decide

theorem Laws.InRow.movShiftImm : ∀ c s rd amount ty rm, Laws.InRow.Statement (.movShiftImm c s rd amount ty rm) := by
  intro c s rd amount ty rm _
  show encodeDp c 0b1101#4 s 0#4 rd (.shiftImm amount ty rm) &&& 0x0FEF0010#32 = 0x01A00000#32
  simp (disch := decide) only [encodeDp, encodeOperand2, placeBit, or_and_distrib,
    place_and_out, place_and_in]
  decide

theorem Laws.InRow.movShiftReg : ∀ c s rd rs ty rm, Laws.InRow.Statement (.movShiftReg c s rd rs ty rm) := by
  intro c s rd rs ty rm _
  show encodeDp c 0b1101#4 s 0#4 rd (.shiftReg rs ty rm) &&& 0x0FEF0090#32 = 0x01A00010#32
  simp (disch := decide) only [encodeDp, encodeOperand2, placeBit, or_and_distrib,
    place_and_out, place_and_in]
  decide

theorem Laws.InRow.addImm : ∀ c s rn rd rotate4 immed8, Laws.InRow.Statement (.addImm c s rn rd rotate4 immed8) := by
  intro c s rn rd rotate4 immed8 _
  show encodeDp c 0b0100#4 s rn rd (.imm rotate4 immed8) &&& 0x0FE00000#32 = 0x02800000#32
  simp (disch := decide) only [encodeDp, encodeOperand2, placeBit, or_and_distrib,
    place_and_out, place_and_in]
  decide

theorem Laws.InRow.addShiftImm : ∀ c s rn rd amount ty rm, Laws.InRow.Statement (.addShiftImm c s rn rd amount ty rm) := by
  intro c s rn rd amount ty rm _
  show encodeDp c 0b0100#4 s rn rd (.shiftImm amount ty rm) &&& 0x0FE00010#32 = 0x00800000#32
  simp (disch := decide) only [encodeDp, encodeOperand2, placeBit, or_and_distrib,
    place_and_out, place_and_in]
  decide

theorem Laws.InRow.addShiftReg : ∀ c s rn rd rs ty rm, Laws.InRow.Statement (.addShiftReg c s rn rd rs ty rm) := by
  intro c s rn rd rs ty rm _
  show encodeDp c 0b0100#4 s rn rd (.shiftReg rs ty rm) &&& 0x0FE00090#32 = 0x00800010#32
  simp (disch := decide) only [encodeDp, encodeOperand2, placeBit, or_and_distrib,
    place_and_out, place_and_in]
  decide

theorem Laws.InRow.cmpImm : ∀ c rn rotate4 immed8, Laws.InRow.Statement (.cmpImm c rn rotate4 immed8) := by
  intro c rn rotate4 immed8 _
  show encodeDp c 0b1010#4 true rn 0#4 (.imm rotate4 immed8) &&& 0x0FF0F000#32 = 0x03500000#32
  simp (disch := decide) only [encodeDp, encodeOperand2, placeBit, or_and_distrib,
    place_and_out, place_and_in]
  decide

theorem Laws.InRow.cmpShiftImm : ∀ c rn amount ty rm, Laws.InRow.Statement (.cmpShiftImm c rn amount ty rm) := by
  intro c rn amount ty rm _
  show encodeDp c 0b1010#4 true rn 0#4 (.shiftImm amount ty rm) &&& 0x0FF0F010#32 = 0x01500000#32
  simp (disch := decide) only [encodeDp, encodeOperand2, placeBit, or_and_distrib,
    place_and_out, place_and_in]
  decide

theorem Laws.InRow.cmpShiftReg : ∀ c rn rs ty rm, Laws.InRow.Statement (.cmpShiftReg c rn rs ty rm) := by
  intro c rn rs ty rm _
  show encodeDp c 0b1010#4 true rn 0#4 (.shiftReg rs ty rm) &&& 0x0FF0F090#32 = 0x01500010#32
  simp (disch := decide) only [encodeDp, encodeOperand2, placeBit, or_and_distrib,
    place_and_out, place_and_in]
  decide

theorem Laws.InRow.andDp : ∀ c s rn rd op2, Laws.InRow.Statement (.andDp c s rn rd op2) := by
  intro c s rn rd op2 _
  show encodeDp c 0b0000#4 s rn rd op2 &&& 0x0DE00000#32 = 0x00000000#32
  simp (disch := decide) only [encodeDp, placeBit, or_and_distrib,
    place_and_out, place_and_in, encodeOperand2_and_out]
  decide

theorem Laws.InRow.eorDp : ∀ c s rn rd op2, Laws.InRow.Statement (.eorDp c s rn rd op2) := by
  intro c s rn rd op2 _
  show encodeDp c 0b0001#4 s rn rd op2 &&& 0x0DE00000#32 = 0x00200000#32
  simp (disch := decide) only [encodeDp, placeBit, or_and_distrib,
    place_and_out, place_and_in, encodeOperand2_and_out]
  decide

theorem Laws.InRow.subDp : ∀ c s rn rd op2, Laws.InRow.Statement (.subDp c s rn rd op2) := by
  intro c s rn rd op2 _
  show encodeDp c 0b0010#4 s rn rd op2 &&& 0x0DE00000#32 = 0x00400000#32
  simp (disch := decide) only [encodeDp, placeBit, or_and_distrib,
    place_and_out, place_and_in, encodeOperand2_and_out]
  decide

theorem Laws.InRow.rsbDp : ∀ c s rn rd op2, Laws.InRow.Statement (.rsbDp c s rn rd op2) := by
  intro c s rn rd op2 _
  show encodeDp c 0b0011#4 s rn rd op2 &&& 0x0DE00000#32 = 0x00600000#32
  simp (disch := decide) only [encodeDp, placeBit, or_and_distrib,
    place_and_out, place_and_in, encodeOperand2_and_out]
  decide

theorem Laws.InRow.adcDp : ∀ c s rn rd op2, Laws.InRow.Statement (.adcDp c s rn rd op2) := by
  intro c s rn rd op2 _
  show encodeDp c 0b0101#4 s rn rd op2 &&& 0x0DE00000#32 = 0x00A00000#32
  simp (disch := decide) only [encodeDp, placeBit, or_and_distrib,
    place_and_out, place_and_in, encodeOperand2_and_out]
  decide

theorem Laws.InRow.sbcDp : ∀ c s rn rd op2, Laws.InRow.Statement (.sbcDp c s rn rd op2) := by
  intro c s rn rd op2 _
  show encodeDp c 0b0110#4 s rn rd op2 &&& 0x0DE00000#32 = 0x00C00000#32
  simp (disch := decide) only [encodeDp, placeBit, or_and_distrib,
    place_and_out, place_and_in, encodeOperand2_and_out]
  decide

theorem Laws.InRow.rscDp : ∀ c s rn rd op2, Laws.InRow.Statement (.rscDp c s rn rd op2) := by
  intro c s rn rd op2 _
  show encodeDp c 0b0111#4 s rn rd op2 &&& 0x0DE00000#32 = 0x00E00000#32
  simp (disch := decide) only [encodeDp, placeBit, or_and_distrib,
    place_and_out, place_and_in, encodeOperand2_and_out]
  decide

theorem Laws.InRow.tstDp : ∀ c rn sbz op2, Laws.InRow.Statement (.tstDp c rn sbz op2) := by
  intro c rn sbz op2 _
  show encodeDp c 0b1000#4 true rn sbz op2 &&& 0x0DF00000#32 = 0x01100000#32
  simp (disch := decide) only [encodeDp, placeBit, or_and_distrib,
    place_and_out, place_and_in, encodeOperand2_and_out]
  decide

theorem Laws.InRow.teqDp : ∀ c rn sbz op2, Laws.InRow.Statement (.teqDp c rn sbz op2) := by
  intro c rn sbz op2 _
  show encodeDp c 0b1001#4 true rn sbz op2 &&& 0x0DF00000#32 = 0x01300000#32
  simp (disch := decide) only [encodeDp, placeBit, or_and_distrib,
    place_and_out, place_and_in, encodeOperand2_and_out]
  decide

theorem Laws.InRow.cmnDp : ∀ c rn sbz op2, Laws.InRow.Statement (.cmnDp c rn sbz op2) := by
  intro c rn sbz op2 _
  show encodeDp c 0b1011#4 true rn sbz op2 &&& 0x0DF00000#32 = 0x01700000#32
  simp (disch := decide) only [encodeDp, placeBit, or_and_distrib,
    place_and_out, place_and_in, encodeOperand2_and_out]
  decide

theorem Laws.InRow.orrDp : ∀ c s rn rd op2, Laws.InRow.Statement (.orrDp c s rn rd op2) := by
  intro c s rn rd op2 _
  show encodeDp c 0b1100#4 s rn rd op2 &&& 0x0DE00000#32 = 0x01800000#32
  simp (disch := decide) only [encodeDp, placeBit, or_and_distrib,
    place_and_out, place_and_in, encodeOperand2_and_out]
  decide

theorem Laws.InRow.bicDp : ∀ c s rn rd op2, Laws.InRow.Statement (.bicDp c s rn rd op2) := by
  intro c s rn rd op2 _
  show encodeDp c 0b1110#4 s rn rd op2 &&& 0x0DE00000#32 = 0x01C00000#32
  simp (disch := decide) only [encodeDp, placeBit, or_and_distrib,
    place_and_out, place_and_in, encodeOperand2_and_out]
  decide

theorem Laws.InRow.mvnDp : ∀ c s sbz rd op2, Laws.InRow.Statement (.mvnDp c s sbz rd op2) := by
  intro c s sbz rd op2 _
  show encodeDp c 0b1111#4 s sbz rd op2 &&& 0x0DE00000#32 = 0x01E00000#32
  simp (disch := decide) only [encodeDp, placeBit, or_and_distrib,
    place_and_out, place_and_in, encodeOperand2_and_out]
  decide

theorem Laws.InRow.ldrImm : ∀ c ix up rn rd offset, Laws.InRow.Statement (.ldrImm c ix up rn rd offset) := by
  intro c ix up rn rd offset _
  show encodeLsImm c ix up false true rn rd offset &&& 0x0E500000#32 = 0x04100000#32
  simp (disch := decide) only [encodeLsImm, encodeLs, placeBit, or_and_distrib,
    place_and_out, place_and_in]
  decide

theorem Laws.InRow.ldrReg : ∀ c ix up rn rd amount ty rm, Laws.InRow.Statement (.ldrReg c ix up rn rd amount ty rm) := by
  intro c ix up rn rd amount ty rm _
  show encodeLsReg c ix up false true rn rd amount ty rm &&& 0x0E500010#32 = 0x06100000#32
  simp (disch := decide) only [encodeLsReg, encodeLs, placeBit, or_and_distrib,
    place_and_out, place_and_in]
  decide

theorem Laws.InRow.strImm : ∀ c ix up rn rd offset, Laws.InRow.Statement (.strImm c ix up rn rd offset) := by
  intro c ix up rn rd offset _
  show encodeLsImm c ix up false false rn rd offset &&& 0x0E500000#32 = 0x04000000#32
  simp (disch := decide) only [encodeLsImm, encodeLs, placeBit, or_and_distrib,
    place_and_out, place_and_in]
  decide

theorem Laws.InRow.strReg : ∀ c ix up rn rd amount ty rm, Laws.InRow.Statement (.strReg c ix up rn rd amount ty rm) := by
  intro c ix up rn rd amount ty rm _
  show encodeLsReg c ix up false false rn rd amount ty rm &&& 0x0E500010#32 = 0x06000000#32
  simp (disch := decide) only [encodeLsReg, encodeLs, placeBit, or_and_distrib,
    place_and_out, place_and_in]
  decide

theorem Laws.InRow.ldrbImm : ∀ c ix up rn rd offset, Laws.InRow.Statement (.ldrbImm c ix up rn rd offset) := by
  intro c ix up rn rd offset _
  show encodeLsImm c ix up true true rn rd offset &&& 0x0E500000#32 = 0x04500000#32
  simp (disch := decide) only [encodeLsImm, encodeLs, placeBit, or_and_distrib,
    place_and_out, place_and_in]
  decide

theorem Laws.InRow.ldrbReg : ∀ c ix up rn rd amount ty rm, Laws.InRow.Statement (.ldrbReg c ix up rn rd amount ty rm) := by
  intro c ix up rn rd amount ty rm _
  show encodeLsReg c ix up true true rn rd amount ty rm &&& 0x0E500010#32 = 0x06500000#32
  simp (disch := decide) only [encodeLsReg, encodeLs, placeBit, or_and_distrib,
    place_and_out, place_and_in]
  decide

theorem Laws.InRow.strbImm : ∀ c ix up rn rd offset, Laws.InRow.Statement (.strbImm c ix up rn rd offset) := by
  intro c ix up rn rd offset _
  show encodeLsImm c ix up true false rn rd offset &&& 0x0E500000#32 = 0x04400000#32
  simp (disch := decide) only [encodeLsImm, encodeLs, placeBit, or_and_distrib,
    place_and_out, place_and_in]
  decide

theorem Laws.InRow.strbReg : ∀ c ix up rn rd amount ty rm, Laws.InRow.Statement (.strbReg c ix up rn rd amount ty rm) := by
  intro c ix up rn rd amount ty rm _
  show encodeLsReg c ix up true false rn rd amount ty rm &&& 0x0E500010#32 = 0x06400000#32
  simp (disch := decide) only [encodeLsReg, encodeLs, placeBit, or_and_distrib,
    place_and_out, place_and_in]
  decide

theorem Laws.InRow.ldrhImm : ∀ c ix up rn rd offsetH offsetL, Laws.InRow.Statement (.ldrhImm c ix up rn rd offsetH offsetL) := by
  intro c ix up rn rd offsetH offsetL _
  show encodeMisc c ix up true true false true rn rd offsetH offsetL &&& 0x0E5000F0#32 = 0x005000B0#32
  simp (disch := decide) only [encodeMisc, encodeLs, placeBit, or_and_distrib,
    place_and_out, place_and_in]
  decide

theorem Laws.InRow.ldrhReg : ∀ c ix up rn rd rm, Laws.InRow.Statement (.ldrhReg c ix up rn rd rm) := by
  intro c ix up rn rd rm _
  show encodeMisc c ix up false true false true rn rd 0#4 rm &&& 0x0E500FF0#32 = 0x001000B0#32
  simp (disch := decide) only [encodeMisc, encodeLs, placeBit, or_and_distrib,
    place_and_out, place_and_in]
  decide

theorem Laws.InRow.ldrsbImm : ∀ c ix up rn rd offsetH offsetL, Laws.InRow.Statement (.ldrsbImm c ix up rn rd offsetH offsetL) := by
  intro c ix up rn rd offsetH offsetL _
  show encodeMisc c ix up true true true false rn rd offsetH offsetL &&& 0x0E5000F0#32 = 0x005000D0#32
  simp (disch := decide) only [encodeMisc, encodeLs, placeBit, or_and_distrib,
    place_and_out, place_and_in]
  decide

theorem Laws.InRow.ldrsbReg : ∀ c ix up rn rd rm, Laws.InRow.Statement (.ldrsbReg c ix up rn rd rm) := by
  intro c ix up rn rd rm _
  show encodeMisc c ix up false true true false rn rd 0#4 rm &&& 0x0E500FF0#32 = 0x001000D0#32
  simp (disch := decide) only [encodeMisc, encodeLs, placeBit, or_and_distrib,
    place_and_out, place_and_in]
  decide

theorem Laws.InRow.ldrshImm : ∀ c ix up rn rd offsetH offsetL, Laws.InRow.Statement (.ldrshImm c ix up rn rd offsetH offsetL) := by
  intro c ix up rn rd offsetH offsetL _
  show encodeMisc c ix up true true true true rn rd offsetH offsetL &&& 0x0E5000F0#32 = 0x005000F0#32
  simp (disch := decide) only [encodeMisc, encodeLs, placeBit, or_and_distrib,
    place_and_out, place_and_in]
  decide

theorem Laws.InRow.ldrshReg : ∀ c ix up rn rd rm, Laws.InRow.Statement (.ldrshReg c ix up rn rd rm) := by
  intro c ix up rn rd rm _
  show encodeMisc c ix up false true true true rn rd 0#4 rm &&& 0x0E500FF0#32 = 0x001000F0#32
  simp (disch := decide) only [encodeMisc, encodeLs, placeBit, or_and_distrib,
    place_and_out, place_and_in]
  decide

theorem Laws.InRow.strhImm : ∀ c ix up rn rd offsetH offsetL, Laws.InRow.Statement (.strhImm c ix up rn rd offsetH offsetL) := by
  intro c ix up rn rd offsetH offsetL _
  show encodeMisc c ix up true false false true rn rd offsetH offsetL &&& 0x0E5000F0#32 = 0x004000B0#32
  simp (disch := decide) only [encodeMisc, encodeLs, placeBit, or_and_distrib,
    place_and_out, place_and_in]
  decide

theorem Laws.InRow.strhReg : ∀ c ix up rn rd rm, Laws.InRow.Statement (.strhReg c ix up rn rd rm) := by
  intro c ix up rn rd rm _
  show encodeMisc c ix up false false false true rn rd 0#4 rm &&& 0x0E500FF0#32 = 0x000000B0#32
  simp (disch := decide) only [encodeMisc, encodeLs, placeBit, or_and_distrib,
    place_and_out, place_and_in]
  decide

theorem Laws.InRow.ldm : ∀ c before up user wb rn list, Laws.InRow.Statement (.ldm c before up user wb rn list) := by
  intro c before up user wb rn list _
  show encodeLsm c before up user wb true rn list &&& 0x0E100000#32 = 0x08100000#32
  simp (disch := decide) only [encodeLsm, placeBit, or_and_distrib,
    place_and_out, place_and_in]
  decide

theorem Laws.InRow.stm : ∀ c before up user wb rn list, Laws.InRow.Statement (.stm c before up user wb rn list) := by
  intro c before up user wb rn list _
  show encodeLsm c before up user wb false rn list &&& 0x0E100000#32 = 0x08000000#32
  simp (disch := decide) only [encodeLsm, placeBit, or_and_distrib,
    place_and_out, place_and_in]
  decide

theorem Laws.InRow.ldcOffset : ∀ c up n rn crd cp off, Laws.InRow.Statement (.ldcOffset c up n rn crd cp off) := by
  intro c up n rn crd cp off _
  show encodeCp c .offset up n true rn crd cp off &&& 0x0F300000#32 = 0x0D100000#32
  simp (disch := decide) only [encodeCp, encodeLs, placeBit, or_and_distrib,
    place_and_out, place_and_in]
  decide

theorem Laws.InRow.ldcPre : ∀ c up n rn crd cp off, Laws.InRow.Statement (.ldcPre c up n rn crd cp off) := by
  intro c up n rn crd cp off _
  show encodeCp c .preIndexed up n true rn crd cp off &&& 0x0F300000#32 = 0x0D300000#32
  simp (disch := decide) only [encodeCp, encodeLs, placeBit, or_and_distrib,
    place_and_out, place_and_in]
  decide

theorem Laws.InRow.ldcPost : ∀ c up n rn crd cp off, Laws.InRow.Statement (.ldcPost c up n rn crd cp off) := by
  intro c up n rn crd cp off _
  show encodeCp c .postIndexed up n true rn crd cp off &&& 0x0F300000#32 = 0x0C300000#32
  simp (disch := decide) only [encodeCp, encodeLs, placeBit, or_and_distrib,
    place_and_out, place_and_in]
  decide

theorem Laws.InRow.ldcUnindexed : ∀ c up n rn crd cp option, Laws.InRow.Statement (.ldcUnindexed c up n rn crd cp option) := by
  intro c up n rn crd cp option _
  show encodeCp c .unlisted up n true rn crd cp option &&& 0x0F300000#32 = 0x0C100000#32
  simp (disch := decide) only [encodeCp, encodeLs, placeBit, or_and_distrib,
    place_and_out, place_and_in]
  decide

theorem Laws.InRow.stcOffset : ∀ c up n rn crd cp off, Laws.InRow.Statement (.stcOffset c up n rn crd cp off) := by
  intro c up n rn crd cp off _
  show encodeCp c .offset up n false rn crd cp off &&& 0x0F300000#32 = 0x0D000000#32
  simp (disch := decide) only [encodeCp, encodeLs, placeBit, or_and_distrib,
    place_and_out, place_and_in]
  decide

theorem Laws.InRow.stcPre : ∀ c up n rn crd cp off, Laws.InRow.Statement (.stcPre c up n rn crd cp off) := by
  intro c up n rn crd cp off _
  show encodeCp c .preIndexed up n false rn crd cp off &&& 0x0F300000#32 = 0x0D200000#32
  simp (disch := decide) only [encodeCp, encodeLs, placeBit, or_and_distrib,
    place_and_out, place_and_in]
  decide

theorem Laws.InRow.stcPost : ∀ c up n rn crd cp off, Laws.InRow.Statement (.stcPost c up n rn crd cp off) := by
  intro c up n rn crd cp off _
  show encodeCp c .postIndexed up n false rn crd cp off &&& 0x0F300000#32 = 0x0C200000#32
  simp (disch := decide) only [encodeCp, encodeLs, placeBit, or_and_distrib,
    place_and_out, place_and_in]
  decide

theorem Laws.InRow.stcUnindexed : ∀ c up n rn crd cp option, Laws.InRow.Statement (.stcUnindexed c up n rn crd cp option) := by
  intro c up n rn crd cp option _
  show encodeCp c .unlisted up n false rn crd cp option &&& 0x0F300000#32 = 0x0C000000#32
  simp (disch := decide) only [encodeCp, encodeLs, placeBit, or_and_distrib,
    place_and_out, place_and_in]
  decide

theorem Laws.InRow.undefinedCond1111 : ∀ w, Laws.InRow.Statement (.undefinedCond1111 w) := by
  intro w h
  show w &&& 0xF0000000#32 = 0xF0000000#32
  simpa [Instr.wf, hasCond] using h

theorem Laws.InRow.undefinedLsRegBit4 : ∀ w, Laws.InRow.Statement (.undefinedLsRegBit4 w) := by
  intro w h
  have hw : ¬ w &&& 0xF0000000#32 = 0xF0000000#32 ∧ w &&& 0x0E000010#32 = 0x06000010#32 := by
    simpa [Instr.wf, hasCond] using h
  exact hw.2

theorem Laws.InRow.undefinedSignedStore : ∀ w, Laws.InRow.Statement (.undefinedSignedStore w) := by
  intro w h
  have hw : ¬ w &&& 0xF0000000#32 = 0xF0000000#32 ∧ w &&& 0x0E1000D0#32 = 0x000000D0#32 := by
    simpa [Instr.wf, hasCond] using h
  exact hw.2

theorem Laws.InRow.refusedBranchClass : ∀ w, Laws.InRow.Statement (.refusedBranchClass w) := by
  intro w h
  have hw : ¬ w &&& 0xF0000000#32 = 0xF0000000#32 ∧ w &&& 0x0E000000#32 = 0x0A000000#32 := by
    simpa [Instr.wf, hasCond] using h
  exact hw.2

theorem Laws.InRow.refusedClass111 : ∀ w, Laws.InRow.Statement (.refusedClass111 w) := by
  intro w h
  have hw : ¬ w &&& 0xF0000000#32 = 0xF0000000#32 ∧ w &&& 0x0E000000#32 = 0x0E000000#32 := by
    simpa [Instr.wf, hasCond] using h
  exact hw.2

theorem Laws.InRow.refusedMulSwapSpace : ∀ w, Laws.InRow.Statement (.refusedMulSwapSpace w) := by
  intro w h
  have hw : ¬ w &&& 0xF0000000#32 = 0xF0000000#32 ∧ w &&& 0x0E0000F0#32 = 0x00000090#32 := by
    simpa [Instr.wf, hasCond] using h
  exact hw.2

end Sys2Proof
end

