-- ==== Sys2Proof/Tests/Slice0.lean ====
section
/-! SUPPORT. Tests of the model's own author: the checks of WellFormed, a word for every constructor of `Instr`, one step on
small states for every instruction, and for every statement with hypotheses a state and operands that meet them.
Expected results are those of spec/95_test_vectors.md, or computed by hand from the rules where a comment says so. -/

namespace Sys2Proof.Tests

open Sys2Proof Sys2Proof.Machine

/-! ### WellFormed: each check refuses an ill-formed term -/

theorem test_wf_refuses_cond1111 : (.undefinedCond1111 0xE1A03002#32 : Instr).wf = false := by decide
theorem test_wf_refuses_ls_reg_bit4 : (.undefinedLsRegBit4 0xE7910002#32 : Instr).wf = false := by decide
theorem test_wf_refuses_signed_store : (.undefinedSignedStore 0xE1D100F4#32 : Instr).wf = false := by decide
theorem test_wf_refuses_branch_class : (.refusedBranchClass 0xE8000000#32 : Instr).wf = false := by decide
theorem test_wf_refuses_class111 : (.refusedClass111 0xEC000000#32 : Instr).wf = false := by decide
theorem test_wf_refuses_mul_swap : (.refusedMulSwapSpace 0xE00103B2#32 : Instr).wf = false := by decide

/-- cond 1111 has priority over the other reserved rows. -/
theorem test_wf_refuses_reserved_with_cond1111 :
    (.refusedBranchClass 0xFA000000#32 : Instr).wf = false ∧ (.undefinedSignedStore 0xF1C100F4#32 : Instr).wf = false := by
  decide

/-! ### Decoding: one word per constructor, written out from the format tables of 30_encoding.md -/

theorem test_decode_movImm : decode 0xE3A00D3F#32 = .ok (.movImm .al false 0#4 13#4 0x3F#8) := by decide
theorem test_decode_movShiftImm : decode 0xE1A03002#32 = .ok (.movShiftImm .al false 3#4 0#5 .lsl 2#4) := by decide
theorem test_decode_movShiftReg : decode 0xE1B00271#32 = .ok (.movShiftReg .al true 0#4 2#4 .ror 1#4) := by decide
theorem test_decode_addImm : decode 0x029210AB#32 = .ok (.addImm .eq true 2#4 1#4 0#4 0xAB#8) := by decide
theorem test_decode_addShiftImm : decode 0xE0802101#32 = .ok (.addShiftImm .al false 0#4 2#4 2#5 .lsl 1#4) := by decide
theorem test_decode_addShiftReg : decode 0xE0802331#32 = .ok (.addShiftReg .al false 0#4 2#4 3#4 .lsr 1#4) := by decide
theorem test_decode_cmpImm : decode 0xE35200AB#32 = .ok (.cmpImm .al 2#4 0#4 0xAB#8) := by decide
theorem test_decode_cmpShiftImm : decode 0xE1520003#32 = .ok (.cmpShiftImm .al 2#4 0#5 .lsl 3#4) := by decide
theorem test_decode_cmpShiftReg : decode 0xE1520453#32 = .ok (.cmpShiftReg .al 2#4 4#4 .asr 3#4) := by decide
theorem test_decode_andDp : decode 0xE0010002#32 = .ok (.andDp .al false 1#4 0#4 (.shiftImm 0#5 .lsl 2#4)) := by decide
theorem test_decode_eorDp : decode 0xE0310002#32 = .ok (.eorDp .al true 1#4 0#4 (.shiftImm 0#5 .lsl 2#4)) := by decide
theorem test_decode_subDp : decode 0xE0410062#32 = .ok (.subDp .al false 1#4 0#4 (.shiftImm 0#5 .ror 2#4)) := by decide
theorem test_decode_rsbDp : decode 0xE2610F41#32 = .ok (.rsbDp .al false 1#4 0#4 (.imm 15#4 0x41#8)) := by decide
theorem test_decode_adcDp : decode 0xE0A10002#32 = .ok (.adcDp .al false 1#4 0#4 (.shiftImm 0#5 .lsl 2#4)) := by decide
theorem test_decode_sbcDp : decode 0xE0C10312#32 = .ok (.sbcDp .al false 1#4 0#4 (.shiftReg 3#4 .lsl 2#4)) := by decide
theorem test_decode_rscDp : decode 0xE0E10002#32 = .ok (.rscDp .al false 1#4 0#4 (.shiftImm 0#5 .lsl 2#4)) := by decide
theorem test_decode_tstDp : decode 0xE1110002#32 = .ok (.tstDp .al 1#4 0#4 (.shiftImm 0#5 .lsl 2#4)) := by decide
theorem test_decode_teqDp : decode 0xE1312002#32 = .ok (.teqDp .al 1#4 2#4 (.shiftImm 0#5 .lsl 2#4)) := by decide
theorem test_decode_cmnDp : decode 0xE1710002#32 = .ok (.cmnDp .al 1#4 0#4 (.shiftImm 0#5 .lsl 2#4)) := by decide
theorem test_decode_orrDp : decode 0xE38100FF#32 = .ok (.orrDp .al false 1#4 0#4 (.imm 0#4 0xFF#8)) := by decide
theorem test_decode_bicDp : decode 0xE1C10002#32 = .ok (.bicDp .al false 1#4 0#4 (.shiftImm 0#5 .lsl 2#4)) := by decide
theorem test_decode_mvnDp : decode 0xE1E50002#32 = .ok (.mvnDp .al false 5#4 0#4 (.shiftImm 0#5 .lsl 2#4)) := by decide
theorem test_decode_ldrImm : decode 0xE4B10004#32 = .ok (.ldrImm .al .postIndexed true 1#4 0#4 4#12) := by decide
theorem test_decode_ldrReg : decode 0xE7B10102#32 = .ok (.ldrReg .al .preIndexed true 1#4 0#4 2#5 .lsl 2#4) := by decide
theorem test_decode_strImm : decode 0xE5210008#32 = .ok (.strImm .al .preIndexed false 1#4 0#4 8#12) := by decide
theorem test_decode_strReg : decode 0xE7A10101#32 = .ok (.strReg .al .preIndexed true 1#4 0#4 2#5 .lsl 1#4) := by decide
theorem test_decode_ldrbImm : decode 0xE5D14001#32 = .ok (.ldrbImm .al .offset true 1#4 4#4 1#12) := by decide
theorem test_decode_ldrbReg : decode 0xE7D10002#32 = .ok (.ldrbReg .al .offset true 1#4 0#4 0#5 .lsl 2#4) := by decide
theorem test_decode_strbImm : decode 0xE5C210A0#32 = .ok (.strbImm .al .offset true 2#4 1#4 0x0A0#12) := by decide
theorem test_decode_strbReg : decode 0xE6610002#32 = .ok (.strbReg .al .postIndexed false 1#4 0#4 0#5 .lsl 2#4) := by decide
theorem test_decode_ldrhImm : decode 0xE15120B4#32 = .ok (.ldrhImm .al .offset false 1#4 2#4 0#4 4#4) := by decide
theorem test_decode_ldrhReg : decode 0xE11120B5#32 = .ok (.ldrhReg .al .offset false 1#4 2#4 5#4) := by decide
theorem test_decode_ldrsbImm : decode 0xE17200D2#32 = .ok (.ldrsbImm .al .preIndexed false 2#4 0#4 0#4 2#4) := by decide
theorem test_decode_ldrsbReg : decode 0xE19100D5#32 = .ok (.ldrsbReg .al .offset true 1#4 0#4 5#4) := by decide
theorem test_decode_ldrshImm : decode 0xE0D100F4#32 = .ok (.ldrshImm .al .unlisted true 1#4 0#4 0#4 4#4) := by decide
theorem test_decode_ldrshReg : decode 0xE0B100F5#32 = .ok (.ldrshReg .al .postIndexed true 1#4 0#4 5#4) := by decide
theorem test_decode_strhImm : decode 0xE1E10AB5#32 = .ok (.strhImm .al .preIndexed true 1#4 0#4 0xA#4 0x5#4) := by decide
theorem test_decode_strhReg : decode 0xE1A100B5#32 = .ok (.strhReg .al .preIndexed true 1#4 0#4 5#4) := by decide
theorem test_decode_ldm : decode 0xE8BD800F#32 = .ok (.ldm .al false true false true 13#4 0x800F#16) := by decide
theorem test_decode_stm : decode 0xE9200C3E#32 = .ok (.stm .al true false false true 0#4 0x0C3E#16) := by decide
theorem test_decode_ldcOffset : decode 0xED913502#32 = .ok (.ldcOffset .al true false 1#4 3#4 5#4 2#8) := by decide
theorem test_decode_ldcPre : decode 0xED720104#32 = .ok (.ldcPre .al false true 2#4 0#4 1#4 4#8) := by decide
theorem test_decode_ldcPost : decode 0xEC313502#32 = .ok (.ldcPost .al false false 1#4 3#4 5#4 2#8) := by decide
theorem test_decode_ldcUnindexed : decode 0xEC91352A#32 = .ok (.ldcUnindexed .al true false 1#4 3#4 5#4 0x2A#8) := by decide
theorem test_decode_stcOffset : decode 0xED813502#32 = .ok (.stcOffset .al true false 1#4 3#4 5#4 2#8) := by decide
theorem test_decode_stcPre : decode 0xED610104#32 = .ok (.stcPre .al false true 1#4 0#4 1#4 4#8) := by decide
theorem test_decode_stcPost : decode 0xEC213502#32 = .ok (.stcPost .al false false 1#4 3#4 5#4 2#8) := by decide
theorem test_decode_stcUnindexed : decode 0xEC81352A#32 = .ok (.stcUnindexed .al true false 1#4 3#4 5#4 0x2A#8) := by decide
theorem test_decode_undefinedCond1111 : decode 0xF1A03002#32 = .ok (.undefinedCond1111 0xF1A03002#32) := by decide
theorem test_decode_undefinedLsRegBit4 : decode 0xE7910012#32 = .ok (.undefinedLsRegBit4 0xE7910012#32) := by decide
theorem test_decode_undefinedSignedStore : decode 0xE1C100F4#32 = .ok (.undefinedSignedStore 0xE1C100F4#32) := by decide
theorem test_decode_refusedBranchClass : decode 0xEA000000#32 = .ok (.refusedBranchClass 0xEA000000#32) := by decide
theorem test_decode_refusedClass111 : decode 0xEF000000#32 = .ok (.refusedClass111 0xEF000000#32) := by decide
theorem test_decode_refusedMulSwapSpace : decode 0xE0010392#32 = .ok (.refusedMulSwapSpace 0xE0010392#32) := by decide

theorem test_decode_refuses_mov_rn : decode 0xE1A10001#32 = .error .movRnNotZero := by decide
theorem test_decode_refuses_cmp_rd : decode 0xE1521003#32 = .error .cmpRdNotZero := by decide
theorem test_decode_refuses_compare_without_s : decode 0xE1420003#32 = .error .compareWithoutS := by decide
theorem test_decode_refuses_halfword_bits : decode 0xE19121B5#32 = .error .halfwordBits11To8 := by decide

/-- The host's view: a row's pattern with AL, and a word too long. -/
theorem test_decode_table_word :
    decodeTableWord 32 0xE5910004 = some (.ldrImm .al .offset true 1#4 0#4 4#12) ∧ decodeTableWord 40 0 = none := by decide

/-! ### One step on small states -/

/-- The state after reset with registers, flags and a pc of 0x8000. -/
def st (regs : List (Nat × Word)) (n z c v : Bool) : State :=
  { State.reset with regs := regs, pc := 0x8000#32, cpsr := { n := n, z := z, c := c, v := v, mode := .user } }

/-- The same with words of memory. -/
def withWords (s : State) : List (Word × Word) → State
  | [] => s
  | (a, v) :: rest => withWords (s.store a 4 v) rest

/-- What the instruction of a word answers, where it answers a next state. -/
def run (s : State) (w : Word) : Option State :=
  match decode w with
  | .error _ => none
  | .ok i =>
    match exec i s with
    | .next t => some t
    | .fault _ => none
    | .refused _ => none

/-- What stops the instruction of a word. -/
def stop (s : State) (w : Word) : Option Stop :=
  match decode w with
  | .error _ => none
  | .ok i =>
    match exec i s with
    | .next _ => none
    | .fault f => some (.fault f)
    | .refused r => some (.refused r)

/-- Register 0 and the flags. -/
def r0Flags (t : State) : Word × Bool × Bool × Bool × Bool := (t.reg 0#4, t.cpsr.n, t.cpsr.z, t.cpsr.c, t.cpsr.v)

/-- The flags. -/
def flags (t : State) : Bool × Bool × Bool × Bool := (t.cpsr.n, t.cpsr.z, t.cpsr.c, t.cpsr.v)

theorem test_movs_imm : (run (st [] false false true false) 0xE3B00F41#32).map r0Flags = some (0x104#32, false, false, false, false) := by
  decide
theorem test_movs_lsr_32 : (run (st [(1, 0x80000001#32)] false false false false) 0xE1B00021#32).map r0Flags = some (0x0#32, false, true, true, false) := by
  decide
theorem test_movs_rrx : (run (st [(1, 0x2#32)] false false true false) 0xE1B00061#32).map r0Flags = some (0x80000001#32, true, false, false, false) := by
  decide
theorem test_movs_lsl_reg_32 : (run (st [(1, 0x80000001#32), (2, 0x20#32)] false false false false) 0xE1B00211#32).map r0Flags = some (0x0#32, false, true, true, false) := by
  decide
theorem test_movs_asr_reg_33 : (run (st [(1, 0x80000001#32), (2, 0x21#32)] false false false false) 0xE1B00251#32).map r0Flags = some (0xFFFFFFFF#32, true, false, true, false) := by
  decide
theorem test_addeqs_imm : (run (st [(2, 0xAB#32)] false true true false) 0x029210AB#32).map (fun t => (t.reg 1#4, flags t)) =
    some (0x156#32, false, false, false, false) := by decide
theorem test_adds_overflow : (run (st [(1, 0x7FFFFFFF#32), (2, 0x1#32)] false false false false) 0xE0910002#32).map r0Flags = some (0x80000000#32, true, false, false, true) := by
  decide
theorem test_adds_shifted_out_bit_is_not_carry : (run (st [(1, 0x1#32), (2, 0x80000000#32)] false false false false) 0xE0910082#32).map r0Flags = some (0x1#32, false, false, false, false) := by
  decide
/-- By hand from R156 and R148: 1 + (0x80 >> 4) = 9. -/
theorem test_add_shift_reg : (run (st [(0, 1#32), (1, 0x80#32), (3, 4#32)] false false false false) 0xE0802331#32).map
    (fun t => t.reg 2#4) = some 9#32 := by decide
theorem test_cmp_imm_lower : (run (st [(2, 0x10#32)] false false false false) 0xE35200AB#32).map flags = some (true, false, false, false) := by decide
theorem test_cmp_imm_overflow : (run (st [(2, 0x800000AA#32)] false false false false) 0xE35200AB#32).map flags = some (false, false, true, true) := by decide
/-- By hand from R157: equal operands. -/
theorem test_cmp_shift_imm : (run (st [(2, 0x5#32), (3, 0x5#32)] false false false false) 0xE1520003#32).map flags = some (false, true, true, false) := by decide
/-- By hand from R157 and R149: 0x80000000 shifted by 31 is 0xFFFFFFFF. -/
theorem test_cmp_shift_reg : (run (st [(2, 0xFFFFFFFF#32), (3, 0x80000000#32), (4, 0x1F#32)] false false false false) 0xE1520453#32).map flags = some (false, true, true, false) := by decide

/-! By hand from R158 and R159, on R1 = F0F0F0F0 and R2 = FF00FF00. -/

theorem test_and : (run (st [(1, 0xF0F0F0F0#32), (2, 0xFF00FF00#32)] false false false false) 0xE0010002#32).map r0Flags = some (0xF000F000#32, false, false, false, false) := by
  decide
theorem test_eors : (run (st [(1, 0xF0F0F0F0#32), (2, 0xFF00FF00#32)] true false true true) 0xE0310002#32).map r0Flags = some (0xFF00FF0#32, false, false, true, true) := by
  decide
theorem test_subs : (run (st [(1, 0xF0F0F0F0#32), (2, 0xFF00FF00#32)] false false false false) 0xE0510002#32).map r0Flags = some (0xF1EFF1F0#32, true, false, false, false) := by
  decide
theorem test_rsbs : (run (st [(1, 0xF0F0F0F0#32), (2, 0xFF00FF00#32)] false false false false) 0xE0710002#32).map r0Flags = some (0xE100E10#32, false, false, true, false) := by
  decide
theorem test_adcs : (run (st [(1, 0xF0F0F0F0#32), (2, 0xFF00FF00#32)] false false true false) 0xE0B10002#32).map r0Flags = some (0xEFF1EFF1#32, true, false, true, false) := by
  decide
theorem test_sbc : (run (st [(1, 0xF0F0F0F0#32), (2, 0xFF00FF00#32)] false false false false) 0xE0C10002#32).map r0Flags = some (0xF1EFF1EF#32, false, false, false, false) := by
  decide
theorem test_rsc : (run (st [(1, 0xF0F0F0F0#32), (2, 0xFF00FF00#32)] false false false false) 0xE0E10002#32).map r0Flags = some (0xE100E0F#32, false, false, false, false) := by
  decide
theorem test_orr_imm : (run (st [(1, 0xF0F0F0F0#32), (2, 0xFF00FF00#32)] false false false false) 0xE38100FF#32).map r0Flags = some (0xF0F0F0FF#32, false, false, false, false) := by
  decide
theorem test_bic : (run (st [(1, 0xF0F0F0F0#32), (2, 0xFF00FF00#32)] false false false false) 0xE1C10002#32).map r0Flags = some (0xF000F0#32, false, false, false, false) := by
  decide
theorem test_mvns : (run (st [(1, 0xF0F0F0F0#32), (2, 0xFF00FF00#32)] false false true false) 0xE1F00002#32).map r0Flags = some (0xFF00FF#32, false, false, true, false) := by
  decide
theorem test_tst : (run (st [(1, 0xF0F0F0F0#32), (2, 0xFF00FF00#32)] false false false false) 0xE1110002#32).map flags = some (true, false, false, false) := by decide
theorem test_teq : (run (st [(1, 0xF0F0F0F0#32), (2, 0xFF00FF00#32)] true false false false) 0xE1310002#32).map flags = some (false, false, false, false) := by decide
theorem test_cmn : (run (st [(1, 0xF0F0F0F0#32), (2, 0xFF00FF00#32)] false false false false) 0xE1710002#32).map flags = some (true, false, true, false) := by decide

/-- Memory of 95_test_vectors.md 2.4. -/
def data : List (Word × Word) :=
  [(0x9000#32, 0x11223344#32), (0x9004#32, 0x55667788#32), (0x9008#32, 0x99AABBCC#32), (0x900C#32, 0xDDEEFF00#32),
    (0x9010#32, 0x80FF7F01#32), (0x9014#32, 0xF00DFACE#32)]

/-- A state with that memory. -/
def ls (regs : List (Nat × Word)) : State := withWords (st regs false false false false) data

/-- Two registers. -/
def regs2 (i j : Reg) (t : State) : Word × Word := (t.reg i, t.reg j)

/-- A register and a word of memory. -/
def regAndWord (i : Reg) (a : Word) (t : State) : Word × Word := (t.reg i, t.load a 4)

theorem test_ldr_post : (run (ls [(0, 0xAAAAAAAA#32), (1, 0x9008#32), (2, 0x4#32)]) 0xE4B10004#32).map (regs2 0#4 1#4) = some (0x99AABBCC#32, 0x900C#32) := by decide
theorem test_ldr_scaled_pre : (run (ls [(0, 0xAAAAAAAA#32), (1, 0x9000#32), (2, 0x3#32)]) 0xE7B10102#32).map (regs2 0#4 1#4) = some (0xDDEEFF00#32, 0x900C#32) := by decide
theorem test_str_pre_down : (run (ls [(0, 0xCAFEF00D#32), (1, 0x9010#32)]) 0xE5210008#32).map (regAndWord 1#4 0x9008#32) =
    some (0x9008#32, 0xCAFEF00D#32) := by decide
/-- By hand from R184 and R187: 0x9000 + 3 * 4. -/
theorem test_str_scaled : (run (ls [(0, 0xCAFEF00D#32), (1, 0x9000#32), (2, 0x3#32)]) 0xE7810102#32).map (regAndWord 1#4 0x900C#32) =
    some (0x9000#32, 0xCAFEF00D#32) := by decide
theorem test_ldrb_imm : (run (ls [(0, 0xAAAAAAAA#32), (1, 0x9010#32)]) 0xE5D10001#32).map (regs2 0#4 1#4) = some (0x7F#32, 0x9010#32) := by decide
/-- By hand from R188: byte[9013] is 80. -/
theorem test_ldrb_reg : (run (ls [(1, 0x9010#32), (2, 0x3#32)]) 0xE7D10002#32).map (regs2 0#4 1#4) = some (0x80#32, 0x9010#32) := by decide
theorem test_strb_imm : (run (ls [(0, 0x123456EE#32), (1, 0x9000#32)]) 0xE5C10002#32).map (regAndWord 1#4 0x9000#32) =
    some (0x9000#32, 0x11EE3344#32) := by decide
/-- By hand from R184 and R189: the byte at 0x9002, then R1 = 0x9002 - 1. -/
theorem test_strb_reg_post_down : (run (ls [(0, 0x123456EE#32), (1, 0x9002#32), (2, 0x1#32)]) 0xE6610002#32).map (regAndWord 1#4 0x9000#32) =
    some (0x9001#32, 0x11EE3344#32) := by decide
theorem test_ldrh_imm_down : (run (ls [(0, 0xAAAA8123#32), (1, 0x9010#32), (2, 0xAAAAAAAA#32), (5, 0x2#32)]) 0xE15120B4#32).map (regs2 2#4 1#4) = some (0xFF00#32, 0x9010#32) := by decide
theorem test_ldrh_reg_down : (run (ls [(0, 0xAAAA8123#32), (1, 0x9010#32), (2, 0xAAAAAAAA#32), (5, 0x2#32)]) 0xE11120B5#32).map (regs2 2#4 1#4) = some (0xDDEE#32, 0x9010#32) := by decide
theorem test_ldrsb_imm : (run (ls [(0, 0xAAAA8123#32), (1, 0x9010#32), (2, 0xAAAAAAAA#32), (5, 0x2#32)]) 0xE1D100D4#32).map (regs2 0#4 1#4) = some (0xFFFFFFCE#32, 0x9010#32) := by decide
theorem test_ldrsb_reg : (run (ls [(0, 0xAAAA8123#32), (1, 0x9010#32), (2, 0xAAAAAAAA#32), (5, 0x2#32)]) 0xE19100D5#32).map (regs2 0#4 1#4) = some (0xFFFFFFFF#32, 0x9010#32) := by decide
theorem test_ldrsh_imm_post : (run (ls [(0, 0xAAAA8123#32), (1, 0x9010#32), (2, 0xAAAAAAAA#32), (5, 0x2#32)]) 0xE0F100F4#32).map (regs2 0#4 1#4) = some (0x7F01#32, 0x9014#32) := by decide
theorem test_ldrsh_reg_post : (run (ls [(0, 0xAAAA8123#32), (1, 0x9010#32), (2, 0xAAAAAAAA#32), (5, 0x2#32)]) 0xE0B100F5#32).map (regs2 0#4 1#4) = some (0x7F01#32, 0x9012#32) := by decide
theorem test_ldrsh_negative : (run (ls [(0, 0xAAAA8123#32), (1, 0x9010#32), (2, 0xAAAAAAAA#32), (5, 0x2#32)]) 0xE1D120F2#32).map (regs2 2#4 1#4) = some (0xFFFF80FF#32, 0x9010#32) := by decide
theorem test_strh_imm_pre : (run (ls [(0, 0xAAAA8123#32), (1, 0x9010#32), (2, 0xAAAAAAAA#32), (5, 0x2#32)]) 0xE1E100B4#32).map (regAndWord 1#4 0x9014#32) =
    some (0x9014#32, 0xF00D8123#32) := by decide
theorem test_strh_reg_pre : (run (ls [(0, 0xAAAA8123#32), (1, 0x9010#32), (2, 0xAAAAAAAA#32), (5, 0x2#32)]) 0xE1A100B5#32).map (regAndWord 1#4 0x9010#32) =
    some (0x9012#32, 0x81237F01#32) := by decide

/-- Memory of 95_test_vectors.md 2.6: word[9000 + 4i] = 1000 + i. -/
def block : List (Word × Word) :=
  (List.range 12).map fun i => (0x9000#32 + BitVec.ofNat 32 (4 * i), 0x1000#32 + BitVec.ofNat 32 i)

/-- A state with that memory. -/
def lm (regs : List (Nat × Word)) : State := withWords (st regs false false false false) block

theorem test_ldmia_wb : (run (lm [(0, 0x9010#32), (1, 0xA1#32), (2, 0xA2#32), (8, 0xA8#32)]) 0xE8B00106#32).map
    (fun t => (t.reg 0#4, t.reg 1#4, t.reg 2#4, t.reg 8#4)) = some (0x901C#32, 0x1004#32, 0x1005#32, 0x1006#32) := by decide
theorem test_ldmda_wb : (run (lm [(0, 0x9010#32), (1, 0xA1#32), (2, 0xA2#32), (8, 0xA8#32)]) 0xE8300106#32).map
    (fun t => (t.reg 0#4, t.reg 1#4, t.reg 2#4, t.reg 8#4)) = some (0x9004#32, 0x1002#32, 0x1003#32, 0x1004#32) := by decide
theorem test_stmdb_wb :
    (run (st [(0, 0x902C#32), (1, 1#32), (2, 2#32), (3, 3#32), (4, 4#32), (5, 5#32), (10, 0xA#32), (11, 0xB#32)]
      false false false false) 0xE9200C3E#32).map (fun t => (t.reg 0#4, t.load 0x9010#32 4, t.load 0x9024#32 4, t.load 0x9028#32 4)) =
      some (0x9010#32, 1#32, 0xA#32, 0xB#32) := by decide
theorem test_stmib : (run (lm [(0, 0x9010#32), (1, 0xA1#32), (2, 0xA2#32), (8, 0xA8#32)]) 0xE9800106#32).map
    (fun t => (t.reg 0#4, t.load 0x9010#32 4, t.load 0x9014#32 4, t.load 0x901C#32 4)) =
      some (0x9010#32, 0x1004#32, 0xA1#32, 0xA8#32) := by decide

/-- A state in mode 0 of a two-mode configuration: R13 and R14 banked, an SPSR with Z set and mode User. -/
def banked (regs : List (Nat × Word)) : State :=
  { withWords (st regs true false false false) (block ++ [(0x9004#32, 0x8100#32)]) with
    cpsr := { n := true, z := false, c := false, v := false, mode := .other 0 }
    spsr := [(1, { n := false, z := true, c := false, v := false, mode := .user })]
    cfg := { resetConfig with modes := [{ bank := [0, 1, 2, 3, 4, 5, 6, 7, 8, 9, 10, 11, 12, 29, 30], hasSpsr := true }] } }

/-- By hand from R266 and R268: LDMIA R0,{R13,PC}^ loads the banked R13, the pc, and the CPSR from the SPSR. -/
theorem test_ldm_return : (run (banked [(0, 0x9000#32)]) 0xE8D0A000#32).map
    (fun t => (t.phys 29, t.phys 13, t.pc, t.cpsr)) =
      some (0x1000#32, 0#32, 0x8100#32, { n := false, z := true, c := false, v := false, mode := .user }) := by decide
/-- By hand from R267: LDMIA R0,{R13,R14}^ loads the user-mode registers. -/
theorem test_ldm_user_bank : (run (banked [(0, 0x9008#32), (29, 7#32)]) 0xE8D06000#32).map
    (fun t => (t.phys 13, t.phys 14, t.phys 29, t.pc)) =
      some (0x1002#32, 0x1003#32, 7#32, 0x8004#32) := by decide
/-- By hand from R267: STMIA R0,{R13,R14}^ stores the user-mode registers. -/
theorem test_stm_user_bank : (run (banked [(0, 0x9008#32), (13, 5#32), (29, 7#32)]) 0xE8C06000#32).map
    (fun t => (t.load 0x9008#32 4, t.load 0x900C#32 4)) = some (5#32, 0#32) := by decide

/-- By hand from R33 and R260: where `Bank(User)` sends R0 to 7, R7 to 0 and R1, R2 both to 1, LDMIA R7,{R0,R1,R2} loads
from the address in physical register 0, and the word of R2, loaded last, stays in physical register 1. -/
theorem test_ldm_renamed_bank :
    (run { lm [(0, 0x9008#32)] with cfg := { resetConfig with userBank := [7, 1, 1, 3, 4, 5, 6, 0] } } 0xE8970007#32).map
      (fun t => (t.phys 7, t.phys 1, t.phys 2, t.reg 1#4)) = some (0x1002#32, 0x1004#32, 0#32, 0x1004#32) := by decide

/-! ### Outcomes (95_test_vectors.md 2.1 and 2.4 to 2.8) -/

theorem test_failed_condition_suppresses_register_checks :
    (run (st [] false true false false) 0x17910001#32).map (fun t => t.pc) = some 0x8004#32 ∧
    stop (st [] false false false false) 0x17910001#32 = some (.fault (.unpredictable .baseIsIndex)) := by decide
theorem test_failed_condition_keeps_decode_refusals :
    stop (st [] false true false false) 0x14910004#32 = some (.refused .p0w0) := by decide
theorem test_r15_in_register_shift :
    stop (st [(2, 1#32)] false false false false) 0xE1B0021F#32 = some (.fault (.unpredictable .r15InRegisterShift)) := by
  decide
theorem test_mov_to_r15 : stop (st [] false false false false) 0xE1A0F001#32 = some (.refused .r15Destination) := by decide
theorem test_misaligned :
    stop (ls [(1, 0x9008#32)]) 0xE5910002#32 = some (.fault (.misaligned 0x900A#32 4)) ∧
    stop (ls [(1, 0x9010#32)]) 0xE1D120B1#32 = some (.fault (.misaligned 0x9011#32 2)) := by decide
theorem test_rd_is_rn_with_writeback :
    stop (ls [(1, 0x9008#32)]) 0xE5B11004#32 = some (.fault (.unpredictable .destinationIsWrittenBase)) := by decide
theorem test_load_and_store_of_r15 :
    stop (ls [(1, 0x9008#32)]) 0xE591F000#32 = some (.refused .r15Loaded) ∧
    stop (ls [(1, 0x9008#32)]) 0xE581F000#32 = some (.refused .r15Stored) := by decide
theorem test_lsm_corner_cases :
    stop (lm [(0, 0x9010#32)]) 0xE8B00003#32 = some (.fault (.unpredictable .baseInListWithWriteback)) ∧
    stop (lm [(0, 0x9010#32)]) 0xE8900000#32 = some (.refused .emptyList) ∧
    stop (lm [(0, 0x9010#32)]) 0xE89F0002#32 = some (.refused .lsmBaseR15) ∧
    stop (lm [(0, 0x9010#32)]) 0xE8808002#32 = some (.refused .stmOfR15) ∧
    stop (lm [(0, 0x9010#32)]) 0xE8D00006#32 = some (.fault (.unpredictable .sBitInSingleMode)) ∧
    stop (lm [(0, 0x9010#32)]) 0xE8908002#32 = some (.refused .pcTargetNotAligned) ∧
    stop (lm [(0, 0x9012#32)]) 0xE8900006#32 = some (.fault (.misaligned 0x9012#32 4)) ∧
    stop (lm [(0, 0xFFFFFFFC#32)]) 0xE8900006#32 = some (.refused .blockPassesTop) := by decide

/-- The configuration of reset with data mapped only at 0x9000 to 0x902F and a program text at 0x8000. -/
def smallMap : Config :=
  { resetConfig with
    pcReadOffset := none
    regions := [{ base := 0x9000, size := 0x30, widths := [1, 2, 4], read := true, write := true, fetch := false },
      { base := 0x8000, size := 8, widths := [1, 2, 4], read := true, write := true, fetch := true }]
    text := [{ base := 0x8000, size := 8 }, { base := 0x9002, size := 0 }]
    halt := .pcIs 0x8008#32 }

/-- A state with that configuration. -/
def small (regs : List (Nat × Word)) : State := { lm regs with cfg := smallMap }

theorem test_unmapped :
    stop (small [(1, 0x9008#32)]) 0xE5910100#32 = some (.fault (.unmapped 0x9108#32 4)) ∧
    stop (small [(0, 0x902C#32)]) 0xE8900006#32 = some (.fault (.unmapped 0x9030#32 4)) := by decide
theorem test_store_to_text : stop (small [(1, 0x8000#32)]) 0xE5810000#32 = some (.refused .storeToText) := by decide
/-- By hand from R76: the empty piece of that text holds no byte, so a store around it is no store to the text. -/
theorem test_store_around_empty_text :
    (run (small [(0, 5#32), (1, 0x9000#32)]) 0xE5810000#32).map (fun t => t.load 0x9000#32 4) = some 5#32 := by decide
/-- By hand from R69: a map that admits words at 0x9000 and no bytes there. -/
theorem test_map_by_width :
    let cfg := { resetConfig with
      regions := [{ base := 0x9000, size := 4, widths := [4], read := true, write := true, fetch := false }] }
    (run { st [(1, 0x9000#32)] false false false false with cfg := cfg } 0xE5910000#32).map (fun t => t.reg 0#4) = some 0#32 ∧
    stop { st [(1, 0x9000#32)] false false false false with cfg := cfg } 0xE5D10000#32 =
      some (.fault (.unmapped 0x9000#32 1)) := by decide
theorem test_r15_as_base :
    stop (small []) 0xE59F0004#32 = some (.refused .r15Read) ∧
    (run (withWords (st [] false false false false) [(0x800C#32, 0x1234#32)]) 0xE59F0004#32).map (fun t => t.reg 0#4) =
      some 0x1234#32 := by decide
theorem test_top_of_address_space :
    stop { st [] false false false false with pc := 0xFFFFFFFC#32 } 0xE3A00000#32 = some (.refused .pcPassesTop) := by decide
theorem test_absent_coprocessor :
    stop { st [] false false false false with cfg := { resetConfig with coprocs := [] } } 0x0D913502#32 =
      some (.fault (.undefinedEncoding .coprocessorAbsent 0x0D913502#32)) := by decide

/-- What stops a step. -/
def stepStop (s : State) : Option Stop :=
  match step s with
  | .next _ => none
  | .fault f => some (.fault f)
  | .refused r => some (.refused r)

theorem test_step_stops :
    stepStop { small [] with pc := 0x8008#32 } = some (.refused .halted) ∧
    stepStop { small [] with pc := 0x8002#32 } = some (.refused .pcNotAligned) ∧
    stepStop { small [] with pc := 0x7000#32 } = some (.fault (.unmapped 0x7000#32 4)) ∧
    stepStop ((small []).withFetchWord 32 0xE1A10001) = some (.refused (.movRnNotZero 0xE1A10001#32)) ∧
    stepStop ((small []).withFetchWord 32 0xEA000000) = some (.refused (.branchClass 0xEA000000#32)) := by decide
/-- By hand from R367: a run that ends where Z is set or R0 holds 5 in user mode, and no byte at 0x9000 is 1. -/
def endOfRun : Halt :=
  .both (.either (.flagIs .cpsr .z true) (.both (.registerIs 0 5#32) (.modeIs .cpsr .user))) (.negation (.byteIs 0x9000 1#8))
theorem test_halt_predicate :
    let run := fun (z : Bool) (r0 : Word) (b : Byte) =>
      halted { (st [(0, r0)] false z false false).setByte 0x9000 b with cfg := { resetConfig with halt := endOfRun } }
    run true 0#32 0#8 = true ∧ run false 5#32 0#8 = true ∧ run false 4#32 0#8 = false ∧ run true 5#32 1#8 = false ∧
    haltHolds (banked []) (.flagIs (.spsr (.other 0)) .z true) = true ∧ haltHolds (banked []) .never = false := by decide
theorem test_step_from_reset :
    (match step (State.reset.withFetchWord 32 0xE3A00D3F) with
      | .next t => some (t.reg 0#4, t.pc)
      | _ => none) = some (0xFC0#32, 4#32) := by decide

/-! ### Witnesses: for every statement with hypotheses, a state and operands that meet them -/

/-- Whether an outcome is a next state with a property. -/
def holdsAfter (o : Host.Outcome State Fault Refusal) (p : State → Bool) : Bool :=
  match o with
  | .next t => p t
  | .fault _ => false
  | .refused _ => false

theorem next_of_holds {o : Host.Outcome State Fault Refusal} {p : State → Bool} (h : holdsAfter o p = true) :
    ∃ t, o = .next t ∧ p t = true := by
  cases o <;> simp_all [holdsAfter]

/-- A state right after reset with the pc moved: it can advance, reads R15 and has every coprocessor. -/
abbrev s0 : State := st [(1, 0x9000#32), (2, 4#32)] false false false false

/-- The last pc that can advance and the first that cannot. -/
def lastPc : State := { s0 with pc := 0xFFFFFFFB#32 }
def topPc : State := { s0 with pc := 0xFFFFFFFC#32 }

theorem witness_DecodeOfEncode :
    (.undefinedCond1111 0xFFFFFFFF#32 : Instr).wf = true ∧ (.ldm .al true true true true 15#4 0xFFFF#16 : Instr).wf = true := by
  decide
theorem witness_EncodeOfDecode : decode 0xE8BD800F#32 = .ok (.ldm .al false true false true 13#4 0x800F#16) := by decide
theorem witness_DecoderRefusalsAreThoseListed :
    0xE1A10001#32 &&& 0xF0000000#32 ≠ 0xF0000000#32 ∧
    (isFormFour 0x01AF0010#32 ∧ 0x01AF0010#32 &&& 0x01E00000#32 = 0x01A00000#32) ∧
    (isOtherForm 0xE1521003#32 ∧ 0xE1521003#32 &&& 0x01F00000#32 = 0x01500000#32) ∧
    (isOtherForm 0xE1420003#32 ∧ 0xE1420003#32 &&& 0x01900000#32 = 0x01000000#32) ∧
    0xE19121B5#32 &&& 0x0E400090#32 = 0x00000090#32 := by unfold isFormFour isOtherForm; decide
theorem witness_SignedStoreIsUndefined :
    0x000000D0#32 &&& 0xF0000000#32 ≠ 0xF0000000#32 ∧ 0x000000D0#32 &&& 0x0E1000D0#32 = 0x000000D0#32 ∧
    0xE1EFFFFF#32 &&& 0xF0000000#32 ≠ 0xF0000000#32 ∧ 0xE1EFFFFF#32 &&& 0x0E1000D0#32 = 0x000000D0#32 := by decide
theorem witness_ReservedWordsStop :
    0xF0000000#32 &&& 0xF0000000#32 = 0xF0000000#32 ∧ 0xE7910012#32 &&& 0x0E000010#32 = 0x06000010#32 ∧
    0xEA000000#32 &&& 0x0E000000#32 = 0x0A000000#32 ∧ 0xEF000000#32 &&& 0x0E000000#32 = 0x0E000000#32 ∧
    0xE0010392#32 &&& 0x0E0000F0#32 = 0x00000090#32 := by decide
theorem witness_StepRunsDecodedInstruction :
    let s := s0.withFetchWord 32 0xE3A00D3F
    halted s = false ∧ s.pc.toNat % 4 = 0 ∧ mapped s.cfg .fetch s.pc.toNat 4 = true ∧
      decode (s.load s.pc 4) = .ok (.movImm .al false 0#4 13#4 0x3F#8) := by decide
theorem witness_FetchStopsInOrder :
    halted { small [] with pc := 0x8008#32 } = true ∧ halted { small [] with pc := 0x8002#32 } = false ∧ (0x8002#32 : Word).toNat % 4 ≠ 0 ∧
    (0x7000#32 : Word).toNat % 4 = 0 ∧ mapped (small []).cfg .fetch 0x7000 4 = false ∧
    mapped (small []).cfg .fetch 0x8004 4 = true ∧ decode 0xE1A10001#32 = .error .movRnNotZero := by decide
theorem witness_ConditionTable :
    Cond.eq.code.toNat % 2 = 0 ∧ Cond.ne.code.toNat = Cond.eq.code.toNat + 1 ∧ Cond.gt.code.toNat = 12 ∧
      Cond.le.code.toNat = Cond.gt.code.toNat + 1 := by decide
theorem witness_FailedConditionOnlyAdvances :
    (.ldrReg .ne .unlisted true 1#4 0#4 0#5 .lsl 1#4 : Instr).condition? = some .ne ∧
    (.ldrReg .eq .offset true 1#4 0#4 0#5 .lsl 1#4 : Instr).AdmittedBy s0.cfg ∧
    (.ldcPre .eq true false 15#4 0#4 15#4 0#8 : Instr).AdmittedBy s0.cfg ∧
    conditionPassed .eq s0.cpsr = false ∧ lastPc.CanAdvance ∧ ¬ topPc.CanAdvance := by
  refine ⟨rfl, ⟨by decide, by simp [Instr.coprocessor?]⟩, ⟨by decide, ?_⟩, by decide, ?_, ?_⟩
  · intro cp h
    obtain rfl : 15#4 = cp := by simpa [Instr.coprocessor?] using h
    decide
  · unfold State.CanAdvance; decide
  · unfold State.CanAdvance; decide
theorem witness_ShiftByImmediateValue :
    readReg s0 1#4 = .ok 0x9000#32 ∧ readReg s0 Reg.pc = .ok 0x8008#32 ∧ (0#5 : BitVec 5) ≠ 31#5 := by decide
theorem witness_ShiftByRegisterValue :
    readReg s0 1#4 = .ok 0x9000#32 ∧ readReg s0 3#4 = .ok 0#32 ∧
    [0x100#32, 0x101#32, 0x11F#32, 0x120#32, 0x121#32, 0x1FF#32].map (fun y : Word => y.toNat % 256) =
      [0, 1, 31, 32, 33, 255] := by decide
/-- The boundaries of R147 to R150 by 95_test_vectors.md 2.2: amounts 0, 32 and 33 of LSL, 32 and 33 of LSR, 31 and 32 of ASR, 32 and 33 of ROR. -/
theorem test_register_shift_boundaries :
    shiftByReg 0x80000001#32 .lsl 0 true = (0x80000001#32, true) ∧ shiftByReg 0x80000001#32 .lsl 32 false = (0#32, true) ∧
    shiftByReg 0x80000001#32 .lsl 33 true = (0#32, false) ∧ shiftByReg 0x80000001#32 .lsr 32 false = (0#32, true) ∧
    shiftByReg 0x80000001#32 .lsr 33 true = (0#32, false) ∧
    shiftByReg 0x80000001#32 .asr 31 true = (0xFFFFFFFF#32, false) ∧
    shiftByReg 0x80000001#32 .asr 32 false = (0xFFFFFFFF#32, true) ∧
    shiftByReg 0x80000001#32 .ror 32 false = (0x80000001#32, true) ∧
    shiftByReg 0x80000001#32 .ror 33 false = (0xC0000000#32, true) := by decide
theorem witness_RotateWithExtendValue :
    readReg s0 1#4 = .ok 0x9000#32 ∧ conditionPassed .al s0.cpsr = true ∧ (0#4 : Reg) ≠ Reg.pc ∧ s0.CanAdvance := by
  unfold State.CanAdvance; decide
theorem witness_OperandReadOfRegisters :
    (14#4 : Reg) ≠ Reg.pc ∧ s0.cfg.pcReadOffset = some 8 ∧ (small []).cfg.pcReadOffset = none := by decide
theorem witness_LogicalResults :
    conditionPassed .al lastPc.cpsr = true ∧ (14#4 : Reg) ≠ Reg.pc ∧ lastPc.CanAdvance ∧
    evalOperand2 s0 (.imm 15#4 0x41#8) = .ok (0x104#32, false) ∧
    evalOperand2 s0 (.shiftImm 0#5 .lsr 1#4) = .ok (0#32, false) ∧
    evalOperand2 s0 (.shiftReg 2#4 .lsl 1#4) = .ok (0x90000#32, false) ∧
    r15InRegisterShift (.shiftReg 2#4 .lsl 1#4) 14#4 0#4 = false ∧
    r15InRegisterShift (.shiftImm 2#5 .lsl 15#4) 15#4 14#4 = false ∧ readReg s0 1#4 = .ok 0x9000#32 := by
  unfold State.CanAdvance; decide
theorem witness_AddResults :
    conditionPassed .eq { s0.cpsr with z := true } = true ∧ (0#4 : Reg) ≠ Reg.pc ∧ readReg s0 Reg.pc = .ok 0x8008#32 ∧
    s0.CanAdvance ∧ evalOperand2 s0 (.imm 0#4 0xAB#8) = .ok (0xAB#32, false) ∧
    evalOperand2 s0 (.shiftImm 31#5 .lsl 2#4) = .ok (0#32, false) ∧
    evalOperand2 s0 (.shiftReg 2#4 .lsr 1#4) = .ok (0x900#32, false) := by
  unfold State.CanAdvance; decide
theorem witness_ArithmeticResults :
    conditionPassed .al s0.cpsr = true ∧ r15InRegisterShift (.shiftReg 2#4 .ror 2#4) 1#4 0#4 = false ∧
    readReg s0 1#4 = .ok 0x9000#32 ∧ evalOperand2 s0 (.shiftReg 2#4 .ror 2#4) = .ok (0x40000000#32, false) ∧
    s0.CanAdvance := by unfold State.CanAdvance; decide
theorem witness_CompareResults :
    conditionPassed .al s0.cpsr = true ∧ readReg s0 2#4 = .ok 4#32 ∧ s0.CanAdvance ∧
    evalOperand2 s0 (.imm 0#4 0xAB#8) = .ok (0xAB#32, false) ∧
    evalOperand2 s0 (.shiftImm 0#5 .lsl 2#4) = .ok (4#32, false) ∧
    evalOperand2 s0 (.shiftReg 2#4 .asr 1#4) = .ok (0x900#32, false) := by unfold State.CanAdvance; decide
theorem witness_TestResults :
    conditionPassed .al s0.cpsr = true ∧ r15InRegisterShift (.imm 0#4 1#8) 15#4 15#4 = false ∧
    readReg s0 Reg.pc = .ok 0x8008#32 ∧ evalOperand2 s0 (.imm 0#4 1#8) = .ok (1#32, false) ∧ s0.CanAdvance := by
  unfold State.CanAdvance; decide
theorem witness_DataProcessingFrame :
    (.addImm .al true 1#4 0#4 0#4 1#8 : Instr).dpWrites? = some (some 0#4, true) ∧
    (.cmpImm .al 1#4 0#4 1#8 : Instr).dpWrites? = some (none, true) ∧
    (∃ t, exec (.addImm .al true 1#4 0#4 0#4 1#8) s0 = .next t ∧ (t.reg 0#4 == 0x9001#32) = true) ∧
    ∃ t, exec (.cmpImm .al 1#4 0#4 1#8) s0 = .next t ∧ t.cpsr.c = true :=
  ⟨rfl, rfl, next_of_holds (by decide), next_of_holds (p := fun t => t.cpsr.c) (by decide)⟩
theorem witness_RegisterShiftOfR15IsUnpredictable :
    isFormFour 0xE1B0021F#32 ∧ decode 0xE1B0021F#32 = .ok (.movShiftReg .al true 0#4 2#4 .lsl 15#4) ∧
    field 0xE1B0021F#32 0 4 = Reg.pc ∧ isFormFour 0xE11F0011#32 ∧ field 0xE11F0011#32 16 4 = Reg.pc ∧
    isFormFour 0xE111F011#32 ∧ decode 0xE111F011#32 = .ok (.tstDp .al 1#4 15#4 (.shiftReg 0#4 .lsl 1#4)) ∧
    field 0xE111F011#32 12 4 = Reg.pc ∧ isFormFour 0xE1B00F11#32 ∧ field 0xE1B00F11#32 8 4 = Reg.pc := by
  unfold isFormFour; decide
theorem witness_DestinationR15IsRefused :
    isOtherForm 0xE1A0F001#32 ∧ decode 0xE1A0F001#32 = .ok (.movShiftImm .al false 15#4 0#5 .lsl 1#4) ∧
    field 0xE1A0F001#32 12 4 = Reg.pc ∧ 0xE1A0F001#32 &&& 0x01800000#32 ≠ 0x01000000#32 ∧
    isOtherForm 0xE291F001#32 ∧ decode 0xE291F001#32 = .ok (.addImm .al true 1#4 15#4 0#4 1#8) := by
  unfold isOtherForm; decide
theorem witness_BytesOfLoadsAndStores :
    s0.cfg.endian = .little ∧ ({ s0 with cfg := { resetConfig with endian := .big } } : State).cfg.endian = .big := by decide
/-- The byte order of R63: a byte of a stored word, counted from each end. -/
theorem test_byte_order :
    ((s0.store 0x9010#32 4 0x80FF7F01#32).byteAt 0x9011) = 0x7F#8 ∧
    ((({ s0 with cfg := { resetConfig with endian := .big } } : State).store 0x9010#32 4 0x80FF7F01#32).byteAt 0x9011) =
      0xFF#8 := by decide

/-- A state whose configuration reads P = 0, W = 0 as P = 0, W = 1. -/
def postIndexing : State := { s0 with cfg := { resetConfig with p0w0 := .postindexWriteback } }

theorem witness_LoadWordAndByteComplete :
    conditionPassed .al postIndexing.cpsr = true ∧ postIndexing.cfg.p0w0 = .postindexWriteback ∧
    basesWritten .unlisted = true ∧ basesWritten .offset = false ∧ readReg postIndexing 1#4 = .ok 0x9000#32 ∧
    readReg postIndexing Reg.pc = .ok 0x8008#32 ∧ postIndexing.CanAdvance ∧
    (addressOf .unlisted true 0x9000#32 4#32).toNat % 4 = 0 ∧
    mapped postIndexing.cfg .read 0x9000 4 = true ∧ mapped postIndexing.cfg .read 0xFFFFFFFF 1 = true ∧
    (2#4 : Reg) ≠ Reg.pc ∧ (2#4 : Reg) ≠ 1#4 ∧
    evalOperand2 postIndexing (.shiftImm 2#5 .lsl 2#4) = .ok (16#32, false) := by
  unfold State.CanAdvance; decide
theorem witness_StoreWordAndByteComplete :
    conditionPassed .al s0.cpsr = true ∧ basesWritten .preIndexed = true ∧ readReg s0 1#4 = .ok 0x9000#32 ∧
    s0.CanAdvance ∧ (addressOf .preIndexed false 0x9000#32 8#32).toNat % 4 = 0 ∧
    mapped s0.cfg .write 0xFFFFFFFC 4 = true ∧ meetsText s0.cfg 0xFFFFFFFC 4 = false ∧
    mapped (small []).cfg .write 0x9000 1 = true ∧ meetsText (small []).cfg 0x8008 4 = false ∧
    evalOperand2 s0 (.shiftImm 0#5 .lsl 2#4) = .ok (4#32, false) := by
  unfold State.CanAdvance; decide
theorem witness_LoadHalfwordAndSignedComplete :
    conditionPassed .al s0.cpsr = true ∧ (0#4 : Reg) ≠ Reg.pc ∧ (1#4 : Reg) ≠ Reg.pc ∧ (0#4 : Reg) ≠ 1#4 ∧
    s0.CanAdvance ∧ (addressOf .offset true 0x9000#32 (BitVec.ofNat 32 (16 * 15 + 14))).toNat % 2 = 0 ∧
    mapped s0.cfg .read 0x90FE 2 = true ∧ mapped s0.cfg .read 0x90FF 1 = true ∧ s0.reg 2#4 = 4#32 := by
  unfold State.CanAdvance; decide
theorem witness_StoreHalfwordCompletes :
    conditionPassed .al s0.cpsr = true ∧ s0.CanAdvance ∧ (addressOf .postIndexed true 0x9000#32 1#32).toNat % 2 = 0 ∧
    mapped s0.cfg .write 0x9000 2 = true ∧ meetsText s0.cfg 0x9000 2 = false := by
  unfold State.CanAdvance; decide
theorem witness_SingleLoadFrame :
    (.ldrImm .al .preIndexed true 1#4 0#4 4#12 : Instr).single? =
      some ⟨true, 4, .preIndexed, true, 1#4, 0#4, .imm 4#32⟩ ∧
    ∃ t, exec (.ldrImm .al .preIndexed true 1#4 0#4 4#12) s0 = .next t ∧ (t.reg 1#4 == 0x9004#32) = true :=
  ⟨rfl, next_of_holds (by decide)⟩
theorem witness_SingleStoreFrame :
    (.strImm .al .postIndexed true 1#4 2#4 4#12 : Instr).single? =
      some ⟨false, 4, .postIndexed, true, 1#4, 2#4, .imm 4#32⟩ ∧
    (∃ t, exec (.strImm .al .postIndexed true 1#4 2#4 4#12) s0 = .next t ∧ (t.byteAt 0x9000 == 4#8) = true) ∧
    conditionPassed .al s0.cpsr = true ∧ readReg s0 1#4 = .ok 0x9000#32 ∧ evalOffset s0 (.imm 4#32) = .ok 4#32 ∧
    (∃ t, exec (.strImm .eq .postIndexed true 1#4 2#4 4#12) s0 = .next t ∧ (t.byteAt 0x9000 == 0#8) = true) ∧
    conditionPassed .eq s0.cpsr = false :=
  ⟨rfl, next_of_holds (by decide), by decide, by decide, by decide, next_of_holds (by decide), by decide⟩
theorem witness_IndexRegisterRestriction :
    0xE791000F#32 &&& 0x0E000010#32 = 0x06000000#32 ∧
    decode 0xE791000F#32 = .ok (.ldrReg .al .offset true 1#4 0#4 0#5 .lsl 15#4) ∧
    0xE7A10101#32 &&& 0x0E000010#32 = 0x06000000#32 ∧
    decode 0xE7A10101#32 = .ok (.strReg .al .preIndexed true 1#4 0#4 2#5 .lsl 1#4) ∧
    (.strReg .al .preIndexed true 1#4 0#4 2#5 .lsl 1#4 : Instr).AdmittedBy s0.cfg ∧ conditionPassed .al s0.cpsr = true :=
  ⟨by decide, by decide, by decide, by decide, ⟨by decide, by simp [Instr.coprocessor?]⟩, by decide⟩
theorem witness_HalfwordImmediateBaseRestriction :
    0xE1DF20B4#32 &&& 0x0E400090#32 = 0x00400090#32 ∧
    decode 0xE1DF20B4#32 = .ok (.ldrhImm .al .offset true 15#4 2#4 0#4 4#4) ∧
    (.ldrhImm .al .offset true 15#4 2#4 0#4 4#4 : Instr).single?.isSome = true ∧
    (.ldrhImm .al .offset true 15#4 2#4 0#4 4#4 : Instr).AdmittedBy s0.cfg ∧ conditionPassed .al s0.cpsr = true ∧
    field 0xE1DF20B4#32 16 4 = Reg.pc :=
  ⟨by decide, by decide, rfl, ⟨by decide, by simp [Instr.coprocessor?]⟩, by decide, by decide⟩
theorem witness_HalfwordRegisterRestriction :
    0xE19120B1#32 &&& 0x0E400090#32 = 0x00000090#32 ∧
    decode 0xE19120B1#32 = .ok (.ldrhReg .al .offset true 1#4 2#4 1#4) ∧
    decode 0xE19120BF#32 = .ok (.ldrhReg .al .offset true 1#4 2#4 15#4) ∧
    decode 0xE19F20B1#32 = .ok (.ldrhReg .al .offset true 15#4 2#4 1#4) ∧
    (.ldrhReg .al .offset true 1#4 2#4 1#4 : Instr).single?.isSome = true ∧
    (.ldrhReg .al .offset true 1#4 2#4 1#4 : Instr).AdmittedBy s0.cfg ∧ conditionPassed .al s0.cpsr = true :=
  ⟨by decide, by decide, by decide, by decide, rfl, ⟨by decide, by simp [Instr.coprocessor?]⟩, by decide⟩
theorem witness_TransferRegisterRestrictions :
    (.ldrImm .al .preIndexed true 1#4 1#4 4#12 : Instr).single? =
      some ⟨true, 4, .preIndexed, true, 1#4, 1#4, .imm 4#32⟩ ∧
    (⟨true, 4, .preIndexed, true, 1#4, 1#4, .imm 4#32⟩ : SingleTransfer).IndexAllowed ∧
    (.ldrImm .al .preIndexed true 1#4 1#4 4#12 : Instr).AdmittedBy s0.cfg ∧ conditionPassed .al s0.cpsr = true ∧
    (.strReg .al .offset true 15#4 15#4 0#5 .lsl 2#4 : Instr).single? =
      some ⟨false, 4, .offset, true, 15#4, 15#4, .scaled 0#5 .lsl 2#4⟩ ∧
    (⟨false, 4, .offset, true, 15#4, 15#4, .scaled 0#5 .lsl 2#4⟩ : SingleTransfer).IndexAllowed ∧
    encode (.strReg .al .offset true 15#4 15#4 0#5 .lsl 2#4) &&& 0x0C000000#32 = 0x04000000#32 ∧
    encode (.ldrbImm .al .postIndexed true 15#4 0#4 4#12) &&& 0x0C000000#32 = 0x04000000#32 := by
  refine ⟨rfl, by simp [SingleTransfer.IndexAllowed], ⟨by decide, by simp [Instr.coprocessor?]⟩, by decide, rfl, ?_,
    by decide, by decide⟩
  intro a t m h
  obtain ⟨-, -, rfl⟩ : (0#5 : BitVec 5) = a ∧ ShiftType.lsl = t ∧ (2#4 : Reg) = m := by simpa using h
  decide
theorem witness_UnlistedIndexingFollowsParameter :
    (.strhReg .ne .unlisted true 1#4 0#4 2#4 : Instr).indexing? = some .unlisted ∧ s0.cfg.p0w0 = .refuse ∧
    postIndexing.cfg.p0w0 = .postindexWriteback := ⟨rfl, rfl, rfl⟩
theorem witness_SingleTransferAddressStops :
    (.strhImm .al .offset true 1#4 2#4 0#4 1#4 : Instr).single? =
      some ⟨false, 2, .offset, true, 1#4, 2#4, .imm 1#32⟩ ∧
    (⟨false, 2, .offset, true, 1#4, 2#4, .imm 1#32⟩ : SingleTransfer).IndexAllowed ∧
    (.strhImm .al .offset true 1#4 2#4 0#4 1#4 : Instr).AdmittedBy (small []).cfg ∧
    readReg (small [(1, 0x8006#32)]) 1#4 = .ok 0x8006#32 ∧ evalOffset (small []) (.imm 1#32) = .ok 1#32 ∧
    (addressOf .offset true 0x8006#32 1#32).toNat % 2 ≠ 0 ∧ mapped (small []).cfg .write 0x8FFE 2 = false ∧
    mapped (small []).cfg .write 0x8006 2 = true ∧ meetsText (small []).cfg 0x8006 2 = true :=
  ⟨rfl, by simp [SingleTransfer.IndexAllowed], ⟨by decide, by simp [Instr.coprocessor?]⟩, by decide, by decide, by decide,
    by decide, by decide, by decide⟩
theorem witness_StoreThenLoadReturnsValue :
    conditionPassed .al s0.cpsr = true ∧ (1#4 : Reg) ≠ Reg.pc ∧
    (∃ t, exec (.strImm .al .offset true 1#4 2#4 4#12) s0 = .next t ∧ (t.pc == 0x8004#32) = true) ∧
    mapped s0.cfg .read (addressOf .offset true (s0.reg 1#4) 4#32).toNat 4 = true :=
  ⟨by decide, by decide, next_of_holds (by decide), by decide⟩
theorem witness_BlockAddressTable : (3#32 : Word) = BitVec.ofNat 32 (rankIn 0x0106#16 16) ∧ (0x0106#16 : BitVec 16) ≠ 0#16 := by
  decide
theorem witness_LoadMultipleCompletes :
    conditionPassed .al s0.cpsr = true ∧ (1#4 : Reg) ≠ Reg.pc ∧ ¬ (inList 0x0105#16 1#4 = true ∧ true = true) ∧
    inList 0x7FFF#16 Reg.pc = false ∧ (banked []).cfg.modes ≠ [] ∧
    BlockAdmitted s0 .read (lsmStart s0 true false 1#4 0x0105#16) (countOf 0x0105#16) ∧ s0.CanAdvance ∧
    lastAtHome (s0.lsmHome false 0x0105#16) 0x0105#16 0#4 ∧
    ¬ (true = true ∧ s0.lsmHome false 0x0105#16 0#4 = s0.home 1#4) := by
  unfold BlockAdmitted State.CanAdvance lastAtHome; decide
theorem witness_LoadMultipleReturns :
    conditionPassed .al (banked []).cpsr = true ∧ inList 0x8001#16 Reg.pc = true ∧ (banked []).cfg.modes ≠ [] ∧
    hasSpsr (banked []).cfg (banked []).cpsr.mode = true ∧
    BlockAdmitted (banked [(1, 0x9000#32)]) .read (lsmStart (banked [(1, 0x9000#32)]) false true 1#4 0x8001#16) 2 ∧
    ((banked [(1, 0x9000#32)]).load (lsmAddress (banked [(1, 0x9000#32)]) false true 1#4 0x8001#16 Reg.pc) 4).toNat % 4 = 0 ∧
    lastAtHome (banked []).home 0x8001#16 0#4 := by
  unfold BlockAdmitted lastAtHome; decide
theorem witness_StoreMultipleCompletes :
    conditionPassed .al (small []).cpsr = true ∧ ¬ (inList 0x0C3E#16 0#4 = true ∧ true = true) ∧
    inList 0x0C3E#16 Reg.pc = false ∧
    BlockAdmitted (small [(0, 0x902C#32)]) .write (lsmStart (small [(0, 0x902C#32)]) true false 0#4 0x0C3E#16) 7 ∧
    meetsText (small []).cfg 0x9010 28 = false ∧ (small []).CanAdvance := by
  unfold BlockAdmitted State.CanAdvance; decide
theorem witness_UserBankTransfer :
    lastAtHome (userHome (banked []).cfg) 0x6000#16 14#4 ∧ conditionPassed .al (banked []).cpsr = true ∧ inList 0x6000#16 Reg.pc = false ∧
    (∃ t, exec (.ldm .al false true true false 0#4 0x6000#16) (banked [(0, 0x9008#32)]) = .next t ∧
      (t.usrReg 13#4 == 0x1002#32) = true) ∧
    ∃ t, exec (.stm .al false true true false 0#4 0x6000#16) (banked [(0, 0x9008#32), (13, 5#32)]) = .next t ∧
      (t.load 0x9008#32 4 == 5#32) = true :=
  ⟨by unfold lastAtHome; decide, by decide, by decide, next_of_holds (by decide), next_of_holds (by decide)⟩
theorem witness_MultipleTransferFrame :
    (∃ t, exec (.ldm .al false true false true 1#4 0x0001#16) s0 = .next t ∧ (t.reg 1#4 == 0x9004#32) = true) ∧
    (∃ t, exec (.stm .al false true false true 1#4 0x0004#16) s0 = .next t ∧ (t.load 0x9000#32 4 == 4#32) = true) ∧
    conditionPassed .al s0.cpsr = true ∧
    (∃ t, exec (.stm .eq false true false true 1#4 0x0004#16) s0 = .next t ∧ (t.load 0x9000#32 4 == 0#32) = true) ∧
    conditionPassed .eq s0.cpsr = false :=
  ⟨next_of_holds (by decide), next_of_holds (by decide), by decide, next_of_holds (by decide), by decide⟩
theorem witness_MultipleTransferCornerCases :
    conditionPassed .al s0.cpsr = true ∧ inList 0x0001#16 0#4 = true ∧ inList 0x8000#16 Reg.pc = true ∧
    inList 0x7FFF#16 Reg.pc = false ∧ s0.cfg.modes = [] ∧ (banked []).cfg.modes ≠ [] ∧
    hasSpsr (banked []).cfg .user = false := by decide
/-- The two cases of the table that need a second mode, each with all that its clause asks. -/
theorem witness_MultipleTransferCornerCases_modes :
    conditionPassed .al (banked []).cpsr = true ∧ (0x0006#16 : BitVec 16) ≠ 0#16 ∧ (0#4 : Reg) ≠ Reg.pc ∧
    ¬ (inList 0x0006#16 0#4 = true ∧ true = true) ∧ inList 0x0006#16 Reg.pc = false ∧
    stop (banked []) 0xE8F00006#32 = some (.fault (.unpredictable .userBankWithWriteback)) ∧
    inList 0x8006#16 Reg.pc = true ∧ ¬ (inList 0x8006#16 0#4 = true ∧ false = true) ∧ (banked []).cfg.modes ≠ [] ∧
    hasSpsr (banked []).cfg ({ banked [] with cpsr := resetPsr } : State).cpsr.mode = false ∧
    stop { banked [] with cpsr := resetPsr } 0xE8D08006#32 = some (.fault (.unpredictable .noSpsr)) := by decide
theorem witness_MultipleTransferAddressStops :
    conditionPassed .al s0.cpsr = true ∧ (0x0006#16 : BitVec 16) ≠ 0#16 ∧ ¬ (inList 0x0006#16 0#4 = true ∧ true = true) ∧
    lsmStart (small [(0, 0xFFFFFFFC#32)]) false true 0#4 0x0006#16 = 0xFFFFFFFC#32 ∧ countOf 0x0006#16 = 2 ∧
    lsmStart (small [(0, 0x9012#32)]) false true 0#4 0x0006#16 = 0x9012#32 ∧ (0x9012#32 : Word).toNat % 4 ≠ 0 ∧
    mapped (small []).cfg .read (wordAddr 0x902C#32 0).toNat 4 = true ∧
    mapped (small []).cfg .read (wordAddr 0x902C#32 1).toNat 4 = false ∧
    BlockAdmitted (small []) .write 0x8000#32 2 ∧ meetsText (small []).cfg 0x8000 8 = true ∧
    BlockAdmitted (small []) .read 0x9010#32 2 ∧ ((small []).load (wordAddr 0x9010#32 1) 4).toNat % 4 ≠ 0 := by
  unfold BlockAdmitted; decide
theorem witness_OppositeModeRestoresBlock :
    conditionPassed .al s0.cpsr = true ∧
    (∃ t, exec (.stm .al true false false true 1#4 0x0005#16) s0 = .next t ∧ (t.pc == 0x8004#32) = true) ∧
    ∀ j, j < countOf 0x0005#16 → mapped s0.cfg .read (wordAddr (lsmStart s0 true false 1#4 0x0005#16) j).toNat 4 = true :=
  ⟨by decide, next_of_holds (by decide), by decide⟩
theorem witness_CoprocessorLoadCompletes :
    (.ldcPost .al false false 1#4 3#4 5#4 2#8 : Instr).cpAccess? =
      some ⟨true, false, .postIndexed, false, 1#4, 3#4, 5#4, 2#8⟩ ∧
    (.ldcUnindexed .al true false 15#4 3#4 5#4 0x2A#8 : Instr).cpAccess? =
      some ⟨true, false, .unlisted, true, 15#4, 3#4, 5#4, 0x2A#8⟩ ∧
    conditionPassed .al s0.cpsr = true ∧ s0.cfg.coprocs.contains 5#4 = true ∧ readReg s0 1#4 = .ok 0x9000#32 ∧
    readReg s0 Reg.pc = .ok 0x8008#32 ∧
    BlockAdmitted s0 .read (CpAccess.first ⟨true, false, .postIndexed, false, 1#4, 3#4, 5#4, 2#8⟩ 0x9000#32) 16 ∧
    BlockAdmitted s0 .read 0xFFFFFFC0#32 16 ∧ s0.CanAdvance := by
  unfold BlockAdmitted State.CanAdvance; decide
theorem witness_CoprocessorStoreCompletes :
    (.stcPre .al false true 1#4 0#4 1#4 4#8 : Instr).cpAccess? =
      some ⟨false, true, .preIndexed, false, 1#4, 0#4, 1#4, 4#8⟩ ∧
    conditionPassed .al s0.cpsr = true ∧ s0.cfg.coprocs.contains 1#4 = true ∧ readReg s0 1#4 = .ok 0x9000#32 ∧
    BlockAdmitted s0 .write (CpAccess.first ⟨false, true, .preIndexed, false, 1#4, 0#4, 1#4, 4#8⟩ 0x9000#32) 16 ∧
    meetsText s0.cfg 0x8FF0 64 = false ∧ s0.CanAdvance := by
  unfold BlockAdmitted State.CanAdvance; decide

/-- On the configuration of reset every block of words below the top that a coprocessor draws is admitted. -/
theorem drawn_block_ok (k : AccessKind) (start : Word) (h : BlockAdmitted s0 k start 16) :
    checkBlock s0 k start (drawnCount s0.draws) = .ok () := by
  have hk := drawnCount_range s0.draws
  obtain ⟨h1, h2, h3⟩ := h
  refine (checkBlock_ok _ _ _ _ _).2 ⟨?_, h2, fun i hi => h3 i (by omega),
    fun _ => (meetsText_eq_false _ _ _).2 fun _ _ _ => rfl⟩
  simp only [addressSpace]
  omega

/-- The pc of those states can advance. -/
theorem advance_exists (t : State) (h : t.pc = s0.pc) : ∃ u, advance t = .ok u :=
  ⟨_, advance_of_lt (by rw [h]; decide)⟩

theorem cp_first_9008 : cpFirst .preIndexed true 0x9000#32 2#8 = 0x9008#32 := by decide

theorem witness_CoprocessorTransferFrame :
    (.ldcPre .al true false 1#4 3#4 5#4 2#8 : Instr).cpAccess? =
      some ⟨true, false, .preIndexed, true, 1#4, 3#4, 5#4, 2#8⟩ ∧
    CpAccess.writeBack ⟨true, false, .preIndexed, true, 1#4, 3#4, 5#4, 2#8⟩ 0x9000#32 = some 0x9008#32 ∧
    (∃ t, exec (.stcPre .eq true false 1#4 3#4 5#4 2#8) s0 = .next t ∧ (t.reg 1#4 == 0x9000#32) = true) :=
  ⟨rfl, by decide, next_of_holds (by decide)⟩

theorem witness_CoprocessorTransferFrame_load : ∃ t, exec (.ldcPre .al true false 1#4 3#4 5#4 2#8) s0 = .next t := by
  obtain ⟨u, hu⟩ := advance_exists (writeCpBase .preIndexed 1#4 (indexed true 0x9000#32 (cpOffset 2#8))
    (s0.noteTransfer ⟨true, 5#4, 3#4, false, cpOption .preIndexed 2#8,
      s0.loadWords (cpFirst .preIndexed true 0x9000#32 2#8) (drawnCount s0.draws)⟩)) (by simp)
  have hb := drawn_block_ok .read 0x9008#32 (by unfold BlockAdmitted; decide)
  rw [← cp_first_9008] at hb
  exact ⟨u, (execCp_load_next s0 u (encode (.ldcPre .al true false 1#4 3#4 5#4 2#8)) .al .preIndexed true
    false 1#4 3#4 5#4 2#8).2 ⟨by decide, .inl ⟨by decide, by decide, 0x9000#32, by decide, hb, hu⟩⟩⟩

theorem witness_CoprocessorTransferFrame_store : ∃ t, exec (.stcPre .al true false 1#4 3#4 5#4 2#8) s0 = .next t := by
  obtain ⟨u, hu⟩ := advance_exists (writeCpBase .preIndexed 1#4 (indexed true 0x9000#32 (cpOffset 2#8))
    ((s0.storeWords (cpFirst .preIndexed true 0x9000#32 2#8) (drawnWords s0.draws)).noteTransfer
      ⟨false, 5#4, 3#4, false, cpOption .preIndexed 2#8, drawnWords s0.draws⟩)) (by simp)
  have hb := drawn_block_ok .write 0x9008#32 (by unfold BlockAdmitted; decide)
  rw [← cp_first_9008] at hb
  exact ⟨u, (execCp_store_next s0 u (encode (.stcPre .al true false 1#4 3#4 5#4 2#8)) .al .preIndexed true
    false 1#4 3#4 5#4 2#8).2 ⟨by decide, .inl ⟨by decide, by decide, 0x9000#32, by decide, hb, hu⟩⟩⟩

theorem witness_CoprocessorTransferStops :
    ((small []).cfg.coprocs.contains 15#4 = true ∧ ({ resetConfig with coprocs := [] } : Config).coprocs.contains 5#4 = false) ∧
    (.stcPost .al true false 15#4 3#4 5#4 2#8 : Instr).cpAccess? =
      some ⟨false, false, .postIndexed, true, 15#4, 3#4, 5#4, 2#8⟩ ∧
    conditionPassed .al s0.cpsr = true ∧ readReg (small [(1, 0x9011#32)]) 1#4 = .ok 0x9011#32 ∧
    (CpAccess.first ⟨true, false, .offset, true, 1#4, 3#4, 5#4, 2#8⟩ 0x9011#32).toNat % 4 ≠ 0 ∧
    mapped (small []).cfg .read 0xA000 4 = false := by decide

/-- A step of a MOV, one of a store and one of an LDM that returns. -/
def movStep : State := s0.withFetchWord 32 0xE3B00D3F
def strStep : State := s0.withFetchWord 32 0xE4A12004
def returnStep : State := (banked [(0, 0x9000#32)]).withFetchWord 32 0xE8D0A000
def userStep : State := (banked [(0, 0x9008#32)]).withFetchWord 32 0xE8D06000

theorem witness_StepKeepsStateWellFormed :
    returnStep.inv = true ∧ ∃ t, step returnStep = .next t ∧ (t.pc == 0x8100#32) = true :=
  ⟨by decide, next_of_holds (by decide)⟩
theorem witness_StepKeepsSavedStatus :
    (∃ t, step movStep = .next t ∧ (t.draws == 0) = true) ∧
    ∃ t, step (s0.withFetchWord 32 0x0D913502) = .next t ∧ (t.draws == 0) = true :=
  ⟨next_of_holds (by decide), next_of_holds (by decide)⟩
theorem witness_ProgramTextIsImmutable :
    ({ base := 0x8000, size := 8 } : Span) ∈ (small []).cfg.text ∧
    ∃ t, step ((small [(1, 0x9000#32), (2, 4#32)]).withFetchWord 32 0xE4A12004) = .next t ∧
      (t.byteAt 0x8000 == 0x04#8) = true :=
  ⟨by decide, next_of_holds (by decide)⟩
theorem witness_OnlyLoadMultipleTransfersControl :
    (∃ t, step movStep = .next t ∧ (t.pc == 0x8004#32) = true) ∧
    ∃ t, step returnStep = .next t ∧ (t.pc == 0x8100#32) = true :=
  ⟨next_of_holds (by decide), next_of_holds (by decide)⟩
theorem witness_WhatWritesTheStatusRegister :
    (∃ t, step (s0.withFetchWord 32 0xE3B00000) = .next t ∧ decide (t.cpsr ≠ s0.cpsr) = true) ∧
    ∃ t, step returnStep = .next t ∧ decide (t.cpsr ≠ returnStep.cpsr) = true :=
  ⟨next_of_holds (p := fun t => decide (t.cpsr ≠ s0.cpsr)) (by decide),
    next_of_holds (p := fun t => decide (t.cpsr ≠ returnStep.cpsr)) (by decide)⟩
theorem witness_OnlyStoresChangeMappedMemory :
    ∃ t, step strStep = .next t ∧ decide (t.byteAt 0x9000 ≠ strStep.byteAt 0x9000) = true :=
  next_of_holds (p := fun t => decide (t.byteAt 0x9000 ≠ strStep.byteAt 0x9000)) (by decide)
theorem witness_OtherBanksAreKept :
    (∃ t, step movStep = .next t ∧ decide (t.phys 0 ≠ movStep.phys 0) = true) ∧
    ∃ t, step userStep = .next t ∧ decide (t.phys 13 ≠ userStep.phys 13) = true :=
  ⟨next_of_holds (p := fun t => decide (t.phys 0 ≠ movStep.phys 0)) (by decide),
    next_of_holds (p := fun t => decide (t.phys 13 ≠ userStep.phys 13)) (by decide)⟩
theorem witness_CoprocessorBlockStops :
    (.stcOffset .al true false 1#4 3#4 5#4 0#8 : Instr).cpAccess? =
      some ⟨false, false, .offset, true, 1#4, 3#4, 5#4, 0#8⟩ ∧
    conditionPassed .al s0.cpsr = true ∧ s0.cfg.coprocs.contains 5#4 = true ∧ readReg s0 1#4 = .ok 0x9000#32 ∧
    CpAccess.first ⟨false, false, .offset, true, 1#4, 3#4, 5#4, 0#8⟩ 0x9000#32 = 0x9000#32 ∧
    (2 ^ 32 < (0xFFFFFFFC#32 : Word).toNat + 4 * 2 ∧ (0xFFFFFFC0#32 : Word).toNat + 4 * 16 ≤ 2 ^ 32) ∧
    mapped (small []).cfg .write (wordAddr 0x902C#32 0).toNat 4 = true ∧
    mapped (small []).cfg .write (wordAddr 0x902C#32 1).toNat 4 = false ∧
    BlockAdmitted (small []) .write 0x8004#32 1 ∧ meetsText (small []).cfg 0x8004 4 = true ∧
    BlockAdmitted s0 .write 0x9000#32 16 ∧ meetsText s0.cfg 0x9000 64 = false ∧ s0.CanAdvance := by
  unfold BlockAdmitted State.CanAdvance; decide

end Sys2Proof.Tests
end

section
/-! PROOFS. The second operand and its register restriction (41_data_processing_operand2.md R151 to R153): what the
masks of a word say of its fields, how a data-processing word runs, and the outcomes of the shared execution `execDp`. -/

namespace Sys2Proof

/-! ### Fields of a masked word -/

/-- Where the mask is all ones, the masked word's field is the word's own. -/
theorem field_of_masked {w m v : Word} {lo len : Nat} (h : w &&& m = v) (hm : field m lo len = BitVec.allOnes len) :
    field w lo len = field v lo len := by
  unfold field at *
  rw [← h, BitVec.extractLsb'_and, hm, BitVec.and_allOnes]

/-- Where the mask is 1, the masked word's bit is the word's own. -/
theorem bit_of_masked {w m v : Word} {i : Nat} (h : w &&& m = v) (hm : bit m i = true) : bit w i = bit v i := by
  unfold bit at *
  rw [← h, BitVec.getLsbD_and, hm, Bool.and_true]

/-! ### Form 4 words -/

/-- Form 4 lies in the class `instr[27:25] = 000` (R99). -/
theorem isFormFour.class_eq {w : Word} (h : isFormFour w) : field w 25 3 = 0#3 := field_of_masked h (by decide)

theorem isFormFour.bit25 {w : Word} (h : isFormFour w) : bit w 25 = false := bit_of_masked h (by decide)

theorem isFormFour.bit7 {w : Word} (h : isFormFour w) : bit w 7 = false := bit_of_masked h (by decide)

theorem isFormFour.bit4 {w : Word} (h : isFormFour w) : bit w 4 = true := bit_of_masked h (by decide)

/-- The second operand of a form 4 word is a register shifted by a register (R99). -/
theorem isFormFour.decodeOperand2_eq {w : Word} (h : isFormFour w) :
    decodeOperand2 w = .shiftReg (field w 8 4) (shiftOfCode (field w 5 2)) (field w 0 4) := by
  simp [decodeOperand2, h.bit25, h.bit4]

/-- A form 4 word with a condition is a data-processing word: bit 7 keeps it out of the halfword and multiply space. -/
theorem isFormFour.decode_eq {w : Word} {c : Cond} (h : isFormFour w) (hc : condOfCode (field w 28 4) = some c) :
    decode w = decodeDp c w := by
  simp [decode, hc, h.class_eq, h.bit7]

end Sys2Proof

namespace Sys2Proof.Machine

/-! ### How a data-processing word runs -/

/-- The operation of an opcode field, in the order of R158's table. -/
def dpOpOfCode (b : BitVec 4) : DpOp :=
  match b.toNat with
  | 0 => .and | 1 => .eor | 2 => .sub | 3 => .rsb | 4 => .add | 5 => .adc | 6 => .sbc | 7 => .rsc
  | 8 => .tst | 9 => .teq | 10 => .cmp | 11 => .cmn | 12 => .orr | 13 => .mov | 14 => .bic | _ => .mvn

/-- The instruction has the condition `c` and runs as the operation `op` on the S bit, the Rn and Rd fields and the
second operand of the word. -/
def RunsAsDp (c : Cond) (w : Word) (op : DpOp) (i : Instr) : Prop :=
  i.condition? = some c ∧
    ∀ s, exec i s = execDp op c (bit w 20) (field w 16 4) (field w 12 4) (decodeOperand2 w) s

/-- MOV runs on its Rn field too: the decoder admits only 0000 there (R124). -/
theorem decodeMov_runs {c : Cond} {w : Word} {i : Instr} (h : decodeMov c w = .ok i) : RunsAsDp c w .mov i := by
  unfold decodeMov at h
  split at h
  next hrn =>
    cases hop : decodeOperand2 w <;> rw [hop] at h <;> cases h <;>
      exact ⟨rfl, fun s => by rw [hrn, hop]; rfl⟩
  next => cases h

theorem decodeAdd_runs (c : Cond) (w : Word) : RunsAsDp c w .add (decodeAdd c w) := by
  unfold decodeAdd
  cases hop : decodeOperand2 w <;> exact ⟨rfl, fun s => by rw [hop]; rfl⟩

/-- CMP runs on its Rd field too: the decoder admits only 0000 there (R124). -/
theorem decodeCmp_runs {c : Cond} {w : Word} {i : Instr} (hs : bit w 20 = true) (h : decodeCmp c w = .ok i) :
    RunsAsDp c w .cmp i := by
  unfold decodeCmp at h
  split at h
  next hrd =>
    cases hop : decodeOperand2 w <;> rw [hop] at h <;> cases h <;>
      exact ⟨rfl, fun s => by rw [hs, hrd, hop]; rfl⟩
  next => cases h

/-- A guarded answer is given exactly where the guard holds. -/
theorem ite_error_eq_ok {ε α : Type} {b : Bool} {x : Except ε α} {e : ε} {a : α} :
    (if b then x else .error e) = .ok a ↔ b = true ∧ x = .ok a := by
  cases b <;> simp

/-- Every word that `decodeDp` accepts runs as the operation of its opcode field on its own fields, whichever
constructor it decodes to (R140, R158). -/
theorem decodeDp_runs {c : Cond} {w : Word} {i : Instr} (h : decodeDp c w = .ok i) :
    RunsAsDp c w (dpOpOfCode (field w 21 4)) i := by
  unfold decodeDp at h
  unfold dpOpOfCode
  generalize (field w 21 4).toNat = opcode at h ⊢
  match opcode, h with
  | 0, h | 1, h | 2, h | 3, h | 5, h | 6, h | 7, h | 12, h | 14, h | _ + 15, h => cases h; exact ⟨rfl, fun _ => rfl⟩
  | 4, h => cases h; exact decodeAdd_runs c w
  | 8, h | 9, h | 11, h =>
    obtain ⟨hs, h⟩ := ite_error_eq_ok.1 h
    cases h
    exact ⟨rfl, fun _ => by rw [hs]; rfl⟩
  | 10, h =>
    obtain ⟨hs, h⟩ := ite_error_eq_ok.1 h
    exact decodeCmp_runs hs h
  | 13, h => exact decodeMov_runs h

/-- A form 4 word that decodes to an instruction with a condition runs as the operation of its opcode field. -/
theorem formFour_runs {c : Cond} {w : Word} {i : Instr} (hw : isFormFour w) (hd : decode w = .ok i)
    (hi : i.condition? = some c) : RunsAsDp c w (dpOpOfCode (field w 21 4)) i := by
  cases hcode : condOfCode (field w 28 4) with
  | none =>
    obtain rfl : Instr.undefinedCond1111 w = i := by simpa [decode, hcode] using hd
    cases hi
  | some c' =>
    have hrun := decodeDp_runs (hw.decode_eq hcode ▸ hd)
    obtain rfl : c' = c := by simpa [hrun.1] using hi
    exact hrun

/-! ### The outcomes of the shared execution -/

/-- Where the condition passes and the operands are admitted and read, the instruction completes (R140). -/
theorem execDp_completes {op : DpOp} {c : Cond} {sf : Bool} {rn rd : Reg} {op2 : Operand2} {s : State} {a : Word}
    {v : Shifted} (hc : conditionPassed c s.cpsr = true) (hr15 : r15InRegisterShift op2 rn rd = false)
    (hrd : (writesRd op && rd == Reg.pc) = false) (ha : firstOperand op s rn = .ok a)
    (hv : evalOperand2 s op2 = .ok v) (hpc : s.CanAdvance) :
    execDp op c sf rn rd op2 s = .next { applyDp op sf rd a v s with pc := s.pc + 4#32 } := by
  rw [execDp_next]
  exact .inl ⟨hc, hr15, hrd, a, ha, v, hv, (advance_ok _ _).2 ⟨by rw [applyDp_pc]; exact hpc, by simp⟩⟩

/-- The check on R15 in a register-specified shift comes first, before any register is read (R153). -/
theorem execDp_unpredictable {op : DpOp} {c : Cond} {sf : Bool} {rn rd : Reg} {op2 : Operand2} {s : State}
    (hc : conditionPassed c s.cpsr = true) (hr15 : r15InRegisterShift op2 rn rd = true) :
    execDp op c sf rn rd op2 s = .fault (.unpredictable .r15InRegisterShift) := by
  unfold execDp checkDpRegs
  rw [execute_passed hc, hr15]
  rfl

/-- Which registers the check on a register-specified shift looks at (R153). -/
theorem r15InRegisterShift_shiftReg (rs : Reg) (ty : ShiftType) (rm rn rd : Reg) :
    r15InRegisterShift (.shiftReg rs ty rm) rn rd = true ↔
      rn = Reg.pc ∨ rd = Reg.pc ∨ rs = Reg.pc ∨ rm = Reg.pc := by
  simp only [r15InRegisterShift, Bool.or_eq_true, beq_iff_eq]
  tauto

/-! ### Rotate right with extend -/

/-- RRX as a number: the carry at bit 31 above the halved word, which stays below it, so that
their OR is a sum (R151). -/
theorem rrx_toNat (v : Word) (carry : Bool) :
    (rrx v carry).1.toNat = (if carry then 2 ^ 31 else 0) + v.toNat / 2 := by
  have hlow : v.toNat / 2 < 2 ^ 31 := by omega
  have hor := Nat.shiftLeft_add_eq_or_of_lt hlow carry.toNat
  cases carry <;> simp_all [rrx, Nat.shiftRight_eq_div_pow]

/-- The operand (ROR, 0) is RRX of the register with the C flag (R100, R151). -/
theorem evalOperand2_rrx {s : State} {rm : Reg} {x : Word} (h : readReg s rm = .ok x) :
    evalOperand2 s (.shiftImm 0#5 .ror rm) = .ok (rrx x s.cpsr.c) := by
  simp [evalOperand2, h, shiftByImm]

/-- MOV with S = 1 of an operand shifted by an immediate completes, and the shifter's carry-out is the C flag after it
(R152, decision D8). -/
theorem movs_writes_carryOut {s : State} {c : Cond} {rd rm : Reg} {amount : BitVec 5} {ty : ShiftType} {v : Shifted}
    (hc : conditionPassed c s.cpsr = true) (hrd : rd ≠ Reg.pc) (hpc : s.CanAdvance)
    (hv : evalOperand2 s (.shiftImm amount ty rm) = .ok v) :
    ∃ t, exec (.movShiftImm c true rd amount ty rm) s = .next t ∧ t.cpsr.c = v.2 := by
  have hrun : exec (.movShiftImm c true rd amount ty rm) s = execDp .mov c true 0#4 rd (.shiftImm amount ty rm) s := rfl
  refine ⟨_, hrun.trans (execDp_completes hc rfl (by simp [hrd]) rfl hv hpc), ?_⟩
  simp [flagsOf, compute]

/-! ### The obligations -/

/-- Settles O15: the operand by `evalOperand2_rrx`, whose carry-out is Rm[0], and the flag by `movs_writes_carryOut`. -/
theorem rotateWithExtendValue : Obligations.RotateWithExtendValue := by
  intro s rm x hx
  have hop := evalOperand2_rrx hx
  exact ⟨⟨_, hop, rrx_toNat x s.cpsr.c⟩, fun _ _ hc hrd hpc => movs_writes_carryOut hc hrd hpc hop⟩

/-- Settles O23: a form 4 word runs as `execDp` on its own four register fields, of which R153's check finds the 15. -/
theorem registerShiftOfR15IsUnpredictable : Obligations.RegisterShiftOfR15IsUnpredictable := by
  intro s w i c hw hd hi hc hfield
  obtain ⟨-, hexec⟩ := formFour_runs hw hd hi
  rw [hexec, hw.decodeOperand2_eq]
  exact execDp_unpredictable hc ((r15InRegisterShift_shiftReg ..).2 hfield)

end Sys2Proof.Machine
end

section
/-! PROOFS. The word and byte Load/Store with a register offset (42_load_store_word_byte.md R191): how a word of the
class runs, and where the shared execution `execLs` stops at the check on the index register. -/

namespace Sys2Proof

/-! ### Words with a register offset -/

/-- A word or byte Load/Store with a register or scaled-register offset: `instr[27:25] = 011`, bit 4 = 0 (R104, R105). -/
def isLsRegister (w : Word) : Prop := w &&& 0x0E000010#32 = 0x06000000#32

theorem isLsRegister.class_eq {w : Word} (h : isLsRegister w) : field w 25 3 = 3#3 := field_of_masked h (by decide)

theorem isLsRegister.bit4 {w : Word} (h : isLsRegister w) : bit w 4 = false := bit_of_masked h (by decide)

theorem isLsRegister.decode_eq {w : Word} {c : Cond} (h : isLsRegister w) (hc : condOfCode (field w 28 4) = some c) :
    decode w = .ok (decodeLsReg c w) := by
  simp [decode, hc, h.class_eq, h.bit4]

/-- Only a word whose condition field is a condition decodes to an instruction with one: the field 1111 is
`UndefinedEncoding` (R132). -/
theorem condOfCode_of_decode {w : Word} {i : Instr} {c : Cond} (hd : decode w = .ok i) (hi : i.condition? = some c) :
    ∃ c', condOfCode (field w 28 4) = some c' := by
  cases hcode : condOfCode (field w 28 4) with
  | some c' => exact ⟨c', rfl⟩
  | none =>
    obtain rfl : Instr.undefinedCond1111 w = i := by simpa [decode, hcode] using hd
    cases hi

end Sys2Proof

namespace Sys2Proof.Machine

/-! ### How such a word runs -/

/-- The transfer that the B and L bits of a word or byte Load/Store name (R102, R186 to R189). -/
def wordByteOp (b l : Bool) : LsOp :=
  match b, l with
  | true, true => .ldrb
  | true, false => .strb
  | false, true => .ldr
  | false, false => .str

/-- The instruction has the condition `c` and the word's indexing form, and runs as the transfer of the word's B and L
bits on its U bit, its Rn, Rd and Rm fields and its shift. -/
structure RunsAsLsRegister (c : Cond) (w : Word) (i : Instr) : Prop where
  condition : i.condition? = some c
  indexing : i.indexing? = some (decodeIndexing w)
  exec_eq : ∀ s, exec i s =
    execWordByteReg (wordByteOp (bit w 22) (bit w 20)) c (decodeIndexing w) (bit w 23) (field w 16 4) (field w 12 4)
      (field w 7 5) (shiftOfCode (field w 5 2)) (field w 0 4) s

theorem decodeLsReg_runs (c : Cond) (w : Word) : RunsAsLsRegister c w (decodeLsReg c w) := by
  unfold decodeLsReg
  cases hb : bit w 22 <;> cases hl : bit w 20 <;> exact ⟨rfl, rfl, fun s => by rw [hb, hl]; rfl⟩

/-- A word of the class that decodes to an instruction with a condition runs on its own fields. -/
theorem lsRegister_runs {c : Cond} {w : Word} {i : Instr} (hw : isLsRegister w) (hd : decode w = .ok i)
    (hi : i.condition? = some c) : RunsAsLsRegister c w i := by
  obtain ⟨c', hcode⟩ := condOfCode_of_decode hd hi
  obtain rfl : decodeLsReg c' w = i := by simpa [hw.decode_eq hcode] using hd
  have hrun := decodeLsReg_runs c' w
  obtain rfl : c' = c := by simpa [hrun.condition] using hi
  exact hrun

/-! ### The checks before the access -/

/-- An admitted single Load/Store passes the check on P = 0 with W = 0 (R185, decision D10). -/
theorem checkP0W0_of_admitted {cfg : Config} {i : Instr} {ix : Indexing} (h : i.AdmittedBy cfg)
    (hix : i.indexing? = some ix) : checkP0W0 cfg ix = .ok () := by
  have hparam : ix = .unlisted → cfg.p0w0 = .postindexWriteback := fun hu => h.1 (hu ▸ hix)
  rw [checkP0W0, refuseIf_ok]
  by_cases hu : ix = .unlisted
  · simp [hparam hu]
  · simp [hu]

/-- R15 as the index register comes first (R191). -/
theorem checkWordByteIndex_pc (amount : BitVec 5) (ty : ShiftType) (rn : Reg) :
    checkWordByteIndex (.scaled amount ty Reg.pc) rn = .error (.fault (.unpredictable .pcAsIndex)) := by
  simp [checkWordByteIndex]

/-- The base as the index register, where it is not R15 (R191). -/
theorem checkWordByteIndex_base (amount : BitVec 5) (ty : ShiftType) {rm : Reg} (h : rm ≠ Reg.pc) :
    checkWordByteIndex (.scaled amount ty rm) rm = .error (.fault (.unpredictable .baseIsIndex)) := by
  have hne : (rm == Reg.pc) = false := beq_eq_false_iff_ne.2 h
  simp [checkWordByteIndex, hne]

/-- A single transfer that passes its condition faults where the class's check on Rn and Rm does, before any register
is read (R186). -/
theorem execLs_of_index_fault {op : LsOp} {chk : Except Stop Unit} {c : Cond} {ix : Indexing} {up : Bool} {rn rd : Reg}
    {off : Offset} {s : State} {f : Fault} (hp : checkP0W0 s.cfg ix = .ok ()) (hc : conditionPassed c s.cpsr = true)
    (hchk : chk = .error (.fault f)) : execLs op chk c ix up rn rd off s = .fault f := by
  rw [execLs, hp, execute_passed hc, hchk]
  rfl

/-- A word of the class that is admitted and passes its condition faults where the check on its own Rn and Rm fields
does. -/
theorem lsRegister_faults {s : State} {w : Word} {i : Instr} {c : Cond} {f : Fault} (hw : isLsRegister w)
    (hd : decode w = .ok i) (hi : i.condition? = some c) (hadm : i.AdmittedBy s.cfg)
    (hc : conditionPassed c s.cpsr = true)
    (hchk : checkWordByteIndex (.scaled (field w 7 5) (shiftOfCode (field w 5 2)) (field w 0 4)) (field w 16 4) =
      .error (.fault f)) : exec i s = .fault f := by
  have hrun := lsRegister_runs hw hd hi
  rw [hrun.exec_eq]
  exact execLs_of_index_fault (checkP0W0_of_admitted hadm hrun.indexing) hc hchk

/-! ### The obligation -/

/-- Settles O32: by `lsRegister_faults` the outcome is that of the check on the index register, whose two faults are
`checkWordByteIndex_pc` and `checkWordByteIndex_base`. -/
theorem indexRegisterRestriction : Obligations.IndexRegisterRestriction := by
  intro s w i c hw hd hi hadm hc
  refine ⟨fun hpc => ?_, fun hpc hbase => ?_⟩
  · exact lsRegister_faults hw hd hi hadm hc (hpc ▸ checkWordByteIndex_pc ..)
  · exact lsRegister_faults hw hd hi hadm hc (hbase ▸ checkWordByteIndex_base _ _ hpc)

end Sys2Proof.Machine
end

section
/-! PROOFS. The halfword and signed-byte class (43_load_store_halfword_signed_byte.md R228, R230, R231): which words
reach it, which of them are no transfer, how the others run, and the check on their base and index registers. -/

namespace Sys2Proof

/-! ### Masked words -/

/-- Two words that agree under a mask agree under every mask inside it. -/
theorem and_of_masked {w m v m' : Word} (h : w &&& m = v) (hm : m &&& m' = m') : w &&& m' = v &&& m' := by
  rw [← h, BitVec.and_assoc, hm]

/-- The mask of a field keeps that field alone. -/
theorem and_place_allOnes (w : Word) {lo len : Nat} (h : lo + len ≤ 32) :
    w &&& place (BitVec.allOnes len) lo = place (field w lo len) lo := by
  apply BitVec.eq_of_getLsbD_eq
  intro i _
  have hmask := bit_place (BitVec.allOnes len) lo i h
  have hfield := bit_place (field w lo len) lo i h
  rw [bit] at hmask hfield
  rw [BitVec.getLsbD_and, hmask, hfield, field, BitVec.getLsbD_extractLsb', BitVec.getLsbD_allOnes]
  by_cases hlo : lo ≤ i
  · simp [hlo, Bool.and_comm]
  · simp [hlo]

/-- The only code without a condition is 1111 (R132). -/
theorem code_of_condOfCode_none {b : BitVec 4} (h : condOfCode b = none) : b = 0b1111#4 := by
  revert b
  decide

/-- A word whose bits 31:28 are not 1111 has a condition (R130, R132). -/
theorem condOfCode_of_not_1111 {w : Word} (h : w &&& 0xF0000000#32 ≠ 0xF0000000#32) :
    ∃ c, condOfCode (field w 28 4) = some c := by
  cases hcode : condOfCode (field w 28 4) with
  | some c => exact ⟨c, rfl⟩
  | none =>
    have htop := and_place_allOnes w (lo := 28) (len := 4) (by decide)
    rw [code_of_condOfCode_none hcode] at htop
    exact absurd htop h

/-! ### Words of the class -/

/-- The class `instr[27:25] = 000` with bits 7 and 4 set: the halfword and signed-byte Load/Store, and the multiply and
swap space (R93, R107). -/
def isHalfwordClass (w : Word) : Prop := w &&& 0x0E000090#32 = 0x00000090#32

theorem isHalfwordClass.class_eq {w : Word} (h : isHalfwordClass w) : field w 25 3 = 0#3 :=
  field_of_masked h (by decide)

theorem isHalfwordClass.bit7 {w : Word} (h : isHalfwordClass w) : bit w 7 = true := bit_of_masked h (by decide)

theorem isHalfwordClass.bit4 {w : Word} (h : isHalfwordClass w) : bit w 4 = true := bit_of_masked h (by decide)

theorem isHalfwordClass.decode_eq {w : Word} {c : Cond} (h : isHalfwordClass w)
    (hc : condOfCode (field w 28 4) = some c) : decode w = decodeMisc c w := by
  simp [decode, hc, h.class_eq, h.bit7, h.bit4]

/-- L = 0 with S = 1 is the reserved row, whatever I and H are (R228). -/
theorem decodeMisc_signedStore (c : Cond) {w : Word} (hl : bit w 20 = false) (hs : bit w 6 = true) :
    decodeMisc c w = .ok (.undefinedSignedStore w) := by
  simp [decodeMisc, hl, hs]

end Sys2Proof

namespace Sys2Proof.Machine

/-! ### How a transfer of the class runs -/

/-- The transfer that the L, S and H bits of a word of the class name (R107, R224 to R227). -/
def halfwordOp (l sBit h : Bool) : LsOp :=
  match l, sBit, h with
  | false, _, _ => .strh
  | true, false, _ => .ldrh
  | true, true, false => .ldrsb
  | true, true, true => .ldrsh

/-- The offset of a word of the class: by bit 22 the two-part immediate or the plain register (R108, R109). -/
def halfwordOffset (w : Word) : Offset :=
  if bit w 22 then .imm ((field w 8 4 ++ field w 0 4).setWidth 32) else .scaled 0#5 .lsl (field w 0 4)

/-- The instruction has the condition `c` and the word's indexing form, and runs as the transfer of the word's L, S and
H bits on its U bit, its Rn and Rd fields and its offset. -/
structure RunsAsHalfword (c : Cond) (w : Word) (i : Instr) : Prop where
  condition : i.condition? = some c
  indexing : i.indexing? = some (decodeIndexing w)
  exec_eq : ∀ s, exec i s =
    execLs (halfwordOp (bit w 20) (bit w 6) (bit w 5)) (checkHalfwordIndex (halfwordOffset w) (field w 16 4)) c
      (decodeIndexing w) (bit w 23) (field w 16 4) (field w 12 4) (halfwordOffset w) s

/-- Every instruction that `decodeMisc` gives, but for the reserved rows, which have no condition, runs on the word's
own fields. -/
theorem decodeMisc_runs {c c' : Cond} {w : Word} {i : Instr} (h : decodeMisc c w = .ok i)
    (hi : i.condition? = some c') : RunsAsHalfword c w i := by
  unfold decodeMisc at h
  split at h
  · cases h; cases hi
  split at h
  · cases h; cases hi
  cases himm : bit w 22 with
  | true =>
    rw [himm, if_pos rfl] at h
    split_ifs at h <;> cases h <;> exact ⟨rfl, rfl, fun s => by simp only [halfwordOffset, *]; rfl⟩
  | false =>
    rw [himm, if_neg Bool.false_ne_true] at h
    split_ifs at h <;> cases h <;> exact ⟨rfl, rfl, fun s => by simp only [halfwordOffset, *]; rfl⟩

/-- A word of the class that decodes to an instruction with a condition runs on its own fields. -/
theorem halfword_runs {c : Cond} {w : Word} {i : Instr} (hw : isHalfwordClass w) (hd : decode w = .ok i)
    (hi : i.condition? = some c) : RunsAsHalfword c w i := by
  obtain ⟨c', hcode⟩ := condOfCode_of_decode hd hi
  have hrun := decodeMisc_runs (hw.decode_eq hcode ▸ hd) hi
  obtain rfl : c' = c := by simpa [hrun.condition] using hi
  exact hrun

/-! ### The check on the base and the index register -/

/-- R15 as the base comes first, with either offset (R230, R231). -/
theorem checkHalfwordIndex_pcBase (off : Offset) :
    checkHalfwordIndex off Reg.pc = .error (.fault (.unpredictable .pcAsHalfwordBase)) := by
  cases off <;> simp [checkHalfwordIndex]

/-- R15 as the index register, where it is not the base (R231). -/
theorem checkHalfwordIndex_pcIndex (amount : BitVec 5) (ty : ShiftType) {rn : Reg} (h : rn ≠ Reg.pc) :
    checkHalfwordIndex (.scaled amount ty Reg.pc) rn = .error (.fault (.unpredictable .pcAsIndex)) := by
  have hne : (rn == Reg.pc) = false := beq_eq_false_iff_ne.2 h
  simp [checkHalfwordIndex, hne]

/-- The base as the index register, where it is not R15 (R231). -/
theorem checkHalfwordIndex_base (amount : BitVec 5) (ty : ShiftType) {rn : Reg} (h : rn ≠ Reg.pc) :
    checkHalfwordIndex (.scaled amount ty rn) rn = .error (.fault (.unpredictable .baseIsIndex)) := by
  have hne : (rn == Reg.pc) = false := beq_eq_false_iff_ne.2 h
  simp [checkHalfwordIndex, hne]

/-- A word of the class that is admitted and passes its condition faults where the check on its own Rn field and offset
does. -/
theorem halfword_faults {s : State} {w : Word} {i : Instr} {c : Cond} {f : Fault} (hw : isHalfwordClass w)
    (hd : decode w = .ok i) (hi : i.condition? = some c) (hadm : i.AdmittedBy s.cfg)
    (hc : conditionPassed c s.cpsr = true)
    (hchk : checkHalfwordIndex (halfwordOffset w) (field w 16 4) = .error (.fault f)) : exec i s = .fault f := by
  have hrun := halfword_runs hw hd hi
  rw [hrun.exec_eq]
  exact execLs_of_index_fault (checkP0W0_of_admitted hadm hrun.indexing) hc hchk

/-! ### The obligations -/

/-- Settles O5: a word of the class with a condition is read by `decodeMisc`, for which L = 0 and S = 1 suffice. -/
theorem signedStoreIsUndefined : Obligations.SignedStoreIsUndefined := by
  intro w hcond hw
  have hclass : isHalfwordClass w := and_of_masked hw (by decide)
  have hl : bit w 20 = false := bit_of_masked hw (by decide)
  have hs : bit w 6 = true := bit_of_masked hw (by decide)
  obtain ⟨c, hc⟩ := condOfCode_of_not_1111 hcond
  exact ⟨(hclass.decode_eq hc).trans (decodeMisc_signedStore c hl hs), fun _ => rfl⟩

/-- Settles O33: by `halfword_faults` the outcome is that of the check on the base, which R15 fails with any offset. That
the word is a transfer follows from its having a condition, so the hypothesis that says so is not used. -/
theorem halfwordImmediateBaseRestriction : Obligations.HalfwordImmediateBaseRestriction := by
  intro s w i c hw _ hd hi hadm hc hpc
  have hclass : isHalfwordClass w := and_of_masked hw (by decide)
  exact halfword_faults hclass hd hi hadm hc (hpc ▸ checkHalfwordIndex_pcBase _)

/-- Settles O34: by `halfword_faults` the outcome is that of the check on the Rn and Rm fields, in the order base R15,
index R15, base as index. -/
theorem halfwordRegisterRestriction : Obligations.HalfwordRegisterRestriction := by
  intro s w i c hw _ hd hi hadm hc
  have hclass : isHalfwordClass w := and_of_masked hw (by decide)
  have himm : bit w 22 = false := bit_of_masked hw (by decide)
  have hoff : halfwordOffset w = .scaled 0#5 .lsl (field w 0 4) := by simp [halfwordOffset, himm]
  refine ⟨fun hpc => ?_, fun hbase hindex => ?_, fun hbase hsame => ?_⟩
  · exact halfword_faults hclass hd hi hadm hc (hpc ▸ checkHalfwordIndex_pcBase _)
  · exact halfword_faults hclass hd hi hadm hc (by rw [hoff, hindex]; exact checkHalfwordIndex_pcIndex _ _ hbase)
  · exact halfword_faults hclass hd hi hadm hc (by rw [hoff, hsame]; exact checkHalfwordIndex_base _ _ hbase)

end Sys2Proof.Machine
end

section
/-! PROOFS. Decoder and encoder agree (30_encoding.md R90 to R124): the fields of each format's word, the word rebuilt
from its fields, and which words the decoder refuses. -/

namespace Sys2Proof

/-! ### The fields of each format's word -/

section DataProcessingWord

variable (c : Cond) (opcode : BitVec 4) (s : Bool) (rn rd : Reg) (op2 : Operand2)

theorem field_encodeOperand2_apart (lo len : Nat) (hlo : 12 ≤ lo) (h : lo + len ≤ 25 ∨ 26 ≤ lo) :
    field (encodeOperand2 op2) lo len = 0#len := by
  have hplace : ∀ {n : Nat} (v : BitVec n) (k : Nat), k + n ≤ 12 → field (place v k) lo len = 0#len :=
    fun v k hk => field_place_apart v k lo len (by omega) (by omega)
  have hbit4 : field (placeBit true 4) lo len = 0#len := field_placeBit_apart _ _ _ _ (by decide) (by omega)
  have hbit25 : field (placeBit true 25) lo len = 0#len := field_placeBit_apart _ _ _ _ (by decide) (by omega)
  cases op2 <;> simp [encodeOperand2, hplace, hbit4, hbit25]

theorem bit_encodeOperand2_20 : bit (encodeOperand2 op2) 20 = false := by
  cases op2 <;> simp (disch := decide) [encodeOperand2, bit_place, bit_placeBit, BitVec.getLsbD_of_ge]

/-- A second operand is read back where the bits beside it that tell its form are its own (R96 to R101). -/
theorem decodeOperand2_encode (w : Word) (h25 : bit w 25 = false) (hlow : field w 0 12 = 0#12) :
    decodeOperand2 (w ||| encodeOperand2 op2) = op2 := by
  have hsub : ∀ lo len, lo + len ≤ 12 → field w lo len = 0#len := fun lo len hle => by
    apply BitVec.eq_of_getLsbD_eq
    intro i hi
    have hbit := congrArg (fun x => x.getLsbD (lo + i)) hlow
    simp only [field, BitVec.getLsbD_extractLsb', BitVec.getLsbD_zero, show lo + i < 12 by omega, decide_true,
      Bool.true_and, Nat.zero_add] at hbit
    simp [field, hi, hbit]
  have h4 : bit w 4 = false := by
    have hbit := congrArg (fun x => x.getLsbD 4) hlow
    simpa [field, bit] using hbit
  cases op2 with
  | imm r i =>
    simp (disch := decide) [decodeOperand2, encodeOperand2, h25, hsub, bit_placeBit, field_place_same,
      field_place_apart, field_placeBit_apart]
  | shiftImm a t m =>
    simp (disch := decide) [decodeOperand2, encodeOperand2, h25, h4, hsub, bit_place, field_place_same,
      field_place_apart, BitVec.getLsbD_of_ge]
  | shiftReg r t m =>
    simp (disch := decide) [decodeOperand2, encodeOperand2, h25, h4, hsub, bit_place, bit_placeBit, field_place_same,
      field_place_apart, field_placeBit_apart, BitVec.getLsbD_of_ge]

theorem encodeDp_cond : field (encodeDp c opcode s rn rd op2) 28 4 = c.code := by
  simp (disch := decide) [encodeDp, field_encodeOperand2_apart, field_place_same, field_place_apart,
    field_placeBit_apart]

theorem encodeDp_opcode : field (encodeDp c opcode s rn rd op2) 21 4 = opcode := by
  simp (disch := decide) [encodeDp, field_encodeOperand2_apart, field_place_same, field_place_apart,
    field_placeBit_apart]

theorem encodeDp_s : bit (encodeDp c opcode s rn rd op2) 20 = s := by
  simp (disch := decide) [encodeDp, bit_encodeOperand2_20, bit_place, bit_placeBit, BitVec.getLsbD_of_ge]

theorem encodeDp_rn : field (encodeDp c opcode s rn rd op2) 16 4 = rn := by
  simp (disch := decide) [encodeDp, field_encodeOperand2_apart, field_place_same, field_place_apart,
    field_placeBit_apart]

theorem encodeDp_rd : field (encodeDp c opcode s rn rd op2) 12 4 = rd := by
  simp (disch := decide) [encodeDp, field_encodeOperand2_apart, field_place_same, field_place_apart,
    field_placeBit_apart]

theorem encodeDp_operand2 : decodeOperand2 (encodeDp c opcode s rn rd op2) = op2 := by
  unfold encodeDp
  refine decodeOperand2_encode op2 _ ?_ ?_
  · simp (disch := decide) [bit_place, bit_placeBit, BitVec.getLsbD_of_ge]
  · simp (disch := decide) [field_place_apart, field_placeBit_apart]

/-- The word of a data-processing instruction is one by its class, bits 7 and 4 (R93). -/
theorem decode_encodeDp : decode (encodeDp c opcode s rn rd op2) = decodeDp c (encodeDp c opcode s rn rd op2) := by
  unfold decode
  rw [encodeDp_cond, condOfCode_code]
  cases op2 <;>
    simp (disch := decide) [encodeDp, encodeOperand2, field_place_apart, field_placeBit_apart, class_placeBit,
      bit_place, bit_placeBit, BitVec.getLsbD_of_ge]

end DataProcessingWord

section OtherWords

variable (c : Cond) (ix : Indexing) (up b load sBit hBit : Bool) (rn rd rm : Reg)

theorem decodeIndexing_of_bits {w : Word} (hp : bit w 24 = ix.p) (hw : bit w 21 = ix.w) : decodeIndexing w = ix := by
  rw [decodeIndexing, hp, hw, indexingOf_bits]

/-- The fields of a single Load/Store or coprocessor word above bit 11, whatever lies below (R102, R107, R114). -/
structure HasLsFields (w : Word) (cls : BitVec 3) : Prop where
  cond : condOfCode (field w 28 4) = some c
  class_eq : field w 25 3 = cls
  indexing : decodeIndexing w = ix
  bit23 : bit w 23 = up
  bit22 : bit w 22 = b
  bit20 : bit w 20 = load
  rn : field w 16 4 = rn
  rd : field w 12 4 = rd

theorem hasLsFields_encodeLs (cls : BitVec 3) (low : Word) (hlow : ∀ lo len, 12 ≤ lo → field low lo len = 0#len) :
    HasLsFields c ix up b load rn rd (encodeLs c cls ix up b load rn rd ||| low) cls := by
  have hbit : ∀ i, 12 ≤ i → bit low i = false := fun i hi => by
    have h := congrArg (fun x => x.getLsbD 0) (hlow i 1 hi)
    simpa [field, bit] using h
  constructor
  case indexing =>
    apply decodeIndexing_of_bits <;>
      simp (disch := decide) [encodeLs, hbit, bit_place, bit_placeBit, BitVec.getLsbD_of_ge]
  all_goals
    simp (disch := decide) [encodeLs, hlow, hbit, field_place_same, field_place_apart, field_placeBit_apart, bit_place,
      bit_placeBit, BitVec.getLsbD_of_ge]


theorem hasLsFields_encodeLsImm (o : BitVec 12) :
    HasLsFields c ix up b load rn rd (encodeLsImm c ix up b load rn rd o) 2#3 :=
  hasLsFields_encodeLs c ix up b load rn rd 2#3 _ fun lo len h => field_place_apart o 0 lo len (by decide) (by omega)

theorem hasLsFields_encodeLsReg (a : BitVec 5) (t : ShiftType) :
    HasLsFields c ix up b load rn rd (encodeLsReg c ix up b load rn rd a t rm) 3#3 := by
  unfold encodeLsReg
  rw [BitVec.or_assoc, BitVec.or_assoc]
  refine hasLsFields_encodeLs c ix up b load rn rd 3#3 _ fun lo len h => ?_
  simp (disch := omega) [field_place_apart]

theorem hasLsFields_encodeMisc (high low : BitVec 4) :
    HasLsFields c ix up b load rn rd (encodeMisc c ix up b load sBit hBit rn rd high low) 0#3 := by
  unfold encodeMisc
  simp only [BitVec.or_assoc]
  refine hasLsFields_encodeLs c ix up b load rn rd 0#3 _ fun lo len h => ?_
  simp (disch := omega) [field_place_apart, field_placeBit_apart]

theorem hasLsFields_encodeCp (cp : Reg) (low : BitVec 8) :
    HasLsFields c ix up b load rn rd (encodeCp c ix up b load rn rd cp low) 6#3 := by
  unfold encodeCp
  rw [BitVec.or_assoc]
  refine hasLsFields_encodeLs c ix up b load rn rd 6#3 _ fun lo len h => ?_
  simp (disch := omega) [field_place_apart]

/-- The decoder on a word or byte Load/Store with an immediate offset: B and L select the instruction (R103). -/
theorem decode_encodeLsImm (o : BitVec 12) :
    decode (encodeLsImm c ix up b load rn rd o) =
      .ok (if b then (if load then .ldrbImm c ix up rn rd o else .strbImm c ix up rn rd o)
        else (if load then .ldrImm c ix up rn rd o else .strImm c ix up rn rd o)) := by
  have h := hasLsFields_encodeLsImm c ix up b load rn rd o
  have ho : field (encodeLsImm c ix up b load rn rd o) 0 12 = o := by
    simp (disch := decide) [encodeLsImm, encodeLs, field_place_same, field_place_apart, field_placeBit_apart]
  simp [decode, h.cond, h.class_eq, decodeLsImm, h.bit22, h.bit20, h.indexing, h.bit23, h.rn, h.rd, ho]

/-- The decoder on a word or byte Load/Store with a register offset (R104, R105). -/
theorem decode_encodeLsReg (a : BitVec 5) (t : ShiftType) :
    decode (encodeLsReg c ix up b load rn rd a t rm) =
      .ok (if b then (if load then .ldrbReg c ix up rn rd a t rm else .strbReg c ix up rn rd a t rm)
        else (if load then .ldrReg c ix up rn rd a t rm else .strReg c ix up rn rd a t rm)) := by
  have h := hasLsFields_encodeLsReg c ix up b load rn rd rm a t
  have h4 : bit (encodeLsReg c ix up b load rn rd a t rm) 4 = false := by
    simp (disch := decide) [encodeLsReg, encodeLs, bit_place, bit_placeBit, BitVec.getLsbD_of_ge]
  have ha : field (encodeLsReg c ix up b load rn rd a t rm) 7 5 = a := by
    simp (disch := decide) [encodeLsReg, encodeLs, field_place_same, field_place_apart, field_placeBit_apart]
  have ht : field (encodeLsReg c ix up b load rn rd a t rm) 5 2 = t.code := by
    simp (disch := decide) [encodeLsReg, encodeLs, field_place_same, field_place_apart, field_placeBit_apart]
  have hm : field (encodeLsReg c ix up b load rn rd a t rm) 0 4 = rm := by
    simp (disch := decide) [encodeLsReg, encodeLs, field_place_same, field_place_apart, field_placeBit_apart]
  simp [decode, h.cond, h.class_eq, h4, decodeLsReg, h.bit22, h.bit20, h.indexing, h.bit23, h.rn, h.rd, ha, ht, hm]

/-- The decoder on a halfword or signed-byte word that is a transfer: H or S is set, a store has S = 0, and the register
form has zeros in bits 11:8 (R107 to R110, R124). -/
theorem decode_encodeMisc (high low : BitVec 4) (hmul : sBit = true ∨ hBit = true) (hstore : load = true ∨ sBit = false)
    (hreg : b = true ∨ high = 0#4) :
    decode (encodeMisc c ix up b load sBit hBit rn rd high low) =
      .ok (if b then
          (if load = false then .strhImm c ix up rn rd high low
            else if sBit = false then .ldrhImm c ix up rn rd high low
            else if hBit = false then .ldrsbImm c ix up rn rd high low else .ldrshImm c ix up rn rd high low)
        else
          (if load = false then .strhReg c ix up rn rd low
            else if sBit = false then .ldrhReg c ix up rn rd low
            else if hBit = false then .ldrsbReg c ix up rn rd low else .ldrshReg c ix up rn rd low)) := by
  have h := hasLsFields_encodeMisc c ix up b load sBit hBit rn rd high low
  have h4 : bit (encodeMisc c ix up b load sBit hBit rn rd high low) 4 = true := by
    simp (disch := decide) [encodeMisc, encodeLs, bit_place, bit_placeBit, BitVec.getLsbD_of_ge]
  have h7 : bit (encodeMisc c ix up b load sBit hBit rn rd high low) 7 = true := by
    simp (disch := decide) [encodeMisc, encodeLs, bit_place, bit_placeBit, BitVec.getLsbD_of_ge]
  have h6 : bit (encodeMisc c ix up b load sBit hBit rn rd high low) 6 = sBit := by
    simp (disch := decide) [encodeMisc, encodeLs, bit_place, bit_placeBit, BitVec.getLsbD_of_ge]
  have h5 : bit (encodeMisc c ix up b load sBit hBit rn rd high low) 5 = hBit := by
    simp (disch := decide) [encodeMisc, encodeLs, bit_place, bit_placeBit, BitVec.getLsbD_of_ge]
  have hhigh : field (encodeMisc c ix up b load sBit hBit rn rd high low) 8 4 = high := by
    simp (disch := decide) [encodeMisc, encodeLs, field_place_same, field_place_apart, field_placeBit_apart]
  have hlow : field (encodeMisc c ix up b load sBit hBit rn rd high low) 0 4 = low := by
    simp (disch := decide) [encodeMisc, encodeLs, field_place_same, field_place_apart, field_placeBit_apart]
  have hmul' : ¬ (sBit = false ∧ hBit = false) := by rintro ⟨rfl, rfl⟩; simp at hmul
  have hstore' : ¬ (load = false ∧ sBit = true) := by rintro ⟨rfl, rfl⟩; simp at hstore
  simp only [decode, h.cond, h.class_eq, h4, h7, decodeMisc, h6, h5, h.bit22, h.bit20, h.indexing, h.bit23, h.rn, h.rd,
    hhigh, hlow, hmul', hstore', and_self, if_true, if_false]
  cases b with
  | true => simp only [if_true, apply_ite Except.ok]; rfl
  | false =>
    obtain rfl : high = 0#4 := by simpa using hreg
    simp only [Bool.false_eq_true, if_false, apply_ite Except.ok]; rfl

/-- The decoder on a coprocessor Load/Store: (P, W) and L select the instruction (R114, R115). -/
theorem decode_encodeCp (cp : Reg) (low : BitVec 8) :
    decode (encodeCp c ix up b load rn rd cp low) =
      .ok (match ix with
        | .offset => if load then .ldcOffset c up b rn rd cp low else .stcOffset c up b rn rd cp low
        | .preIndexed => if load then .ldcPre c up b rn rd cp low else .stcPre c up b rn rd cp low
        | .postIndexed => if load then .ldcPost c up b rn rd cp low else .stcPost c up b rn rd cp low
        | .unlisted => if load then .ldcUnindexed c up b rn rd cp low else .stcUnindexed c up b rn rd cp low) := by
  have h := hasLsFields_encodeCp c ix up b load rn rd cp low
  have hcp : field (encodeCp c ix up b load rn rd cp low) 8 4 = cp := by
    simp (disch := decide) [encodeCp, encodeLs, field_place_same, field_place_apart, field_placeBit_apart]
  have hlow : field (encodeCp c ix up b load rn rd cp low) 0 8 = low := by
    simp (disch := decide) [encodeCp, encodeLs, field_place_same, field_place_apart, field_placeBit_apart]
  cases ix <;>
    simp [decode, h.cond, h.class_eq, decodeCp, h.bit22, h.bit20, h.indexing, h.bit23, h.rn, h.rd, hcp, hlow]

/-- The decoder on an LDM or STM word (R112). -/
theorem decode_encodeLsm (before user wb : Bool) (list : BitVec 16) :
    decode (encodeLsm c before up user wb load rn list) =
      .ok (if load then .ldm c before up user wb rn list else .stm c before up user wb rn list) := by
  have hcond : field (encodeLsm c before up user wb load rn list) 28 4 = c.code := by
    simp (disch := decide) [encodeLsm, field_place_same, field_place_apart, field_placeBit_apart]
  have hclass : field (encodeLsm c before up user wb load rn list) 25 3 = 4#3 := by
    simp (disch := decide) [encodeLsm, field_place_same, field_place_apart, field_placeBit_apart]
  simp only [decode, hcond, condOfCode_code, hclass]
  simp (disch := decide) [decodeLsm, encodeLsm, field_place_same, field_place_apart, field_placeBit_apart, bit_place,
    bit_placeBit, BitVec.getLsbD_of_ge]

end OtherWords

/-! ### The reserved rows -/

/-- A word has a condition exactly where `hasCond` says so (R132). -/
theorem condOfCode_of_hasCond {w : Word} (h : hasCond w = true) : ∃ c, condOfCode (field w 28 4) = some c :=
  condOfCode_of_not_1111 (by simpa [hasCond] using h)

theorem decode_cond1111 {w : Word} (h : w &&& 0xF0000000#32 = 0xF0000000#32) :
    decode w = .ok (.undefinedCond1111 w) := by
  have hcode : field w 28 4 = 0b1111#4 := field_of_masked h (by decide)
  simp [decode, hcode, condOfCode]

theorem decode_lsRegBit4 {w : Word} {c : Cond} (hc : condOfCode (field w 28 4) = some c)
    (h : w &&& 0x0E000010#32 = 0x06000010#32) : decode w = .ok (.undefinedLsRegBit4 w) := by
  have hclass : field w 25 3 = 3#3 := field_of_masked h (by decide)
  have h4 : bit w 4 = true := bit_of_masked h (by decide)
  simp [decode, hc, hclass, h4]

theorem decode_branchClass {w : Word} {c : Cond} (hc : condOfCode (field w 28 4) = some c)
    (h : w &&& 0x0E000000#32 = 0x0A000000#32) : decode w = .ok (.refusedBranchClass w) := by
  have hclass : field w 25 3 = 5#3 := field_of_masked h (by decide)
  simp [decode, hc, hclass]

theorem decode_class111 {w : Word} {c : Cond} (hc : condOfCode (field w 28 4) = some c)
    (h : w &&& 0x0E000000#32 = 0x0E000000#32) : decode w = .ok (.refusedClass111 w) := by
  have hclass : field w 25 3 = 7#3 := field_of_masked h (by decide)
  simp [decode, hc, hclass]

theorem decode_mulSwapSpace {w : Word} {c : Cond} (hc : condOfCode (field w 28 4) = some c)
    (h : w &&& 0x0E0000F0#32 = 0x00000090#32) : decode w = .ok (.refusedMulSwapSpace w) := by
  have hclass : isHalfwordClass w := and_of_masked h (by decide)
  have h6 : bit w 6 = false := bit_of_masked h (by decide)
  have h5 : bit w 5 = false := bit_of_masked h (by decide)
  simp [hclass.decode_eq hc, decodeMisc, h6, h5]

/-! ### Decoding an encoded word -/

/-- Settles O1: per constructor, the decoder on the word of its format. -/
theorem decodeOfEncode : Obligations.DecodeOfEncode := by
  intro i hwf
  cases i
  case undefinedCond1111 w =>
    have hmask : w &&& 0xF0000000#32 = 0xF0000000#32 := by simpa [Instr.wf, hasCond] using hwf
    exact decode_cond1111 hmask
  case undefinedLsRegBit4 w =>
    simp only [Instr.wf, Bool.and_eq_true, beq_iff_eq] at hwf
    obtain ⟨c, hc⟩ := condOfCode_of_hasCond hwf.1
    exact decode_lsRegBit4 hc hwf.2
  case undefinedSignedStore w =>
    simp only [Instr.wf, Bool.and_eq_true, beq_iff_eq] at hwf
    exact (Machine.signedStoreIsUndefined w (by simpa [hasCond] using hwf.1) hwf.2).1
  case refusedBranchClass w =>
    simp only [Instr.wf, Bool.and_eq_true, beq_iff_eq] at hwf
    obtain ⟨c, hc⟩ := condOfCode_of_hasCond hwf.1
    exact decode_branchClass hc hwf.2
  case refusedClass111 w =>
    simp only [Instr.wf, Bool.and_eq_true, beq_iff_eq] at hwf
    obtain ⟨c, hc⟩ := condOfCode_of_hasCond hwf.1
    exact decode_class111 hc hwf.2
  case refusedMulSwapSpace w =>
    simp only [Instr.wf, Bool.and_eq_true, beq_iff_eq] at hwf
    obtain ⟨c, hc⟩ := condOfCode_of_hasCond hwf.1
    exact decode_mulSwapSpace hc hwf.2
  all_goals
    simp [encode, decode_encodeDp, decodeDp, encodeDp_opcode, encodeDp_s, encodeDp_rn, encodeDp_rd, encodeDp_operand2,
      decodeMov, decodeAdd, decodeCmp, decode_encodeLsImm, decode_encodeLsReg, decode_encodeMisc, decode_encodeCp,
      decode_encodeLsm]

end Sys2Proof
end

section
/-! PROOFS. Encoding a decoded word (30_encoding.md R123): a word is the OR of its parts under the masks of its format,
and each part is a placed field. -/

namespace Sys2Proof

/-! ### A word as the OR of its placed fields -/

/-- A field placed back where it was read is the word under the field's mask. -/
theorem place_of_field {w : Word} {lo len : Nat} {v : BitVec len} (h : field w lo len = v) (hle : lo + len ≤ 32) :
    place v lo = w &&& place (BitVec.allOnes len) lo := by rw [and_place_allOnes w hle, h]

/-- A bit placed back where it was read is the word under the bit's mask. -/
theorem placeBit_of_bit {w : Word} {i : Nat} {b : Bool} (h : bit w i = b) (hi : i + 1 ≤ 32) :
    placeBit b i = w &&& place 1#1 i := by
  have hfield : field w i 1 = BitVec.ofBool b := by
    apply BitVec.eq_of_getLsbD_eq
    intro j hj
    obtain rfl : j = 0 := by omega
    rw [bit] at h
    simp [field, h]
  exact place_of_field hfield hi

/-- A bit that is 0 is masked to nothing. -/
theorem and_place_of_bit {w : Word} {i : Nat} (h : bit w i = false) (hi : i + 1 ≤ 32) : w &&& place 1#1 i = 0#32 := by
  rw [← placeBit_of_bit h hi]
  simp [placeBit, place]

/-- Masked bits that are 0 may be added to a mask. -/
theorem and_widen {w z : Word} (m : Word) (hz : w &&& z = 0#32) : w &&& m = w &&& (m ||| z) := by
  rw [BitVec.and_or_distrib_left, hz, BitVec.or_zero]

/-- The second operand's word is the word's bits 25 and 11:0, where bits 25, 7 and 4 are those of a data-processing
word (R101). -/
theorem encodeOperand2_decode {w : Word} (h : bit w 25 = true ∨ ¬ (bit w 4 = true ∧ bit w 7 = true)) :
    encodeOperand2 (decodeOperand2 w) = w &&& 0x02000FFF#32 := by
  unfold decodeOperand2
  cases h25 : bit w 25 with
  | true =>
    simp (disch := decide) only [if_true, encodeOperand2, placeBit_of_bit h25, place_of_field (w := w) rfl,
      ← BitVec.and_or_distrib_left]
    rfl
  | false =>
    have hz25 := and_place_of_bit h25 (by decide)
    cases h4 : bit w 4 with
    | true =>
      have hz7 := and_place_of_bit (w := w) (i := 7) (by simpa [h25, h4] using h) (by decide)
      simp (disch := decide) only [Bool.false_eq_true, if_false, if_true, encodeOperand2, placeBit_of_bit h4,
        code_shiftOfCode, place_of_field (w := w) rfl, ← BitVec.and_or_distrib_left]
      rw [and_widen _ hz25, and_widen _ hz7]
      rfl
    | false =>
      have hz4 := and_place_of_bit h4 (by decide)
      simp (disch := decide) only [Bool.false_eq_true, if_false, encodeOperand2, 
        code_shiftOfCode, place_of_field (w := w) rfl, ← BitVec.and_or_distrib_left]
      rw [and_widen _ hz25, and_widen _ hz4]
      rfl

/-- A data-processing word is rebuilt from its fields (R95). -/
theorem encodeDp_fields {w : Word} {c : Cond} {opcode : BitVec 4} {s : Bool}
    (hop : (field w 21 4).toNat = opcode.toNat) (hs : bit w 20 = s) (hc : condOfCode (field w 28 4) = some c)
    (hcls : field w 26 2 = 0#2) (h : bit w 25 = true ∨ ¬ (bit w 4 = true ∧ bit w 7 = true)) :
    encodeDp c opcode s (field w 16 4) (field w 12 4) (decodeOperand2 w) = w := by
  obtain rfl := BitVec.eq_of_toNat_eq hop
  obtain rfl := hs
  have hz : w &&& place (BitVec.allOnes 2) 26 = 0#32 := by
    rw [← place_of_field hcls (by decide)]
    rfl
  simp (disch := decide) only [encodeDp, encodeOperand2_decode h, code_of_condOfCode _ _ hc,
    placeBit_of_bit (w := w) rfl, place_of_field (w := w) rfl, ← BitVec.and_or_distrib_left]
  rw [and_widen _ hz]
  exact BitVec.and_allOnes

/-- The bits of a single Load/Store or coprocessor word above bit 11 are rebuilt from its fields (R102, R107, R114). -/
theorem encodeLs_fields {w : Word} {c : Cond} {cls : BitVec 3} (hc : condOfCode (field w 28 4) = some c)
    (hcls : field w 25 3 = cls) :
    encodeLs c cls (decodeIndexing w) (bit w 23) (bit w 22) (bit w 20) (field w 16 4) (field w 12 4) =
      w &&& 0xFFFFF000#32 := by
  have hp : (decodeIndexing w).p = bit w 24 := by
    unfold decodeIndexing; cases bit w 24 <;> cases bit w 21 <;> rfl
  have hw : (decodeIndexing w).w = bit w 21 := by
    unfold decodeIndexing; cases bit w 24 <;> cases bit w 21 <;> rfl
  simp (disch := decide) only [encodeLs, hp, hw, code_of_condOfCode _ _ hc, placeBit_of_bit (w := w) rfl,
    place_of_field (w := w) rfl, place_of_field hcls, ← BitVec.and_or_distrib_left]
  rfl

theorem encodeLsImm_fields {w : Word} {c : Cond} (hc : condOfCode (field w 28 4) = some c)
    (hcls : field w 25 3 = 2#3) :
    encodeLsImm c (decodeIndexing w) (bit w 23) (bit w 22) (bit w 20) (field w 16 4) (field w 12 4) (field w 0 12) =
      w := by
  simp (disch := decide) only [encodeLsImm, encodeLs_fields hc hcls, place_of_field (w := w) rfl,
    ← BitVec.and_or_distrib_left]
  exact BitVec.and_allOnes

theorem encodeLsReg_fields {w : Word} {c : Cond} (hc : condOfCode (field w 28 4) = some c)
    (hcls : field w 25 3 = 3#3) (h4 : bit w 4 = false) :
    encodeLsReg c (decodeIndexing w) (bit w 23) (bit w 22) (bit w 20) (field w 16 4) (field w 12 4) (field w 7 5)
      (shiftOfCode (field w 5 2)) (field w 0 4) = w := by
  simp (disch := decide) only [encodeLsReg, encodeLs_fields hc hcls, code_shiftOfCode, place_of_field (w := w) rfl,
    ← BitVec.and_or_distrib_left]
  rw [and_widen _ (and_place_of_bit h4 (by decide))]
  exact BitVec.and_allOnes

theorem encodeMisc_fields {w : Word} {c : Cond} (hc : condOfCode (field w 28 4) = some c)
    (hcls : field w 25 3 = 0#3) (h4 : bit w 4 = true) (h7 : bit w 7 = true) :
    encodeMisc c (decodeIndexing w) (bit w 23) (bit w 22) (bit w 20) (bit w 6) (bit w 5) (field w 16 4) (field w 12 4)
      (field w 8 4) (field w 0 4) = w := by
  simp (disch := decide) only [encodeMisc, encodeLs_fields hc hcls, placeBit_of_bit (w := w) rfl, placeBit_of_bit h4,
    placeBit_of_bit h7, place_of_field (w := w) rfl, ← BitVec.and_or_distrib_left]
  exact BitVec.and_allOnes

theorem encodeLsm_fields {w : Word} {c : Cond} (hc : condOfCode (field w 28 4) = some c)
    (hcls : field w 25 3 = 4#3) :
    encodeLsm c (bit w 24) (bit w 23) (bit w 22) (bit w 21) (bit w 20) (field w 16 4) (field w 0 16) = w := by
  simp (disch := decide) only [encodeLsm, code_of_condOfCode _ _ hc, placeBit_of_bit (w := w) rfl,
    place_of_field hcls, place_of_field (w := w) rfl, ← BitVec.and_or_distrib_left]
  exact BitVec.and_allOnes

theorem encodeCp_fields {w : Word} {c : Cond} (hc : condOfCode (field w 28 4) = some c)
    (hcls : field w 25 3 = 6#3) :
    encodeCp c (decodeIndexing w) (bit w 23) (bit w 22) (bit w 20) (field w 16 4) (field w 12 4) (field w 8 4)
      (field w 0 8) = w := by
  simp (disch := decide) only [encodeCp, encodeLs_fields hc hcls, place_of_field (w := w) rfl,
    ← BitVec.and_or_distrib_left]
  exact BitVec.and_allOnes


/-! ### Encoding a decoded word, format by format -/

/-- The instruction is well formed and its word is `w`. -/
def Reencodes (w : Word) (i : Instr) : Prop := i.wf = true ∧ encode i = w

theorem decodeMov_reencodes {w : Word} {c : Cond} {i : Instr}
    (hw : encodeDp c 0b1101#4 (bit w 20) (field w 16 4) (field w 12 4) (decodeOperand2 w) = w)
    (h : decodeMov c w = .ok i) : Reencodes w i := by
  unfold decodeMov at h
  split at h
  next hrn =>
    rw [hrn] at hw
    cases hop : decodeOperand2 w <;> rw [hop] at h hw <;> cases h <;> exact ⟨rfl, hw⟩
  next => cases h

theorem decodeAdd_reencodes {w : Word} {c : Cond}
    (hw : encodeDp c 0b0100#4 (bit w 20) (field w 16 4) (field w 12 4) (decodeOperand2 w) = w) :
    Reencodes w (decodeAdd c w) := by
  unfold decodeAdd
  cases hop : decodeOperand2 w <;> rw [hop] at hw <;> exact ⟨rfl, hw⟩

theorem decodeCmp_reencodes {w : Word} {c : Cond} {i : Instr} (hs : bit w 20 = true)
    (hw : encodeDp c 0b1010#4 (bit w 20) (field w 16 4) (field w 12 4) (decodeOperand2 w) = w)
    (h : decodeCmp c w = .ok i) : Reencodes w i := by
  unfold decodeCmp at h
  split at h
  next hrd =>
    rw [hs, hrd] at hw
    cases hop : decodeOperand2 w <;> rw [hop] at h hw <;> cases h <;> exact ⟨rfl, hw⟩
  next => cases h

/-- A data-processing word: the opcode field selects the constructor, and S = 1 where the constructor has no S bit. -/
theorem decodeDp_reencodes {w : Word} {c : Cond} {i : Instr} (hc : condOfCode (field w 28 4) = some c)
    (hcls : field w 26 2 = 0#2) (hform : bit w 25 = true ∨ ¬ (bit w 4 = true ∧ bit w 7 = true))
    (h : decodeDp c w = .ok i) : Reencodes w i := by
  have hlt := (field w 21 4).isLt
  have hw {opcode : BitVec 4} {s : Bool} (hop : (field w 21 4).toNat = opcode.toNat) (hs : bit w 20 = s) :=
    encodeDp_fields hop hs hc hcls hform
  unfold decodeDp at h
  generalize hop : (field w 21 4).toNat = opcode at h
  match opcode, h, hop with
  | 0, h, hop | 1, h, hop | 2, h, hop | 3, h, hop | 5, h, hop | 6, h, hop | 7, h, hop | 12, h, hop | 14, h, hop =>
    cases h
    exact ⟨rfl, hw hop rfl⟩
  | 4, h, hop => cases h; exact decodeAdd_reencodes (hw hop rfl)
  | 8, h, hop | 9, h, hop | 11, h, hop =>
    obtain ⟨hs, h⟩ := Machine.ite_error_eq_ok.1 h
    cases h
    exact ⟨rfl, hw hop hs⟩
  | 10, h, hop =>
    obtain ⟨hs, h⟩ := Machine.ite_error_eq_ok.1 h
    exact decodeCmp_reencodes hs (hw hop rfl) h
  | 13, h, hop => exact decodeMov_reencodes (hw hop rfl) h
  | k + 15, h, hop =>
    obtain rfl : k = 0 := by omega
    cases h
    exact ⟨rfl, hw hop rfl⟩

theorem decodeLsImm_reencodes {w : Word} {c : Cond} (hc : condOfCode (field w 28 4) = some c)
    (hcls : field w 25 3 = 2#3) : Reencodes w (decodeLsImm c w) := by
  have hw := encodeLsImm_fields hc hcls
  unfold decodeLsImm
  cases hb : bit w 22 <;> cases hl : bit w 20 <;> rw [hb, hl] at hw <;> exact ⟨rfl, hw⟩

theorem decodeLsReg_reencodes {w : Word} {c : Cond} (hc : condOfCode (field w 28 4) = some c)
    (hcls : field w 25 3 = 3#3) (h4 : bit w 4 = false) : Reencodes w (decodeLsReg c w) := by
  have hw := encodeLsReg_fields hc hcls h4
  unfold decodeLsReg
  cases hb : bit w 22 <;> cases hl : bit w 20 <;> rw [hb, hl] at hw <;> exact ⟨rfl, hw⟩

theorem decodeLsm_reencodes {w : Word} {c : Cond} (hc : condOfCode (field w 28 4) = some c)
    (hcls : field w 25 3 = 4#3) : Reencodes w (decodeLsm c w) := by
  have hw := encodeLsm_fields hc hcls
  unfold decodeLsm
  cases hl : bit w 20 <;> rw [hl] at hw <;> exact ⟨rfl, hw⟩

theorem decodeCp_reencodes {w : Word} {c : Cond} (hc : condOfCode (field w 28 4) = some c)
    (hcls : field w 25 3 = 6#3) : Reencodes w (decodeCp c w) := by
  have hw := encodeCp_fields hc hcls
  unfold decodeCp
  cases hix : decodeIndexing w <;> cases hl : bit w 20 <;> rw [hix, hl] at hw <;> exact ⟨rfl, hw⟩

/-- A word with a condition is not that of cond 1111. -/
theorem hasCond_of_condOfCode {w : Word} {c : Cond} (hc : condOfCode (field w 28 4) = some c) : hasCond w = true := by
  by_contra h
  have hmask : w &&& 0xF0000000#32 = 0xF0000000#32 := by simpa [hasCond] using h
  have hcode : field w 28 4 = 0b1111#4 := field_of_masked hmask (by decide)
  simp [hcode, condOfCode] at hc

/-- A masked word is known from one field and the bits that make up the mask. -/
theorem masked_of_field {w : Word} {lo len : Nat} {v : BitVec len} (h : field w lo len = v) (hle : lo + len ≤ 32) :
    w &&& place (BitVec.allOnes len) lo = place v lo := (place_of_field h hle).symm

theorem masked_of_bit {w : Word} {i : Nat} {b : Bool} (h : bit w i = b) (hi : i + 1 ≤ 32) :
    w &&& place 1#1 i = placeBit b i := (placeBit_of_bit h hi).symm

/-- What is known under two masks is known under both together. -/
theorem masked_or {w m m' v v' : Word} (h : w &&& m = v) (h' : w &&& m' = v') : w &&& (m ||| m') = v ||| v' := by
  rw [BitVec.and_or_distrib_left, h, h']

/-- A halfword or signed-byte word, or a reserved word of its class, by L, S, H and bit 22. -/
theorem decodeMisc_reencodes {w : Word} {c : Cond} {i : Instr} (hc : condOfCode (field w 28 4) = some c)
    (hcls : field w 25 3 = 0#3) (h4 : bit w 4 = true) (h7 : bit w 7 = true) (h : decodeMisc c w = .ok i) :
    Reencodes w i := by
  have hw := encodeMisc_fields hc hcls h4 h7
  have hcond := hasCond_of_condOfCode hc
  have hclass := masked_of_field hcls (by decide)
  have hbit7 := masked_of_bit h7 (by decide)
  have hbit4 := masked_of_bit h4 (by decide)
  unfold decodeMisc at h
  split at h
  next hmul =>
    cases h
    have hmask : w &&& 0x0E0000F0#32 = 0x00000090#32 := masked_or hclass (masked_or hbit7 (masked_or hbit4
      (masked_or (masked_of_bit hmul.1 (by decide)) (masked_of_bit hmul.2 (by decide)))))
    exact ⟨by simpa [Instr.wf, hcond] using hmask, rfl⟩
  next hmul =>
  split at h
  next hstore =>
    cases h
    have hmask : w &&& 0x0E1000D0#32 = 0x000000D0#32 := masked_or hclass (masked_or hbit7 (masked_or hbit4
      (masked_or (masked_of_bit hstore.1 (by decide)) (masked_of_bit hstore.2 (by decide)))))
    exact ⟨by simpa [Instr.wf, hcond] using hmask, rfl⟩
  next hstore =>
  have hS : bit w 20 = false → bit w 6 = false := by simpa using hstore
  have hH : bit w 6 = false → bit w 5 = true := by simpa using hmul
  cases himm : bit w 22 with
  | true =>
    simp only [himm, if_true] at h hw
    split_ifs at h with hl hs hh <;> cases h
    · rw [hl, hS hl, hH (hS hl)] at hw; exact ⟨rfl, hw⟩
    · rw [Bool.eq_true_of_not_eq_false hl, hs, hH hs] at hw; exact ⟨rfl, hw⟩
    · rw [Bool.eq_true_of_not_eq_false hl, Bool.eq_true_of_not_eq_false hs, hh] at hw; exact ⟨rfl, hw⟩
    · rw [Bool.eq_true_of_not_eq_false hl, Bool.eq_true_of_not_eq_false hs, Bool.eq_true_of_not_eq_false hh] at hw
      exact ⟨rfl, hw⟩
  | false =>
    simp only [himm, Bool.false_eq_true, if_false] at h hw
    split_ifs at h with hz hl hs hh <;> cases h <;> rw [hz] at hw
    · rw [hl, hS hl, hH (hS hl)] at hw; exact ⟨rfl, hw⟩
    · rw [Bool.eq_true_of_not_eq_false hl, hs, hH hs] at hw; exact ⟨rfl, hw⟩
    · rw [Bool.eq_true_of_not_eq_false hl, Bool.eq_true_of_not_eq_false hs, hh] at hw; exact ⟨rfl, hw⟩
    · rw [Bool.eq_true_of_not_eq_false hl, Bool.eq_true_of_not_eq_false hs, Bool.eq_true_of_not_eq_false hh] at hw
      exact ⟨rfl, hw⟩

/-- The two classes of a data-processing word share bits 27:26 (R93). -/
theorem dpClass_of_class {w : Word} {v : BitVec 3} (h : field w 25 3 = v) (hv : v = 0#3 ∨ v = 1#3) :
    field w 26 2 = 0#2 ∧ bit w 25 = v.getLsbD 0 := by
  have hsub : field w 26 2 = (field w 25 3).extractLsb' 1 2 := by
    apply BitVec.eq_of_getLsbD_eq
    intro i hi
    have hi' : 1 + i < 3 := by omega
    simp [field, hi, hi', ← Nat.add_assoc]
  have hbit : bit w 25 = (field w 25 3).getLsbD 0 := by simp [field, bit]
  rw [hsub, hbit, h]
  rcases hv with rfl | rfl <;> exact ⟨by decide, rfl⟩

/-- Settles O2: by the class of the word, the encoder on the fields the decoder read. -/
theorem encodeOfDecode : Obligations.EncodeOfDecode := by
  intro w i h
  show Reencodes w i
  unfold decode at h
  split at h
  next hnone =>
    cases h
    have hmask : w &&& 0xF0000000#32 = 0xF0000000#32 :=
      masked_of_field (code_of_condOfCode_none hnone) (by decide)
    exact ⟨by simpa [Instr.wf, hasCond] using hmask, rfl⟩
  next c hc =>
  have hcond := hasCond_of_condOfCode hc
  have hlt := (field w 25 3).isLt
  have hcls : field w 25 3 = BitVec.ofNat 3 (field w 25 3).toNat := by simp
  generalize (field w 25 3).toNat = cls at h hcls hlt
  match cls, h, hcls, hlt with
  | 0, h, hcls, _ =>
    obtain ⟨htop, h25⟩ := dpClass_of_class hcls (.inl rfl)
    by_cases hmisc : bit w 4 = true ∧ bit w 7 = true
    · rw [if_pos hmisc] at h
      exact decodeMisc_reencodes hc hcls hmisc.1 hmisc.2 h
    · rw [if_neg hmisc] at h
      exact decodeDp_reencodes hc htop (.inr hmisc) h
  | 1, h, hcls, _ =>
    obtain ⟨htop, h25⟩ := dpClass_of_class hcls (.inr rfl)
    exact decodeDp_reencodes hc htop (.inl h25) h
  | 2, h, hcls, _ => cases h; exact decodeLsImm_reencodes hc hcls
  | 3, h, hcls, _ =>
    cases h4 : bit w 4 with
    | true =>
      rw [h4] at h
      cases h
      have hmask : w &&& 0x0E000010#32 = 0x06000010#32 :=
        masked_or (masked_of_field hcls (by decide)) (masked_of_bit h4 (by decide))
      exact ⟨by simpa [Instr.wf, hcond] using hmask, rfl⟩
    | false =>
      rw [h4] at h
      cases h
      exact decodeLsReg_reencodes hc hcls h4
  | 4, h, hcls, _ => cases h; exact decodeLsm_reencodes hc hcls
  | 5, h, hcls, _ =>
    cases h
    have hmask : w &&& 0x0E000000#32 = 0x0A000000#32 := masked_of_field hcls (by decide)
    exact ⟨by simpa [Instr.wf, hcond] using hmask, rfl⟩
  | 6, h, hcls, _ => cases h; exact decodeCp_reencodes hc hcls
  | k + 7, h, hcls, hlt =>
    obtain rfl : k = 0 := by omega
    cases h
    have hmask : w &&& 0x0E000000#32 = 0x0E000000#32 := masked_of_field hcls (by decide)
    exact ⟨by simpa [Instr.wf, hcond] using hmask, rfl⟩

end Sys2Proof
end

section
/-! PROOFS. The words the decoder gives no instruction, and the reserved words (30_encoding.md section 8): each of the
decoder's errors is a condition on fields, and each such condition is one on masked bits. -/

namespace Sys2Proof

/-! ### Masked bits and fields -/

/-- A field's mask compares the field. -/
theorem masked_field_iff {w : Word} {lo len : Nat} (v : BitVec len) (h : lo + len ≤ 32) :
    w &&& place (BitVec.allOnes len) lo = place v lo ↔ field w lo len = v := by
  refine ⟨fun hw => ?_, fun hw => masked_of_field hw h⟩
  rw [and_place_allOnes w h] at hw
  have hfield := congrArg (field · lo len) hw
  simpa only [field_place_same _ _ h] using hfield

/-- A bit's mask compares the bit. -/
theorem masked_bit_iff {w : Word} {i : Nat} (b : Bool) (h : i + 1 ≤ 32) :
    w &&& place 1#1 i = placeBit b i ↔ bit w i = b := by
  refine ⟨fun hw => ?_, fun hw => masked_of_bit hw h⟩
  have hbit := bit_of_masked hw (by rw [bit_place 1#1 i i h]; simp)
  simpa [bit_placeBit b i i h] using hbit

/-- Two masks apart compare what each of them does. -/
theorem masked_or_iff {w m m' v v' : Word} (hv : v &&& m = v) (hv' : v' &&& m' = v') (hapart : m &&& m' = 0#32) :
    w &&& (m ||| m') = v ||| v' ↔ w &&& m = v ∧ w &&& m' = v' := by
  refine ⟨fun h => ?_, fun ⟨h, h'⟩ => masked_or h h'⟩
  have hself : (m ||| m') &&& m = m := by
    rw [or_and_distrib, BitVec.and_self, BitVec.and_comm m', hapart, BitVec.or_zero]
  have hself' : (m ||| m') &&& m' = m' := by rw [or_and_distrib, BitVec.and_self, hapart, BitVec.zero_or]
  have hout : v' &&& m = 0#32 := by rw [← hv', BitVec.and_assoc, BitVec.and_comm m', hapart, BitVec.and_zero]
  have hout' : v &&& m' = 0#32 := by rw [← hv, BitVec.and_assoc, hapart, BitVec.and_zero]
  refine ⟨(and_of_masked h hself).trans ?_, (and_of_masked h hself').trans ?_⟩
  · rw [or_and_distrib, hv, hout, BitVec.or_zero]
  · rw [or_and_distrib, hv', hout', BitVec.zero_or]

theorem isFormFour_iff (w : Word) : isFormFour w ↔ field w 25 3 = 0#3 ∧ bit w 7 = false ∧ bit w 4 = true := by
  rw [← masked_field_iff _ (by decide), ← masked_bit_iff _ (by decide), ← masked_bit_iff _ (by decide),
    ← masked_or_iff (by decide) (by decide) (by decide), ← masked_or_iff (by decide) (by decide) (by decide)]
  rfl

theorem isOtherForm_iff (w : Word) :
    isOtherForm w ↔ field w 25 3 = 1#3 ∨ (field w 25 3 = 0#3 ∧ bit w 4 = false) := by
  rw [← masked_field_iff _ (by decide), ← masked_field_iff _ (by decide), ← masked_bit_iff _ (by decide),
    ← masked_or_iff (by decide) (by decide) (by decide)]
  rfl

/-- The data-processing words are those of the classes 000 and 001 outside the halfword and multiply space (R93). -/
theorem isDp_iff (w : Word) :
    isFormFour w ∨ isOtherForm w ↔
      field w 25 3 = 1#3 ∨ (field w 25 3 = 0#3 ∧ ¬ (bit w 4 = true ∧ bit w 7 = true)) := by
  rw [isFormFour_iff, isOtherForm_iff]
  cases bit w 4 <;> cases bit w 7 <;> simp [or_comm]

/-! ### The masks of the decoder's errors -/

theorem movOpcode_iff (w : Word) : w &&& 0x01E00000#32 = 0x01A00000#32 ↔ field w 21 4 = 13#4 := by
  rw [← masked_field_iff _ (by decide)]; rfl

theorem rnZero_iff (w : Word) : w &&& 0x000F0000#32 = 0#32 ↔ field w 16 4 = 0#4 := by
  rw [← masked_field_iff _ (by decide)]; rfl

theorem cmpOpcode_iff (w : Word) : w &&& 0x01F00000#32 = 0x01500000#32 ↔ field w 21 4 = 10#4 ∧ bit w 20 = true := by
  rw [← masked_field_iff _ (by decide), ← masked_bit_iff _ (by decide),
    ← masked_or_iff (by decide) (by decide) (by decide)]
  rfl

theorem rdZero_iff (w : Word) : w &&& 0x0000F000#32 = 0#32 ↔ field w 12 4 = 0#4 := by
  rw [← masked_field_iff _ (by decide)]; rfl

theorem compareWithoutS_iff (w : Word) :
    w &&& 0x01900000#32 = 0x01000000#32 ↔ bit w 24 = true ∧ bit w 23 = false ∧ bit w 20 = false := by
  rw [← masked_bit_iff _ (by decide), ← masked_bit_iff _ (by decide), ← masked_bit_iff _ (by decide),
    ← masked_or_iff (by decide) (by decide) (by decide), ← masked_or_iff (by decide) (by decide) (by decide)]
  rfl

theorem halfwordRegister_iff (w : Word) : w &&& 0x0E400090#32 = 0x00000090#32 ↔
    field w 25 3 = 0#3 ∧ bit w 22 = false ∧ bit w 7 = true ∧ bit w 4 = true := by
  rw [← masked_field_iff _ (by decide), ← masked_bit_iff _ (by decide), ← masked_bit_iff _ (by decide),
    ← masked_bit_iff _ (by decide), ← masked_or_iff (by decide) (by decide) (by decide),
    ← masked_or_iff (by decide) (by decide) (by decide), ← masked_or_iff (by decide) (by decide) (by decide)]
  rfl

theorem mulSwap_iff (w : Word) : w &&& 0x00000060#32 = 0#32 ↔ bit w 6 = false ∧ bit w 5 = false := by
  rw [← masked_bit_iff _ (by decide), ← masked_bit_iff _ (by decide),
    ← masked_or_iff (by decide) (by decide) (by decide)]
  rfl

theorem signedStore_iff (w : Word) : w &&& 0x00100040#32 = 0x00000040#32 ↔ bit w 20 = false ∧ bit w 6 = true := by
  rw [← masked_bit_iff _ (by decide), ← masked_bit_iff _ (by decide),
    ← masked_or_iff (by decide) (by decide) (by decide)]
  rfl

theorem bits11To8Zero_iff (w : Word) : w &&& 0x00000F00#32 = 0#32 ↔ field w 8 4 = 0#4 := by
  rw [← masked_field_iff _ (by decide)]; rfl

/-! ### The errors of each part of the decoder -/

theorem decodeMov_error (c : Cond) (w : Word) (e : DecodeError) :
    decodeMov c w = .error e ↔ e = .movRnNotZero ∧ field w 16 4 ≠ 0#4 := by
  unfold decodeMov
  by_cases h : field w 16 4 = 0#4
  · cases decodeOperand2 w <;> simp [h]
  · simp [h, eq_comm]

theorem decodeCmp_error (c : Cond) (w : Word) (e : DecodeError) :
    decodeCmp c w = .error e ↔ e = .cmpRdNotZero ∧ field w 12 4 ≠ 0#4 := by
  unfold decodeCmp
  by_cases h : field w 12 4 = 0#4
  · cases decodeOperand2 w <;> simp [h]
  · simp [h, eq_comm]

/-- What stops the decoder on a data-processing word (R124, R158). -/
def dpError (w : Word) (e : DecodeError) : Prop :=
  (e = .movRnNotZero ∧ field w 21 4 = 13#4 ∧ field w 16 4 ≠ 0#4) ∨
  (e = .cmpRdNotZero ∧ field w 21 4 = 10#4 ∧ bit w 20 = true ∧ field w 12 4 ≠ 0#4) ∨
  (e = .compareWithoutS ∧ bit w 24 = true ∧ bit w 23 = false ∧ bit w 20 = false)

theorem decodeDp_error (c : Cond) (w : Word) (e : DecodeError) : decodeDp c w = .error e ↔ dpError w e := by
  have h24 : bit w 24 = (field w 21 4).getLsbD 3 := by simp [bit, field]
  have h23 : bit w 23 = (field w 21 4).getLsbD 2 := by simp [bit, field]
  unfold decodeDp dpError
  rw [h24, h23]
  generalize field w 21 4 = opcode
  obtain ⟨⟨k, hk⟩⟩ := opcode
  cases hs : bit w 20 <;> interval_cases k <;>
    simp [decodeMov_error, decodeCmp_error, BitVec.toNat_eq, BitVec.getLsbD, Nat.testBit, eq_comm (b := e)]

theorem decodeMisc_error (c : Cond) (w : Word) (e : DecodeError) :
    decodeMisc c w = .error e ↔
      e = .halfwordBits11To8 ∧ ¬ (bit w 6 = false ∧ bit w 5 = false) ∧ ¬ (bit w 20 = false ∧ bit w 6 = true) ∧
        bit w 22 = false ∧ field w 8 4 ≠ 0#4 := by
  unfold decodeMisc
  by_cases hfield : field w 8 4 = 0#4
  · cases bit w 6 <;> cases bit w 5 <;> cases bit w 20 <;> cases bit w 22 <;> simp [hfield]
  · cases bit w 6 <;> cases bit w 5 <;> cases bit w 20 <;> cases bit w 22 <;> simp [hfield, eq_comm]

/-- The decoder refuses a word with a condition in the data-processing space or in the halfword space only. -/
theorem decode_error {w : Word} {c : Cond} (hc : condOfCode (field w 28 4) = some c) (e : DecodeError) :
    decode w = .error e ↔
      ((isFormFour w ∨ isOtherForm w) ∧ dpError w e) ∨
        (field w 25 3 = 0#3 ∧ bit w 4 = true ∧ bit w 7 = true ∧ decodeMisc c w = .error e) := by
  rw [isDp_iff, ← decodeDp_error c]
  unfold decode
  rw [hc]
  generalize field w 25 3 = cls
  obtain ⟨⟨k, hk⟩⟩ := cls
  cases h4 : bit w 4 <;> cases h7 : bit w 7 <;> interval_cases k <;> simp [BitVec.toNat_eq]

/-! ### The obligations -/

/-- Settles O4: `decode_error` with the errors of each part of the decoder, whose fields are compared by the masks. -/
theorem decoderRefusalsAreThoseListed : Obligations.DecoderRefusalsAreThoseListed := by
  intro w hw
  obtain ⟨c, hc⟩ := condOfCode_of_not_1111 hw
  refine ⟨?_, ?_, ?_, ?_⟩ <;> rw [decode_error hc, decodeMisc_error]
  · simp [dpError, movOpcode_iff, rnZero_iff]
  · simp [dpError, cmpOpcode_iff, rdZero_iff, and_assoc]
  · simp [dpError, compareWithoutS_iff]
  · simp only [dpError, halfwordRegister_iff, mulSwap_iff, signedStore_iff, bits11To8Zero_iff, ne_eq, reduceCtorEq,
      false_and, or_self, and_false, false_or, true_and]
    tauto

/-- Settles O6: each class by its masked bits; the meanings of the reserved rows are their stops. -/
theorem reservedWordsStop : Obligations.ReservedWordsStop := by
  intro w
  refine ⟨fun h => ⟨decode_cond1111 h, fun _ => rfl⟩, fun hw => ?_⟩
  obtain ⟨c, hc⟩ := condOfCode_of_not_1111 hw
  exact ⟨fun h => ⟨decode_lsRegBit4 hc h, fun _ => rfl⟩, fun h => ⟨decode_branchClass hc h, fun _ => rfl⟩,
    fun h => ⟨decode_class111 hc h, fun _ => rfl⟩, fun h => ⟨decode_mulSwapSpace hc h, fun _ => rfl⟩⟩

/-- Settles O3: the six words are closed, so the decoder is evaluated on them. -/
theorem exampleWordsDecode : Obligations.ExampleWordsDecode := by
  unfold Obligations.ExampleWordsDecode
  decide

end Sys2Proof
end

section
/-! PROOFS. How each instruction runs and what its step can do: which shared execution an instruction is, on which
parts, and the effects a completed instruction can have. The invariants and frames that follow are read off these. -/

namespace Sys2Proof

/-- A halfword or signed-byte word is not of the word and byte class (R93). -/
theorem encodeMisc_class (c : Cond) (ix : Indexing) (up imm load sBit hBit : Bool) (rn rd : Reg) (high low : BitVec 4) :
    encodeMisc c ix up imm load sBit hBit rn rd high low &&& 0x0C000000#32 = 0#32 := by
  have hclass := masked_of_field (hasLsFields_encodeMisc c ix up imm load sBit hBit rn rd high low).class_eq (by decide)
  rw [and_of_masked hclass (m' := 0x0C000000#32) (by decide)]
  decide

end Sys2Proof

namespace Sys2Proof.Machine

/-! ### Which shared execution an instruction is -/

/-- The data-processing instruction `i` runs as the operation `op`. -/
structure RunsDp (i : Instr) (dest : Option Reg) (sf : Bool) (c : Cond) (op : DpOp) (rn rd : Reg) (op2 : Operand2) :
    Prop where
  condition : i.condition? = some c
  writes : i.dpWrites? = some (dest, sf)
  exec_eq : ∀ s, exec i s = execDp op c sf rn rd op2 s
  dest_eq : dest = if writesRd op then some rd else none

/-- The single Load/Store `i` runs as the transfer `op` on its parts `x`, after its class's check `chk` on Rn and Rm. -/
structure RunsLs (i : Instr) (x : SingleTransfer) (c : Cond) (op : LsOp) (chk : Except Stop Unit) : Prop where
  condition : i.condition? = some c
  single : i.single? = some x
  indexing : i.indexing? = some x.ix
  exec_eq : ∀ s, exec i s = execLs op chk c x.ix x.up x.rn x.rd x.offset s
  load_eq : isLoad op = x.load
  size_eq : accessSize op = x.bytes
  chk_eq : chk = checkWordByteIndex x.offset x.rn ∨
    (chk = checkHalfwordIndex x.offset x.rn ∧ encode i &&& 0x0C000000#32 = 0#32)

/-- The coprocessor Load/Store `i` runs on its parts `x`. -/
structure RunsCp (i : Instr) (x : CpAccess) (c : Cond) : Prop where
  condition : i.condition? = some c
  access : i.cpAccess? = some x
  coprocessor : i.coprocessor? = some x.cp
  exec_eq : ∀ s, exec i s = execCp x.load (encode i) c x.ix x.up x.n x.rn x.crd x.cp x.low s

/-- The kinds of instructions, each with the execution its instructions share. -/
inductive Kind : Instr → Prop
  | dp {i dest sf c op rn rd op2} (h : RunsDp i dest sf c op rn rd op2) : Kind i
  | ls {i x c op chk} (h : RunsLs i x c op chk) : Kind i
  | ldm (c before up user wb rn list) : Kind (.ldm c before up user wb rn list)
  | stm (c before up user wb rn list) : Kind (.stm c before up user wb rn list)
  | cp {i x c} (h : RunsCp i x c) : Kind i
  | reserved {i} (h : i.condition? = none) (hstop : ∀ s t, exec i s ≠ .next t) : Kind i

theorem dp_runs {i : Instr} {dest : Option Reg} {sf : Bool} (h : i.dpWrites? = some (dest, sf)) :
    ∃ c op rn rd op2, RunsDp i dest sf c op rn rd op2 := by
  cases i <;> cases h <;> exact ⟨_, _, _, _, _, rfl, rfl, fun _ => rfl, rfl⟩

theorem ls_runs {i : Instr} {x : SingleTransfer} (h : i.single? = some x) : ∃ c op chk, RunsLs i x c op chk := by
  cases i <;> cases h
  case ldrImm | ldrReg | strImm | strReg | ldrbImm | ldrbReg | strbImm | strbReg =>
    exact ⟨_, _, _, rfl, rfl, rfl, fun _ => rfl, rfl, rfl, .inl rfl⟩
  all_goals exact ⟨_, _, _, rfl, rfl, rfl, fun _ => rfl, rfl, rfl, .inr ⟨rfl, encodeMisc_class ..⟩⟩

theorem cp_runs {i : Instr} {x : CpAccess} (h : i.cpAccess? = some x) : ∃ c, RunsCp i x c := by
  cases i <;> cases h <;> exact ⟨_, rfl, rfl, rfl, fun _ => rfl⟩

theorem kind (i : Instr) : Kind i := by
  cases hdp : i.dpWrites? with
  | some d =>
    obtain ⟨c, op, rn, rd, op2, h⟩ := dp_runs hdp
    exact .dp h
  | none =>
  cases hls : i.single? with
  | some x =>
    obtain ⟨c, op, chk, h⟩ := ls_runs hls
    exact .ls h
  | none =>
  cases hcp : i.cpAccess? with
  | some x =>
    obtain ⟨c, h⟩ := cp_runs hcp
    exact .cp h
  | none =>
  cases i
  case ldm => exact .ldm ..
  case stm => exact .stm ..
  case undefinedCond1111 | undefinedLsRegBit4 | undefinedSignedStore | refusedBranchClass | refusedClass111
      | refusedMulSwapSpace =>
    exact .reserved rfl fun s t h => by cases h
  case movImm | movShiftImm | movShiftReg | addImm | addShiftImm | addShiftReg | cmpImm | cmpShiftImm | cmpShiftReg
      | andDp | eorDp | subDp | rsbDp | adcDp | sbcDp | rscDp | tstDp | teqDp | cmnDp | orrDp | bicDp | mvnDp =>
    cases hdp
  case ldcOffset | ldcPre | ldcPost | ldcUnindexed | stcOffset | stcPre | stcPost | stcUnindexed => cases hcp
  all_goals cases hls

/-! ### What a completed instruction can do -/

/-- The effects of an instruction that answers the next state `t` from `s`. -/
inductive Effect (i : Instr) (s t : State) : Prop
  | skip {c} (hi : i.condition? = some c) (hc : conditionPassed c s.cpsr = false) (hpc : s.CanAdvance)
      (ht : t = { s with pc := s.pc + 4#32 })
  | dp {dest sf op rd} (a v) (hi : i.dpWrites? = some (dest, sf)) (hdest : dest = if writesRd op then some rd else none)
      (hrd : writesRd op = true → rd ≠ Reg.pc) (hpc : s.CanAdvance)
      (ht : t = { applyDp op sf rd a v s with pc := s.pc + 4#32 })
  | load {x} (v wb) (hi : i.single? = some x) (hx : x.load = true) (hrd : x.rd ≠ Reg.pc)
      (hrn : writesBack x.ix = true → x.rn ≠ Reg.pc) (hpc : s.CanAdvance)
      (ht : t = { writeBase x.ix x.rn wb (s.setReg x.rd v) with pc := s.pc + 4#32 })
  | store {x} (a v wb) (hi : i.single? = some x) (hx : x.load = false) (hn : x.bytes = 1 ∨ x.bytes = 2 ∨ x.bytes = 4)
      (halign : a.toNat % x.bytes = 0) (hmap : mapped s.cfg .write a.toNat x.bytes = true)
      (htext : meetsText s.cfg a.toNat x.bytes = false) (hrn : writesBack x.ix = true → x.rn ≠ Reg.pc)
      (hpc : s.CanAdvance) (ht : t = { writeBase x.ix x.rn wb (s.store a x.bytes v) with pc := s.pc + 4#32 })
  | ldm {c before up user wb rn list} (words e) (hi : i = .ldm c before up user wb rn list) (hrn : rn ≠ Reg.pc)
      (huser : user = true → wb = false) (hlist : inList list Reg.pc = false) (hpc : s.CanAdvance)
      (ht : t = { writeBlockBase wb rn e (writeRegs (usesUserBank user list) s ((regsOf list).zip words)) with
        pc := s.pc + 4#32 })
  | ret {c before up user wb rn list} (words e w) (hi : i = .ldm c before up user wb rn list)
      (hc : conditionPassed c s.cpsr = true) (hrn : rn ≠ Reg.pc) (hlist : inList list Reg.pc = true)
      (hsp : user = true → hasSpsr s.cfg s.cpsr.mode = true)
      (hw : w = s.load (wordAddr (lsmStart s before up rn list) (countOf list - 1)) 4) (halign : w.toNat % 4 = 0)
      (ht : t = { writeBlockBase wb rn e (writeRegs false s ((regsOf list).zip words)) with
        pc := w, cpsr := if user then s.spsrOf s.cpsr.mode else s.cpsr })
  | stm {c before up user wb rn list} (start words e) (hi : i = .stm c before up user wb rn list) (hrn : rn ≠ Reg.pc)
      (hblock : checkBlock s .write start words.length = .ok ()) (hpc : s.CanAdvance)
      (ht : t = { writeBlockBase wb rn e (s.storeWords start words) with pc := s.pc + 4#32 })
  | ldc {x} (note wb) (hi : i.cpAccess? = some x) (hx : x.load = true) (hrn : cpWritesBack x.ix = true → x.rn ≠ Reg.pc)
      (hpc : s.CanAdvance)
      (ht : t = { writeCpBase x.ix x.rn wb (s.noteTransfer note) with pc := s.pc + 4#32 })
  | stc {x} (note start words wb) (hi : i.cpAccess? = some x) (hx : x.load = false)
      (hrn : cpWritesBack x.ix = true → x.rn ≠ Reg.pc)
      (hblock : checkBlock s .write start words.length = .ok ()) (hpc : s.CanAdvance)
      (ht : t = { writeCpBase x.ix x.rn wb ((s.storeWords start words).noteTransfer note) with pc := s.pc + 4#32 })

theorem accessSize_cases (op : LsOp) : accessSize op = 1 ∨ accessSize op = 2 ∨ accessSize op = 4 := by
  cases op <;> simp [accessSize]

/-- The advance after updates that leave the pc alone. -/
theorem advance_of_pc {s u t : State} (hu : u.pc = s.pc) (h : advance u = .ok t) :
    s.CanAdvance ∧ t = { u with pc := s.pc + 4#32 } := by
  rw [advance_ok, hu] at h
  exact h

/-- An SPSR depends only on the SPSRs. -/
theorem State.spsrOf_congr {s t : State} (h : t.spsr = s.spsr) (m : Mode) : t.spsrOf m = s.spsrOf m := by
  cases m <;> simp [State.spsrOf, h]

/-- How an LDM returns: the status restored where S = 1, and the loaded word as the pc. -/
theorem return_eq {s u : State} (hcpsr : u.cpsr = s.cpsr) (hspsr : u.spsr = s.spsr) (user : Bool) (w : Word) :
    { (if user then u.restoreStatus else u) with pc := w } =
      { u with pc := w, cpsr := if user then s.spsrOf s.cpsr.mode else s.cpsr } := by
  cases user
  · simp [← hcpsr]
  · simp [State.restoreStatus, State.spsrOf_congr hspsr, hcpsr]

theorem dp_effect {i : Instr} {dest : Option Reg} {sf : Bool} {c : Cond} {op : DpOp} {rn rd : Reg} {op2 : Operand2}
    {s t : State} (hrun : RunsDp i dest sf c op rn rd op2) (h : exec i s = .next t) : Effect i s t := by
  rw [hrun.exec_eq, execDp_next] at h
  rcases h with ⟨-, -, hrd, a, -, v, -, hadv⟩ | ⟨hc, hadv⟩
  · obtain ⟨hpc, ht⟩ := advance_of_pc (applyDp_pc ..) hadv
    exact .dp a v hrun.writes hrun.dest_eq (by simpa using hrd) hpc ht
  · obtain ⟨hpc, ht⟩ := advance_of_pc rfl hadv
    exact .skip hrun.condition hc hpc ht

theorem ls_effect {i : Instr} {x : SingleTransfer} {c : Cond} {op : LsOp} {chk : Except Stop Unit} {s t : State}
    (hrun : RunsLs i x c op chk) (h : exec i s = .next t) : Effect i s t := by
  rw [hrun.exec_eq, execLs_next] at h
  rcases h with ⟨-, ⟨-, -, -, hrd, hrn, base, -, offset, -, u, hu, hadv⟩ | ⟨hc, hadv⟩⟩
  · have hrn' : writesBack x.ix = true → x.rn ≠ Reg.pc := by simpa using hrn
    cases hop : isLoad op with
    | true =>
      obtain ⟨-, -, rfl⟩ := (transfer_load_ok s u hop ..).1 hu
      obtain ⟨hpc, ht⟩ := advance_of_pc (s := s) (by simp) hadv
      exact .load _ _ hrun.single (hrun.load_eq ▸ hop) (by simpa using hrd) hrn' hpc ht
    | false =>
      obtain ⟨halign, hmap, htext, rfl⟩ := (transfer_store_ok s u hop ..).1 hu
      obtain ⟨hpc, ht⟩ := advance_of_pc (s := s) (by simp) hadv
      rw [hrun.size_eq] at halign hmap htext ht
      exact .store _ _ _ hrun.single (hrun.load_eq ▸ hop) (hrun.size_eq ▸ accessSize_cases op) halign hmap htext hrn'
        hpc ht
  · obtain ⟨hpc, ht⟩ := advance_of_pc rfl hadv
    exact .skip hrun.condition hc hpc ht

theorem ldm_effect {s t : State} {c : Cond} {before up user wb : Bool} {rn : Reg} {list : BitVec 16}
    (h : exec (.ldm c before up user wb rn list) s = .next t) : Effect (.ldm c before up user wb rn list) s t := by
  replace h : execLdm c before up user wb rn list s = .next t := h
  rw [execLdm_next] at h
  rcases h with ⟨hc, hchk, -, hleave⟩ | ⟨hc, hadv⟩
  · obtain ⟨-, hrn, -, -, hub, -, hsp⟩ := (checkLsm_ok ..).1 hchk
    rcases (leaveLdm_ok ..).1 hleave with ⟨hlist, halign, ht⟩ | ⟨hlist, hadv⟩
    · have hbank : usesUserBank user list = false := by simp [usesUserBank, hlist]
      rw [hbank, return_eq (s := s) (by simp) (by simp)] at ht
      exact .ret _ _ _ rfl hc hrn hlist (by simpa [hlist] using hsp) rfl halign ht
    · obtain ⟨hpc, ht⟩ := advance_of_pc (s := s) (by simp) hadv
      have huser : user = true → wb = false := by simpa [hlist] using hub
      exact .ldm _ _ rfl hrn huser hlist hpc ht
  · obtain ⟨hpc, ht⟩ := advance_of_pc rfl hadv
    exact .skip rfl hc hpc ht

theorem stm_effect {s t : State} {c : Cond} {before up user wb : Bool} {rn : Reg} {list : BitVec 16}
    (h : exec (.stm c before up user wb rn list) s = .next t) : Effect (.stm c before up user wb rn list) s t := by
  replace h : execStm c before up user wb rn list s = .next t := h
  rw [execStm_next] at h
  rcases h with ⟨-, hchk, hblock, hadv⟩ | ⟨hc, hadv⟩
  · obtain ⟨-, hrn, -⟩ := (checkLsm_ok ..).1 hchk
    obtain ⟨hpc, ht⟩ := advance_of_pc (s := s) (by simp) hadv
    exact .stm _ _ _ rfl hrn (by rw [List.length_map]; exact hblock) hpc ht
  · obtain ⟨hpc, ht⟩ := advance_of_pc rfl hadv
    exact .skip rfl hc hpc ht

theorem cp_effect {i : Instr} {x : CpAccess} {c : Cond} {s t : State} (hrun : RunsCp i x c)
    (h : exec i s = .next t) : Effect i s t := by
  rw [hrun.exec_eq] at h
  cases hx : x.load with
  | true =>
    rw [hx, execCp_load_next] at h
    rcases h with ⟨-, ⟨-, hrn, base, -, -, hadv⟩ | ⟨hc, hadv⟩⟩
    · obtain ⟨hpc, ht⟩ := advance_of_pc (s := s) (by simp) hadv
      exact .ldc _ _ hrun.access hx (by simpa using hrn) hpc ht
    · obtain ⟨hpc, ht⟩ := advance_of_pc rfl hadv
      exact .skip hrun.condition hc hpc ht
  | false =>
    rw [hx, execCp_store_next] at h
    rcases h with ⟨-, ⟨-, hrn, base, -, hblock, hadv⟩ | ⟨hc, hadv⟩⟩
    · obtain ⟨hpc, ht⟩ := advance_of_pc (s := s) (by simp) hadv
      exact .stc _ _ _ _ hrun.access hx (by simpa using hrn) (by rw [drawnWords_length]; exact hblock) hpc ht
    · obtain ⟨hpc, ht⟩ := advance_of_pc rfl hadv
      exact .skip hrun.condition hc hpc ht

/-- What an instruction that answers a next state can have done. -/
theorem exec_effect {i : Instr} {s t : State} (h : exec i s = .next t) : Effect i s t := by
  cases kind i with
  | dp hrun => exact dp_effect hrun h
  | ls hrun => exact ls_effect hrun h
  | ldm => exact ldm_effect h
  | stm => exact stm_effect h
  | cp hrun => exact cp_effect hrun h
  | reserved _ hstop => exact absurd h (hstop s t)

/-- What a step that answers a next state can have done, by the instruction that the word at the pc decodes to. -/
theorem step_effect {s t : State} (h : step s = .next t) :
    ∃ i, decode (s.load s.pc 4) = .ok i ∧ s.pc.toNat % 4 = 0 ∧ Effect i s t := by
  obtain ⟨i, hfetch, hexec⟩ := (step_next s t).1 h
  obtain ⟨-, halign, -, hdec⟩ := (fetch_ok s i).1 hfetch
  exact ⟨i, hdec, halign, exec_effect hexec⟩

end Sys2Proof.Machine
end

section
/-! PROOFS. What every step keeps (the whole machine): read off the effects a completed instruction can have. -/

namespace Sys2Proof.Machine

/-! ### Lists of registers and ranks (44_load_store_multiple.md R112, R262) -/

theorem mem_regsOf (list : BitVec 16) (i : Reg) : i ∈ regsOf list ↔ inList list i = true := by
  have hall : i ∈ allRegs := by revert i; decide
  simp [regsOf, hall]

theorem rankIn_succ (list : BitVec 16) (i : Nat) :
    rankIn list (i + 1) = rankIn list i + if list.getLsbD i then 1 else 0 := by
  unfold rankIn
  rw [List.range_succ, List.filter_append, List.length_append]
  cases h : list.getLsbD i <;> simp [h]

/-- A list names as many registers as have a number below 16. -/
theorem countOf_eq_rankIn (list : BitVec 16) : countOf list = rankIn list 16 := by
  have hall : allRegs = (List.range 16).map (BitVec.ofNat 4) := by decide
  unfold countOf regsOf rankIn
  rw [hall, List.filter_map, List.length_map]
  rfl

/-- R15 has the highest rank. -/
theorem rankIn_pc {list : BitVec 16} (h : inList list Reg.pc = true) :
    rankIn list (Reg.pc).toNat = countOf list - 1 := by
  have hbit : list.getLsbD 15 = true := h
  have hsucc := rankIn_succ list 15
  rw [hbit, if_pos rfl] at hsucc
  rw [countOf_eq_rankIn]
  change rankIn list 15 = rankIn list (15 + 1) - 1
  omega

/-! ### Memory -/

/-- What a completed instruction can have done to memory: nothing, a single store, or a block of words stored. -/
inductive MemoryEffect (i : Instr) (s t : State) : Prop
  | same (h : t.mem = s.mem)
  | store {x} (a v) (hi : i.single? = some x) (hx : x.load = false) (hn : x.bytes = 1 ∨ x.bytes = 2 ∨ x.bytes = 4)
      (halign : a.toNat % x.bytes = 0) (hmap : mapped s.cfg .write a.toNat x.bytes = true)
      (htext : meetsText s.cfg a.toNat x.bytes = false) (h : t.mem = (s.store a x.bytes v).mem)
  | block (start words)
      (hi : (∃ c before up user wb rn list, i = .stm c before up user wb rn list) ∨
        ∃ x, i.cpAccess? = some x ∧ x.load = false)
      (hblock : checkBlock s .write start words.length = .ok ()) (h : t.mem = (s.storeWords start words).mem)

theorem Effect.memory {i : Instr} {s t : State} (h : Effect i s t) : MemoryEffect i s t := by
  cases h with
  | skip _ _ _ ht => exact .same (by rw [ht])
  | dp a v _ _ _ _ ht => exact .same (by rw [ht]; simp)
  | load v wb _ _ _ _ _ ht => exact .same (by rw [ht]; simp)
  | store a v wb hi hx hn halign hmap htext _ _ ht => exact .store a v hi hx hn halign hmap htext (by rw [ht]; simp)
  | ldm words e _ _ _ _ _ ht => exact .same (by rw [ht]; simp)
  | ret words e w _ _ _ _ _ _ _ ht => exact .same (by rw [ht]; simp)
  | stm start words e hi _ hblock _ ht =>
    exact .block start words (.inl ⟨_, _, _, _, _, _, _, hi⟩) hblock (by rw [ht]; simp)
  | ldc note wb _ _ _ _ ht => exact .same (by rw [ht]; simp)
  | stc note start words wb hi hx _ hblock _ ht =>
    exact .block start words (.inr ⟨_, hi, hx⟩) hblock (by rw [ht]; simp)

/-- A byte that a step changes lies in no program text: a store that meets it is refused (R76). -/
theorem MemoryEffect.byteAt_text {i : Instr} {s t : State} (h : MemoryEffect i s t) {a : Nat}
    (ha : byteInText s.cfg a = true) : t.byteAt a = s.byteAt a := by
  have outside : ∀ {b n}, meetsText s.cfg b n = false → a < b ∨ b + n ≤ a := fun hm => by
    by_contra hin
    have hfalse := (meetsText_eq_false ..).1 hm a (by omega) (by omega)
    rw [ha] at hfalse
    cases hfalse
  cases h with
  | same hmem => exact s.byteAt_congr hmem a
  | store b v _ _ _ _ _ htext hmem =>
    rw [State.byteAt_congr (s.store b _ v) hmem]
    exact s.byteAt_store_outside _ _ _ _ (outside htext)
  | block start words _ hblock hmem =>
    obtain ⟨htop, -, -, htext⟩ := (checkBlock_ok ..).1 hblock
    rw [State.byteAt_congr (s.storeWords start words) hmem]
    exact s.byteAt_storeWords_outside _ _ _ htop (outside (htext rfl))

/-- Word j of a block that stays below the top is at its start plus 4 j. -/
theorem wordAddr_toNat {start : Word} {n j : Nat} (htop : start.toNat + 4 * n ≤ addressSpace) (hj : j < n) :
    (wordAddr start j).toNat = start.toNat + 4 * j := by
  unfold addressSpace at htop
  unfold wordAddr
  rw [BitVec.toNat_add, BitVec.toNat_ofNat]
  omega

/-- A byte that a step changes is one of an aligned access that is mapped for writing. -/
theorem MemoryEffect.changed {i : Instr} {s t : State} (h : MemoryEffect i s t) {a : Nat}
    (ha : t.byteAt a ≠ s.byteAt a) :
    a < 2 ^ 32 ∧
    (∃ b n, (n = 1 ∨ n = 2 ∨ n = 4) ∧ b % n = 0 ∧ b ≤ a ∧ a < b + n ∧ mapped s.cfg .write b n = true) ∧
    ((∃ x, i.single? = some x ∧ x.load = false) ∨
      (∃ c before up user wb rn list, i = .stm c before up user wb rn list) ∨
      ∃ x, i.cpAccess? = some x ∧ x.load = false) := by
  cases h with
  | same hmem => exact absurd (s.byteAt_congr hmem a) ha
  | @store x b v hi hx hn halign hmap _ hmem =>
    have hin : b.toNat ≤ a ∧ a < b.toNat + x.bytes := by
      by_contra hout
      rw [State.byteAt_congr (s.store b _ v) hmem] at ha
      exact ha (s.byteAt_store_outside _ _ _ _ (by omega))
    have htop := aligned_below_top b x.bytes hn halign
    unfold addressSpace at htop
    exact ⟨by omega, ⟨b.toNat, x.bytes, hn, halign, hin.1, hin.2, hmap⟩, .inl ⟨x, hi, hx⟩⟩
  | block start words hi hblock hmem =>
    obtain ⟨htop, halign, hmap, -⟩ := (checkBlock_ok ..).1 hblock
    have hin : start.toNat ≤ a ∧ a < start.toNat + 4 * words.length := by
      by_contra hout
      rw [State.byteAt_congr (s.storeWords start words) hmem] at ha
      exact ha (s.byteAt_storeWords_outside _ _ _ htop (by omega))
    have hj : (a - start.toNat) / 4 < words.length := by omega
    have hword := wordAddr_toNat htop hj
    have hmapj := hmap _ hj
    rw [hword] at hmapj
    unfold addressSpace at htop
    exact ⟨by omega, ⟨_, 4, by simp, by omega, by omega, by omega, hmapj⟩, .inr hi⟩

/-- A step keeps memory's canonical form. -/
theorem MemoryEffect.wf {i : Instr} {s t : State} (h : MemoryEffect i s t) (hs : Memory.wf s.mem = true) :
    Memory.wf t.mem = true := by
  cases h with
  | same hmem => rw [hmem]; exact hs
  | store a v _ _ hn halign _ _ hmem => rw [hmem]; exact s.store_wf _ _ _ hs (aligned_below_top _ _ hn halign)
  | block start words _ hblock hmem =>
    obtain ⟨htop, -⟩ := (checkBlock_ok ..).1 hblock
    rw [hmem]
    exact s.storeWords_wf _ _ hs htop

/-! ### The other fields -/

theorem Effect.saved {i : Instr} {s t : State} (h : Effect i s t) : SameSaved s t := by
  cases h <;> rename_i ht <;> rw [ht] <;> exact ⟨by simp, by simp⟩

theorem Effect.regs_wf {i : Instr} {s t : State} (h : Effect i s t) (hs : Registers.wf s.regs = true) :
    Registers.wf t.regs = true := by
  have hset : ∀ (u : State) (r : Reg) (v : Word), Registers.wf u.regs = true →
      Registers.wf (u.setReg r v).regs = true := fun u r v hu => u.setPhys_wf _ _ hu
  cases h with
  | skip _ _ _ ht => rw [ht]; exact hs
  | @dp _ _ op rd a v _ _ _ _ ht =>
    rw [ht]
    show Registers.wf (applyDp ..).regs = true
    rw [applyDp_regs]
    split
    · exact hset s _ _ hs
    · exact hs
  | load v wb _ _ _ _ _ ht => rw [ht]; exact writeBase_wf _ _ _ _ (hset s _ _ hs)
  | store a v wb _ _ _ _ _ _ _ _ ht => rw [ht]; exact writeBase_wf _ _ _ _ (by simpa using hs)
  | ldm words e _ _ _ _ _ ht => rw [ht]; exact writeBlockBase_wf _ _ _ _ (writeRegs_wf _ _ _ hs)
  | ret words e w _ _ _ _ _ _ _ ht => rw [ht]; exact writeBlockBase_wf _ _ _ _ (writeRegs_wf _ _ _ hs)
  | stm start words e _ _ _ _ ht => rw [ht]; exact writeBlockBase_wf _ _ _ _ (by simpa using hs)
  | ldc note wb _ _ _ _ ht => rw [ht]; exact writeCpBase_wf _ _ _ _ (by simpa using hs)
  | stc note start words wb _ _ _ _ _ ht => rw [ht]; exact writeCpBase_wf _ _ _ _ (by simpa using hs)

/-- The pc after a completed instruction: the next word's address, or the word an LDM loaded into R15. -/
theorem Effect.pc {i : Instr} {s t : State} (h : Effect i s t) :
    (s.CanAdvance ∧ t.pc = s.pc + 4#32) ∨
    (t.pc.toNat % 4 = 0 ∧ ∃ c before up user wb rn list, i = .ldm c before up user wb rn list ∧
      inList list Reg.pc = true ∧ conditionPassed c s.cpsr = true ∧
      t.pc = s.load (lsmAddress s before up rn list Reg.pc) 4) := by
  cases h with
  | ret words e w hi hc _ hlist _ hw halign ht =>
    refine .inr ⟨by rw [ht]; exact halign, _, _, _, _, _, _, _, hi, hlist, hc, ?_⟩
    rw [ht, lsmAddress, rankIn_pc hlist, hw]
  | skip _ _ hpc ht | dp _ _ _ _ _ hpc ht | load _ _ _ _ _ _ hpc ht | store _ _ _ _ _ _ _ _ _ _ hpc ht
  | ldm _ _ _ _ _ _ hpc ht | stm _ _ _ _ _ _ hpc ht | ldc _ _ _ _ _ hpc ht | stc _ _ _ _ _ _ _ _ hpc ht =>
    exact .inl ⟨hpc, by rw [ht]⟩

theorem toNat_pc_add_four {s : State} (h : s.CanAdvance) : (s.pc + 4#32).toNat = s.pc.toNat + 4 := by
  unfold State.CanAdvance at h
  rw [BitVec.toNat_add, BitVec.toNat_ofNat]
  omega

/-- The status register after a completed instruction. -/
theorem Effect.status {i : Instr} {s t : State} (h : Effect i s t) :
    t.cpsr = s.cpsr ∨
    (∃ dest, i.dpWrites? = some (dest, true) ∧ t.cpsr.mode = s.cpsr.mode) ∨
    ∃ c before up wb rn list, i = .ldm c before up true wb rn list ∧ inList list Reg.pc = true ∧
      hasSpsr s.cfg s.cpsr.mode = true ∧ t.cpsr = s.spsrOf s.cpsr.mode := by
  cases h with
  | @dp dest sf op rd a v hi _ _ _ ht =>
    cases sf with
    | true => exact .inr (.inl ⟨dest, hi, by rw [ht]; simp⟩)
    | false => exact .inl (by rw [ht]; simp)
  | @ret c before up user wb rn list words e w hi _ _ hlist hsp _ _ ht =>
    cases user with
    | true => exact .inr (.inr ⟨_, _, _, _, _, _, hi, hlist, hsp rfl, by rw [ht]; rfl⟩)
    | false => exact .inl (by rw [ht]; rfl)
  | skip _ _ _ ht => exact .inl (by rw [ht])
  | load _ _ _ _ _ _ _ ht | store _ _ _ _ _ _ _ _ _ _ _ ht | ldm _ _ _ _ _ _ _ ht
  | stm _ _ _ _ _ _ _ ht | ldc _ _ _ _ _ _ ht | stc _ _ _ _ _ _ _ _ _ ht =>
    exact .inl (by rw [ht]; simp)

/-- What a storage answers is its default or one of its entries. -/
theorem cellGet_cases {α : Type} (d : α) (m : Cells α) (k : Nat) :
    cellGet d m k = d ∨ ∃ e ∈ m, cellGet d m k = e.2 := by
  induction m with
  | nil => exact .inl rfl
  | cons e rest ih =>
    obtain ⟨k', v⟩ := e
    by_cases h : k' = k
    · exact .inr ⟨(k', v), by simp, by simp [cellGet, h]⟩
    · rw [cellGet, if_neg h]
      exact ih.imp id fun ⟨e, he, heq⟩ => ⟨e, by simp [he], heq⟩

/-- The mode an SPSR holds is legal where every SPSR's entry is. -/
theorem isMode_spsrOf {s : State} (h : ∀ e ∈ s.spsr, isMode s.cfg e.2.mode = true) (m : Mode) :
    isMode s.cfg (s.spsrOf m).mode = true := by
  have hget : ∀ k, isMode s.cfg (cellGet resetPsr s.spsr k).mode = true := fun k => by
    rcases cellGet_cases resetPsr s.spsr k with hd | ⟨e, he, heq⟩
    · rw [hd]; rfl
    · rw [heq]; exact h e he
  cases m with
  | user => exact hget 0
  | other n => exact hget (n + 1)

/-- A completed instruction leaves the coprocessors alone, or is a transfer that took one draw and added one record. -/
theorem Effect.coprocessors {i : Instr} {s t : State} (h : Effect i s t) :
    SameCoprocessors s t ∨
      ∃ note, i.cpAccess?.isSome = true ∧ t.draws = s.draws + 1 ∧ t.cpLog = note :: s.cpLog := by
  cases h with
  | ldc note wb hi _ _ _ ht => exact .inr ⟨note, by rw [hi]; rfl, by rw [ht]; simp, by rw [ht]; simp⟩
  | stc note start words wb hi _ _ _ _ ht => exact .inr ⟨note, by rw [hi]; rfl, by rw [ht]; simp, by rw [ht]; simp⟩
  | skip _ _ _ ht | dp _ _ _ _ _ _ ht | load _ _ _ _ _ _ _ ht | store _ _ _ _ _ _ _ _ _ _ _ ht
  | ldm _ _ _ _ _ _ _ ht | ret _ _ _ _ _ _ _ _ _ _ ht | stm _ _ _ _ _ _ _ ht =>
    exact .inl (by rw [ht]; exact ⟨by simp, by simp⟩)

/-! ### Registers -/

/-- A physical register that is no listed register's is not loaded. -/
theorem phys_writeRegs_zip (ub : Bool) (s : State) (list : BitVec 16) (words : List Word) (k : Nat)
    (h : ∀ r, inList list r = true → r ≠ Reg.pc → k ≠ transferHome ub s r) :
    (writeRegs ub s ((regsOf list).zip words)).phys k = s.phys k := by
  refine phys_writeRegs_other s ub _ k fun e he hpc => h e.1 ?_ hpc
  exact (mem_regsOf ..).1 (List.of_mem_zip he).1

theorem phys_applyDp (s : State) (op : DpOp) (sf : Bool) (rd : Reg) (a : Word) (v : Shifted) (k : Nat) :
    (applyDp op sf rd a v s).phys k =
      if writesRd op = true ∧ k = s.home rd then (compute op a v s.cpsr).result else s.phys k := by
  have hregs := applyDp_regs s op sf rd a v
  cases hw : writesRd op with
  | true =>
    rw [hw, if_pos rfl] at hregs
    rw [State.phys_congr _ hregs, State.phys_setReg]
    simp [State.home]
  | false =>
    rw [hw, if_neg Bool.false_ne_true] at hregs
    rw [State.phys_congr _ hregs]
    simp

/-- A physical register that a completed instruction changes is one of the current mode's, or user mode's for a register
of the list of an LDM with S = 1 and the PC not in it (R33, R267). -/
theorem Effect.changed_phys {i : Instr} {s t : State} (h : Effect i s t) {k : Nat} (hk : t.phys k ≠ s.phys k) :
    (∃ r, r ≠ Reg.pc ∧ k = s.home r) ∨
    ∃ c before up wb rn list r, i = .ldm c before up true wb rn list ∧ inList list Reg.pc = false ∧
      inList list r = true ∧ k = userHome s.cfg r := by
  by_contra hno
  push Not at hno
  obtain ⟨hcur, husr⟩ := hno
  refine hk ?_
  -- `u` is a state between `s` and `t`, with the configuration and the status of `s`
  have hapart : ∀ {b : Bool} {r : Reg} (u : State), (b = true → r ≠ Reg.pc) → u.cfg = s.cfg → u.cpsr = s.cpsr →
      ¬ (b = true ∧ k = homeOf u.cfg u.cpsr.mode r) := fun u hr hcfg hcpsr ⟨hb, hkr⟩ =>
    hcur _ (hr hb) (by rw [hkr, hcfg, hcpsr]; rfl)
  have hloads : ∀ (ub : Bool) (list : BitVec 16) (words : List Word),
      (ub = true → ∀ r, inList list r = true → k ≠ userHome s.cfg r) →
      (writeRegs ub s ((regsOf list).zip words)).phys k = s.phys k := fun ub list words hub =>
    phys_writeRegs_zip ub s list words k fun r hr hpc => by
      cases ub with
      | true => exact hub rfl r hr
      | false => exact hcur r hpc
  cases h with
  | skip _ _ _ ht => rw [ht]; rfl
  | dp a v _ _ hrd _ ht =>
    rw [ht]
    exact (phys_applyDp ..).trans (if_neg (hapart s hrd rfl rfl))
  | @load x v wb _ _ hrd hrn _ ht =>
    rw [ht]
    refine (phys_writeBase ..).trans ((if_neg (hapart _ hrn (by simp) (by simp))).trans ?_)
    exact (s.phys_setReg ..).trans (if_neg (hcur x.rd hrd))
  | store a v wb _ _ _ _ _ _ hrn _ ht =>
    rw [ht]
    refine (phys_writeBase ..).trans ((if_neg (hapart _ hrn (by simp) (by simp))).trans ?_)
    exact s.phys_congr (by simp) k
  | @ldm c before up user wb rn list words e hi hrn _ hlist _ ht =>
    rw [ht]
    refine (phys_writeBlockBase ..).trans ((if_neg (hapart _ (fun _ => hrn) (by simp) (by simp))).trans ?_)
    refine hloads _ list words fun hub r hr => ?_
    have huser : user = true := by simpa [usesUserBank, hlist] using hub
    exact husr _ _ _ _ _ _ r (huser ▸ hi) hlist hr
  | @ret c before up user wb rn list words e w _ _ hrn _ _ _ _ ht =>
    rw [ht]
    refine (phys_writeBlockBase ..).trans ((if_neg (hapart _ (fun _ => hrn) (by simp) (by simp))).trans ?_)
    exact hloads _ list words (by simp)
  | stm start words e _ hrn _ _ ht =>
    rw [ht]
    refine (phys_writeBlockBase ..).trans ((if_neg (hapart _ (fun _ => hrn) (by simp) (by simp))).trans ?_)
    exact s.phys_congr (by simp) k
  | ldc note wb _ _ hrn _ ht =>
    rw [ht]
    refine (phys_writeCpBase ..).trans ((if_neg (hapart _ hrn (by simp) (by simp))).trans ?_)
    exact s.phys_congr (by simp) k
  | stc note start words wb _ _ hrn _ _ ht =>
    rw [ht]
    refine (phys_writeCpBase ..).trans ((if_neg (hapart _ hrn (by simp) (by simp))).trans ?_)
    exact s.phys_congr (by simp) k

/-! ### The obligations -/

/-- The invariant, field by field. -/
theorem State.inv_iff (s : State) :
    s.inv = true ↔ Memory.wf s.mem = true ∧ Registers.wf s.regs = true ∧ cellsWf resetPsr s.spsr = true ∧
      s.pc.toNat % 4 = 0 ∧ isMode s.cfg s.cpsr.mode = true ∧ ∀ e ∈ s.spsr, isMode s.cfg e.2.mode = true := by
  simp only [State.inv, Bool.and_eq_true, decide_eq_true_eq, List.all_eq_true, and_assoc]

/-- Settles O52: each field of the invariant by what an effect does to it. -/
theorem stepKeepsStateWellFormed : Obligations.StepKeepsStateWellFormed := by
  intro s t hinv hstep
  obtain ⟨hmem, hregs, hspsr, hpc, hmode, hmodes⟩ := s.inv_iff.1 hinv
  obtain ⟨i, -, -, heff⟩ := step_effect hstep
  obtain ⟨hspsr_eq, hcfg_eq⟩ := heff.saved
  refine t.inv_iff.2 ⟨heff.memory.wf hmem, heff.regs_wf hregs, hspsr_eq ▸ hspsr, ?_, ?_, ?_⟩
  · rcases heff.pc with ⟨hadv, ht⟩ | ⟨halign, -⟩
    · rw [ht, toNat_pc_add_four hadv]
      omega
    · exact halign
  · rw [hcfg_eq]
    rcases heff.status with ht | ⟨-, -, ht⟩ | ⟨-, -, -, -, -, -, -, -, -, ht⟩
    · rw [ht]; exact hmode
    · rw [ht]; exact hmode
    · rw [ht]; exact isMode_spsrOf hmodes _
  · rw [hspsr_eq, hcfg_eq]
    exact hmodes

/-- Settles O55: a byte of a piece of the text is in the text, which no memory effect meets. -/
theorem programTextIsImmutable : Obligations.ProgramTextIsImmutable := by
  intro s t span a hspan hlo hhi hstep
  obtain ⟨i, -, -, heff⟩ := step_effect hstep
  exact heff.memory.byteAt_text ((byteInText_eq_true ..).2 ⟨span, hspan, hlo, hhi⟩)

/-- Settles O53: the reset state lists nothing. -/
theorem resetStateIsWellFormed : Obligations.ResetStateIsWellFormed := by
  unfold Obligations.ResetStateIsWellFormed
  decide

/-- Settles O54. -/
theorem stepKeepsSavedStatus : Obligations.StepKeepsSavedStatus := by
  intro s t hstep
  obtain ⟨i, hdec, -, heff⟩ := step_effect hstep
  exact ⟨heff.saved, heff.coprocessors.imp id fun ⟨note, hcp, hd, hl⟩ => ⟨i, note, hdec, hcp, hd, hl⟩⟩

/-- Settles O56. -/
theorem onlyLoadMultipleTransfersControl : Obligations.OnlyLoadMultipleTransfersControl := by
  intro s t hstep
  obtain ⟨i, hdec, -, heff⟩ := step_effect hstep
  rcases heff.pc with ⟨hadv, ht⟩ | ⟨-, c, before, up, user, wb, rn, list, rfl, hlist, hc, ht⟩
  · exact .inl ⟨ht, by rw [ht, toNat_pc_add_four hadv]⟩
  · exact .inr ⟨c, before, up, user, wb, rn, list, hdec, hlist, hc, ht⟩

/-- Settles O57. -/
theorem whatWritesTheStatusRegister : Obligations.WhatWritesTheStatusRegister := by
  intro s t hstep hne
  obtain ⟨i, hdec, -, heff⟩ := step_effect hstep
  exact ⟨i, hdec, heff.status.resolve_left hne⟩

/-- Settles O58. -/
theorem onlyStoresChangeMappedMemory : Obligations.OnlyStoresChangeMappedMemory := by
  intro s t a hstep hne
  obtain ⟨i, hdec, -, heff⟩ := step_effect hstep
  obtain ⟨htop, haccess, hi⟩ := heff.memory.changed hne
  exact ⟨htop, haccess, i, hdec, hi⟩

/-- Settles O59. -/
theorem otherBanksAreKept : Obligations.OtherBanksAreKept := by
  intro s t k hstep hne
  obtain ⟨i, hdec, -, heff⟩ := step_effect hstep
  refine (heff.changed_phys hne).imp id ?_
  rintro ⟨c, before, up, wb, rn, list, r, rfl, hlist, hr, hk⟩
  exact ⟨c, before, up, wb, rn, list, r, hdec, hlist, hr, hk⟩

end Sys2Proof.Machine
end

section
/-! PROOFS. The step before an instruction's effect (20_memory.md section 7, 40_conditional_execution.md): the fetch and
what stops it, the conditions, and an instruction whose condition fails. -/

namespace Sys2Proof.Machine

/-! ### The fetch -/

/-- Settles O7: `fetch` answers the decoded instruction, which `step` executes. -/
theorem stepRunsDecodedInstruction : Obligations.StepRunsDecodedInstruction := by
  intro s i hhalt halign hmap hdec
  have hfetch : fetch s = .ok i := (fetch_ok s i).2 ⟨hhalt, halign, hmap, hdec⟩
  simp [step, hfetch]

theorem fetch_halted {s : State} (h : halted s = true) : fetch s = .error (.refused .halted) := by
  simp [fetch, h]

theorem fetch_pcNotAligned {s : State} (hhalt : halted s = false) (h : s.pc.toNat % 4 ≠ 0) :
    fetch s = .error (.refused .pcNotAligned) := by
  simp [fetch, hhalt, h]

theorem fetch_unmapped {s : State} (hhalt : halted s = false) (halign : s.pc.toNat % 4 = 0)
    (h : mapped s.cfg .fetch s.pc.toNat 4 = false) : fetch s = .error (.fault (.unmapped s.pc 4)) := by
  simp [fetch, hhalt, halign, h, raiseFault]

theorem fetch_noInstruction {s : State} {e : DecodeError} (hhalt : halted s = false) (halign : s.pc.toNat % 4 = 0)
    (hmap : mapped s.cfg .fetch s.pc.toNat 4 = true) (h : decode (fetchedWord s) = .error e) :
    fetch s = .error (.refused (decodeRefusal e (fetchedWord s))) := by
  simp [fetch, hhalt, halign, hmap, h, refuse]

/-- Settles O8: the four stops of `fetch`, in its order. -/
theorem fetchStopsInOrder : Obligations.FetchStopsInOrder := by
  intro s
  refine ⟨fun h => ?_, fun hhalt => ⟨fun h => ?_, fun halign => ⟨fun h => ?_, fun hmap e h => ?_⟩⟩⟩
  · simp [step, fetch_halted h]
  · simp [step, fetch_pcNotAligned hhalt h]
  · simp [step, fetch_unmapped hhalt halign h]
  · simp [step, fetch_noInstruction hhalt halign hmap h, fetchedWord]

/-- A store changes memory alone. -/
theorem State.store_eq (s : State) (a : Word) (n : Nat) (v : Word) :
    s.store a n v = { s with mem := (s.store a n v).mem } := by
  have hext : ∀ t : State, t.regs = s.regs → t.pc = s.pc → t.cpsr = s.cpsr → t.spsr = s.spsr → t.cpLog = s.cpLog →
      t.draws = s.draws → t.cfg = s.cfg → t = { s with mem := t.mem } := by
    rintro ⟨⟩ rfl rfl rfl rfl rfl rfl rfl
    rfl
  exact hext _ (by simp) (by simp) (by simp) (by simp) (by simp) (by simp) (by simp)

theorem ofNat_toNat_mod (w : Word) : BitVec.ofNat 32 (w.toNat % 2 ^ 32) = w := by
  rw [Nat.mod_eq_of_lt w.isLt, BitVec.ofNat_toNat, BitVec.setWidth_eq]

/-- Settles O9: the word stored at the pc is loaded back from there. -/
theorem storedWordIsFetched : Obligations.StoredWordIsFetched := by
  intro s w
  have hstate : s.withFetchWord 32 w.toNat = s.store s.pc 4 w := by
    rw [State.withFetchWord, storeAtPc, ofNat_toNat_mod]
  rw [hstate]
  refine ⟨?_, fun j hj => s.byteAt_store_outside _ _ _ _ hj, s.store_eq _ _ _⟩
  rw [fetchedWord, State.store_pc, State.load_store_self]
  exact ofNat_toNat_mod w

/-! ### The conditions -/

/-- Settles O10: the table by its definition, the negations along the even codes, each of which has one successor. -/
theorem conditionTable : Obligations.ConditionTable := by
  intro p
  refine ⟨by simp [conditionPassed], by simp [conditionPassed], by simp [conditionPassed], by simp [conditionPassed],
    by simp [conditionPassed], by simp [conditionPassed], by simp [conditionPassed], by simp [conditionPassed],
    by simp [conditionPassed], by simp [conditionPassed], by simp [conditionPassed], by simp [conditionPassed],
    by simp [conditionPassed], by simp [conditionPassed], rfl, fun c d heven hlow hnext => ?_⟩
  have hd : condOfCode (BitVec.ofNat 4 (c.code.toNat + 1)) = some d := by rw [← hnext]; simp
  cases c
  case eq | cs | mi | vs => cases hd; simp [conditionPassed]
  case hi => cases hd; simp [conditionPassed]
  case ge => cases hd; simp [conditionPassed, bne]
  case gt => cases hd; simp [conditionPassed, bne]
  case al => exact absurd hlow (by decide)
  all_goals exact absurd heven (by decide)

/-- An instruction that the checks on its word let pass and whose condition fails only advances the pc (R131, D7). -/
theorem exec_of_failed {i : Instr} {c : Cond} {s : State} (hi : i.condition? = some c) (hadm : i.AdmittedBy s.cfg)
    (hc : conditionPassed c s.cpsr = false) : exec i s = finish (advance s) := by
  cases kind i with
  | dp h =>
    obtain rfl : _ = c := Option.some.inj (h.condition.symm.trans hi)
    rw [h.exec_eq, execDp, execute_failed hc]
  | ls h =>
    obtain rfl : _ = c := Option.some.inj (h.condition.symm.trans hi)
    rw [h.exec_eq, execLs, checkP0W0_of_admitted hadm h.indexing, execute_failed hc]
  | ldm =>
    cases hi
    exact execute_failed hc _
  | stm =>
    cases hi
    exact execute_failed hc _
  | cp h =>
    obtain rfl : _ = c := Option.some.inj (h.condition.symm.trans hi)
    have hpresent := (checkPresent_ok s.cfg _ (encode i) ()).2 (hadm.2 _ h.coprocessor)
    rw [h.exec_eq, execCp, hpresent, execute_failed hc]
  | reserved h =>
    rw [h] at hi
    cases hi

theorem advance_of_not {s : State} (h : ¬ s.CanAdvance) : advance s = .error (.refused .pcPassesTop) := if_neg h

/-- Settles O11: by `exec_of_failed` the outcome is that of the advance. -/
theorem failedConditionOnlyAdvances : Obligations.FailedConditionOnlyAdvances := by
  intro s i c hi hadm hc
  rw [exec_of_failed hi hadm hc]
  exact ⟨fun h => by rw [advance_of_lt h, finish_ok], fun h => by rw [advance_of_not h, finish_refused]⟩

/-! ### Operands -/

/-- Settles O16: `readReg` by its two cases. -/
theorem operandReadOfRegisters : Obligations.OperandReadOfRegisters := by
  intro s i
  exact ⟨fun h => readReg_of_ne h, fun k h => readReg_pc h, fun h => by simp [readReg, h, refuse]⟩

/-- A rotation right as a number: the high part moved down, the low part moved up (R13). -/
theorem toNat_rotateRight (x : Word) (n : Nat) :
    (x.rotateRight n).toNat = x.toNat / 2 ^ (n % 32) + x.toNat % 2 ^ (n % 32) * 2 ^ (32 - n % 32) := by
  have hm : n % 32 < 32 := Nat.mod_lt _ (by decide)
  rw [BitVec.toNat_rotateRight]
  generalize n % 32 = m at hm
  have hpow : 2 ^ 32 = 2 ^ m * 2 ^ (32 - m) := by rw [← Nat.pow_add]; congr 1; omega
  have hhigh : x.toNat / 2 ^ m < 2 ^ (32 - m) := by
    apply Nat.div_lt_of_lt_mul
    rw [← hpow]
    exact x.isLt
  rw [Nat.shiftRight_eq_div_pow, Nat.shiftLeft_eq, hpow, Nat.mul_mod_mul_right, Nat.or_comm, ← Nat.shiftLeft_eq,
    ← Nat.shiftLeft_add_eq_or_of_lt hhigh, Nat.shiftLeft_eq, Nat.add_comm]

/-- Settles O12. -/
theorem immediateOperandValue : Obligations.ImmediateOperandValue := by
  intro s r i
  have hr : 2 * r.toNat % 32 = 2 * r.toNat := Nat.mod_eq_of_lt (by have := r.isLt; omega)
  have hi : (i.setWidth 32).toNat = i.toNat := by
    rw [BitVec.toNat_setWidth]
    exact Nat.mod_eq_of_lt (by have := i.isLt; omega)
  refine ⟨_, _, rfl, ?_, fun h => by simp [h], fun h => by simp [h]⟩
  rw [toNat_rotateRight, hr, hi]

theorem toNat_lsl (x : Word) (n : Nat) : (x <<< n).toNat = x.toNat * 2 ^ n % 2 ^ 32 := by
  rw [BitVec.toNat_shiftLeft, Nat.shiftLeft_eq]

theorem toNat_lsr (x : Word) (n : Nat) : (x >>> n).toNat = x.toNat / 2 ^ n := by
  rw [BitVec.toNat_ushiftRight, Nat.shiftRight_eq_div_pow]

theorem toInt_asr (x : Word) (n : Nat) : (x.sshiftRight n).toInt = x.toInt / 2 ^ n := by
  rw [BitVec.toInt_sshiftRight, Int.shiftRight_eq_div_pow]
  norm_cast

/-- ASR by 32 fills the word with the sign (R145). -/
theorem asr_32 (x : Word) : x.sshiftRight 32 = if x.getLsbD 31 then 0xFFFFFFFF#32 else 0#32 := by
  apply BitVec.eq_of_getLsbD_eq
  intro i hi
  have hones : (0xFFFFFFFF#32).getLsbD i = true := by
    change (BitVec.allOnes 32).getLsbD i = true
    rw [BitVec.getLsbD_allOnes]
    exact decide_eq_true hi
  rw [BitVec.getLsbD_sshiftRight, BitVec.msb_eq_getLsbD_last, if_neg (by omega), Nat.add_one_sub_one]
  cases x.getLsbD 31
  · simp
  · rw [if_pos rfl, hones]
    simp [hi]

/-- Settles O13: the shifter on a read register, shift by shift. -/
theorem shiftByImmediateValue : Obligations.ShiftByImmediateValue := by
  intro s rm x amount hx
  have heval : ∀ ty, evalOperand2 s (.shiftImm amount ty rm) = .ok (shiftByImm x ty amount s.cpsr.c) := fun ty => by
    simp [evalOperand2, hx]
  refine ⟨⟨_, _, heval .lsl, toNat_lsl .., fun h => by simp [h], fun h => by simp [h]⟩,
    ⟨_, _, heval .lsr, fun h => ?_, fun h => ?_⟩, ⟨_, _, heval .asr, fun h => ?_, fun h => ?_⟩, fun h => ?_⟩
  · rw [rightAmount, if_pos h]
    exact ⟨BitVec.eq_of_toNat_eq (by rw [toNat_lsr]; exact Nat.div_eq_of_lt x.isLt), rfl⟩
  · rw [rightAmount, if_neg h]
    exact ⟨toNat_lsr .., rfl⟩
  · rw [rightAmount, if_pos h]
    exact ⟨asr_32 x, rfl⟩
  · rw [rightAmount, if_neg h]
    exact ⟨toInt_asr .., rfl⟩
  · have hror : shiftByImm x .ror amount s.cpsr.c = (x.rotateRight amount.toNat, x.getLsbD (amount.toNat - 1)) :=
      if_neg h
    refine ⟨_, _, (heval .ror).trans (congrArg _ hror), ?_, rfl⟩
    rw [toNat_rotateRight, Nat.mod_eq_of_lt amount.isLt]

/-- Settles O14: the shifter on two read registers, shift by shift. -/
theorem shiftByRegisterValue : Obligations.ShiftByRegisterValue := by
  intro s rm rs x y n hx hy hn
  have heval : ∀ ty, evalOperand2 s (.shiftReg rs ty rm) = .ok (shiftByReg x ty n s.cpsr.c) := fun ty => by
    simp [evalOperand2, hx, hy, hn]
  refine ⟨fun h ty => (heval ty).trans (congrArg _ (if_pos h)), fun h => ?_⟩
  simp only [shiftByReg, if_neg h] at heval
  refine ⟨⟨_, _, heval .lsl, toNat_lsl .., fun hle => if_pos hle, fun hlt => if_neg (by omega)⟩,
    ⟨_, _, heval .lsr, toNat_lsr .., fun hle => if_pos hle, fun hlt => if_neg (by omega)⟩,
    ⟨_, _, heval .asr, toInt_asr .., fun hle => if_pos hle, fun hlt => if_neg (by omega)⟩,
    ⟨_, _, heval .ror, ?_, fun h0 => if_pos h0, fun h0 => if_neg h0⟩⟩
  have hlt : x.toNat % 2 ^ (n % 32) * 2 ^ (32 - n % 32) < 2 ^ 32 := by
    have hm : n % 32 < 32 := Nat.mod_lt _ (by decide)
    have hpow : 2 ^ 32 = 2 ^ (n % 32) * 2 ^ (32 - n % 32) := by rw [← Nat.pow_add]; congr 1; omega
    rw [hpow]
    exact Nat.mul_lt_mul_of_pos_right (Nat.mod_lt _ (Nat.two_pow_pos _)) (Nat.two_pow_pos _)
  rw [toNat_rotateRight, Nat.mod_eq_of_lt hlt]

end Sys2Proof.Machine
end

section
/-! PROOFS. Data processing (41_data_processing_operand2.md sections 1, 3 and 4): the result and the flags of each
operation, what the instructions leave unchanged, and R15 as the destination. -/

namespace Sys2Proof.Machine

/-! ### Carry and overflow (R156, R157) -/

/-- The sign bit of a word, and the number it makes of it. -/
theorem sign_cases (x : Word) :
    (x.getLsbD 31 = true ∧ 2 ^ 31 ≤ x.toNat ∧ x.toInt = (x.toNat : Int) - 2 ^ 32) ∨
    (x.getLsbD 31 = false ∧ x.toNat < 2 ^ 31 ∧ x.toInt = (x.toNat : Int)) := by
  have hsign : x.getLsbD 31 = x.msb := (BitVec.msb_eq_getLsbD_last x).symm
  rw [hsign, BitVec.toInt_eq_msb_cond, BitVec.msb_eq_decide]
  by_cases h : 2 ^ 31 ≤ x.toNat
  · have hd : decide (2 ^ (32 - 1) ≤ x.toNat) = true := decide_eq_true h
    exact .inl ⟨hd, h, if_pos hd⟩
  · have hd : decide (2 ^ (32 - 1) ≤ x.toNat) = false := decide_eq_false h
    exact .inr ⟨hd, Nat.lt_of_not_le h, if_neg (by rw [hd]; exact Bool.false_ne_true)⟩

/-- The signed overflow of a sum with a carry in, by the signs. -/
theorem sumOverflow_eq {a b r : Word} {c : Nat} (hc : c ≤ 1) (hr : r.toNat = (a.toNat + b.toNat + c) % 2 ^ 32) :
    decide (r.toInt ≠ a.toInt + b.toInt + (c : Int)) = sumOverflow a b r := by
  have ha := a.isLt
  have hb := b.isLt
  unfold sumOverflow
  rcases sign_cases a with ⟨sa, la, ia⟩ | ⟨sa, la, ia⟩ <;> rcases sign_cases b with ⟨sb, lb, ib⟩ | ⟨sb, lb, ib⟩ <;>
    rcases sign_cases r with ⟨sr, lr, ir⟩ | ⟨sr, lr, ir⟩ <;> rw [sa, sb, sr] <;> simp <;> omega

/-- The signed overflow of a difference with a borrow in, by the signs. -/
theorem differenceOverflow_eq {a b r : Word} {c : Nat} (hc : c ≤ 1)
    (hr : r.toNat = (a.toNat + 2 ^ 33 - b.toNat - c) % 2 ^ 32) :
    decide (r.toInt ≠ a.toInt - b.toInt - (c : Int)) = differenceOverflow a b r := by
  have ha := a.isLt
  have hb := b.isLt
  unfold differenceOverflow
  rcases sign_cases a with ⟨sa, la, ia⟩ | ⟨sa, la, ia⟩ <;> rcases sign_cases b with ⟨sb, lb, ib⟩ | ⟨sb, lb, ib⟩ <;>
    rcases sign_cases r with ⟨sr, lr, ir⟩ | ⟨sr, lr, ir⟩ <;> rw [sa, sb, sr] <;> simp <;> omega

/-- A sum with a carry in: the word, the carry out of the unsigned sum, the overflow by the signs. -/
theorem addCarry_eq (a b : Word) (cin : Bool) :
    addCarry a b cin =
      ⟨a + b + BitVec.ofNat 32 cin.toNat, decide (2 ^ 32 ≤ a.toNat + b.toNat + cin.toNat),
        sumOverflow a b (a + b + BitVec.ofNat 32 cin.toNat)⟩ := by
  have hc : cin.toNat ≤ 1 := by cases cin <;> decide
  have hword : BitVec.ofNat 32 (a.toNat + b.toNat + cin.toNat) = a + b + BitVec.ofNat 32 cin.toNat := by
    apply BitVec.eq_of_toNat_eq
    simp only [BitVec.toNat_add, BitVec.toNat_ofNat]
    omega
  unfold addCarry
  rw [hword]
  exact congrArg (Computed.mk _ _) (sumOverflow_eq hc (by rw [← hword, BitVec.toNat_ofNat]))

/-- A difference with a borrow in: the word, NOT borrow of the unsigned difference, the overflow by the signs. -/
theorem subBorrow_eq (a b : Word) (bin : Bool) :
    subBorrow a b bin =
      ⟨a - b - BitVec.ofNat 32 bin.toNat, decide (b.toNat + bin.toNat ≤ a.toNat),
        differenceOverflow a b (a - b - BitVec.ofNat 32 bin.toNat)⟩ := by
  have hc : bin.toNat ≤ 1 := by cases bin <;> decide
  have hr : (a - b - BitVec.ofNat 32 bin.toNat).toNat = (a.toNat + 2 ^ 33 - b.toNat - bin.toNat) % 2 ^ 32 := by
    have hb := b.isLt
    simp only [BitVec.toNat_sub, BitVec.toNat_ofNat]
    omega
  exact congrArg (Computed.mk _ _) (differenceOverflow_eq hc hr)

/-! ### Results -/

/-- A data-processing instruction's effect is what the tables say of its computation (R140). -/
theorem applyDp_eq_afterDp (op : DpOp) (sf : Bool) (rd : Reg) (a : Word) (v : Shifted) (s : State) :
    { applyDp op sf rd a v s with pc := s.pc + 4#32 } =
      afterDp s (if writesRd op then some rd else none) sf (compute op a v s.cpsr).result (compute op a v s.cpsr).carry
        (compute op a v s.cpsr).overflow := by
  unfold applyDp afterDp
  cases writesRd op <;> cases sf <;> rfl

/-- An operation that writes Rd, and that its restrictions allow, completes with the result, the carry and the overflow
of its computation. -/
theorem execDp_writes {op : DpOp} {c : Cond} {sf : Bool} {rn rd : Reg} {op2 : Operand2} {s : State} {a : Word}
    {v : Shifted} {result : Word} {carry overflow : Bool} (hop : writesRd op = true)
    (hc : conditionPassed c s.cpsr = true) (hr15 : r15InRegisterShift op2 rn rd = false) (hrd : rd ≠ Reg.pc)
    (ha : firstOperand op s rn = .ok a) (hv : evalOperand2 s op2 = .ok v) (hpc : s.CanAdvance)
    (hr : compute op a v s.cpsr = ⟨result, carry, overflow⟩) :
    execDp op c sf rn rd op2 s = .next (afterDp s (some rd) sf result carry overflow) := by
  rw [execDp_completes hc hr15 (by simp [hrd]) ha hv hpc, applyDp_eq_afterDp, hr, if_pos hop]

/-- A compare that its restriction admits completes with the flags of its computation. -/
theorem execDp_compares {op : DpOp} {c : Cond} {sf : Bool} {rn rd : Reg} {op2 : Operand2} {s : State} {a : Word}
    {v : Shifted} {result : Word} {carry overflow : Bool} (hop : writesRd op = false)
    (hc : conditionPassed c s.cpsr = true) (hr15 : r15InRegisterShift op2 rn rd = false)
    (ha : firstOperand op s rn = .ok a) (hv : evalOperand2 s op2 = .ok v) (hpc : s.CanAdvance)
    (hr : compute op a v s.cpsr = ⟨result, carry, overflow⟩) :
    execDp op c sf rn rd op2 s = .next (afterDp s none sf result carry overflow) := by
  rw [execDp_completes hc hr15 (by simp [hop]) ha hv hpc, applyDp_eq_afterDp, hr, hop]
  rfl

/-- A shift by a register with no R15 among its registers is admitted (R153). -/
theorem r15InRegisterShift_of_ne {rs rm rn rd : Reg} (ty : ShiftType) (hrn : rn ≠ Reg.pc) (hrd : rd ≠ Reg.pc)
    (hrs : rs ≠ Reg.pc) (hrm : rm ≠ Reg.pc) : r15InRegisterShift (.shiftReg rs ty rm) rn rd = false := by
  simp [r15InRegisterShift, hrn, hrd, hrs, hrm]

/-- Settles O17: each of the eight rows by `execDp_writes`; the logical computations are those of the table. -/
theorem logicalResults : Obligations.LogicalResults := by
  intro s c sf rd v co hc hrd hpc
  refine ⟨fun r i hv => execDp_writes (op := .mov) rfl hc rfl hrd rfl hv hpc rfl,
    fun a ty rm hv => execDp_writes (op := .mov) rfl hc rfl hrd rfl hv hpc rfl,
    fun rs ty rm hrs hrm hv => execDp_writes (op := .mov) rfl hc (r15InRegisterShift_of_ne ty (by decide) hrd hrs hrm)
      hrd rfl hv hpc rfl,
    fun sbz op2 hr15 hv => execDp_writes (op := .mvn) rfl hc hr15 hrd rfl hv hpc rfl,
    fun rn op2 a hr15 ha hv => ⟨execDp_writes (op := .and) rfl hc hr15 hrd ha hv hpc rfl,
      execDp_writes (op := .eor) rfl hc hr15 hrd ha hv hpc rfl,
      execDp_writes (op := .orr) rfl hc hr15 hrd ha hv hpc rfl,
      execDp_writes (op := .bic) rfl hc hr15 hrd ha hv hpc rfl⟩⟩

/-- A sum without a carry in. -/
theorem addCarry_false (a b : Word) :
    addCarry a b false = ⟨a + b, decide (2 ^ 32 ≤ a.toNat + b.toNat), sumOverflow a b (a + b)⟩ := by
  simp [addCarry_eq]

/-- A difference without a borrow in. -/
theorem subBorrow_false (a b : Word) :
    subBorrow a b false = ⟨a - b, decide (b.toNat ≤ a.toNat), differenceOverflow a b (a - b)⟩ := by
  simp [subBorrow_eq]

/-- Settles O18. -/
theorem addResults : Obligations.AddResults := by
  intro s c sf rn rd a v co hc hrd ha hpc
  exact ⟨fun r i hv => execDp_writes (op := .add) rfl hc rfl hrd ha hv hpc (addCarry_false a v),
    fun k ty rm hv => execDp_writes (op := .add) rfl hc rfl hrd ha hv hpc (addCarry_false a v),
    fun rs ty rm hrn hrs hrm hv => execDp_writes (op := .add) rfl hc (r15InRegisterShift_of_ne ty hrn hrd hrs hrm)
      hrd ha hv hpc (addCarry_false a v)⟩

/-- Settles O19: the carry in of ADC is C, the borrow in of SBC and RSC its negation. -/
theorem arithmeticResults : Obligations.ArithmeticResults := by
  intro s c sf rn rd op2 a v co hc hr15 hrd ha hv hpc one borrow
  have hone : one = BitVec.ofNat 32 s.cpsr.c.toNat := by unfold one; cases s.cpsr.c <;> rfl
  have hborrow : borrow = BitVec.ofNat 32 (!s.cpsr.c).toNat := by unfold borrow; cases s.cpsr.c <;> rfl
  have hone_nat : one.toNat = s.cpsr.c.toNat := by unfold one; cases s.cpsr.c <;> rfl
  have hborrow_nat : borrow.toNat = (!s.cpsr.c).toNat := by unfold borrow; cases s.cpsr.c <;> rfl
  rw [hone_nat, hborrow_nat, hone, hborrow]
  exact ⟨execDp_writes (op := .adc) rfl hc hr15 hrd ha hv hpc (addCarry_eq a v _),
    execDp_writes (op := .sub) rfl hc hr15 hrd ha hv hpc (subBorrow_false a v),
    execDp_writes (op := .sbc) rfl hc hr15 hrd ha hv hpc (subBorrow_eq a v _),
    execDp_writes (op := .rsb) rfl hc hr15 hrd ha hv hpc (subBorrow_false v a),
    execDp_writes (op := .rsc) rfl hc hr15 hrd ha hv hpc (subBorrow_eq v a _)⟩

/-- Settles O20. -/
theorem compareResults : Obligations.CompareResults := by
  intro s c rn a v co hc ha hpc
  exact ⟨fun r i hv => execDp_compares (op := .cmp) rfl hc rfl ha hv hpc (subBorrow_false a v),
    fun k ty rm hv => execDp_compares (op := .cmp) rfl hc rfl ha hv hpc (subBorrow_false a v),
    fun rs ty rm hrn hrs hrm hv => execDp_compares (op := .cmp) rfl hc
      (r15InRegisterShift_of_ne ty hrn (by decide) hrs hrm) ha hv hpc (subBorrow_false a v)⟩

/-- Settles O21. -/
theorem testResults : Obligations.TestResults := by
  intro s c rn sbz op2 a v co hc hr15 ha hv hpc
  exact ⟨execDp_compares (op := .cmn) rfl hc hr15 ha hv hpc (addCarry_false a v),
    execDp_compares (op := .tst) rfl hc hr15 ha hv hpc rfl, execDp_compares (op := .teq) rfl hc hr15 ha hv hpc rfl⟩

/-! ### What data processing leaves unchanged -/

/-- Settles O22: the effect of the operation writes Rd, where it has one, and the flags, where S = 1. -/
theorem dataProcessingFrame : Obligations.DataProcessingFrame := by
  intro s t i dest sf hi h
  obtain ⟨c, op, rn, rd, op2, hrun⟩ := dp_runs hi
  rw [hrun.exec_eq, execDp_next] at h
  rcases h with ⟨-, -, -, a, -, v, -, hadv⟩ | ⟨-, hadv⟩
  · obtain ⟨-, rfl⟩ := advance_of_pc (applyDp_pc ..) hadv
    refine ⟨fun k hk => ?_, fun hsf => ?_, ?_, fun j => s.byteAt_congr (applyDp_mem ..) j,
      ⟨applyDp_spsr .., applyDp_cfg ..⟩, ⟨applyDp_cpLog .., applyDp_draws ..⟩⟩
    · refine (phys_applyDp ..).trans (if_neg ?_)
      rintro ⟨hw, rfl⟩
      exact hk ⟨rd, by rw [hrun.dest_eq, if_pos hw], rfl⟩
    · exact (applyDp_cpsr ..).trans (by rw [hsf]; rfl)
    · exact (congrArg Psr.mode (applyDp_cpsr ..)).trans (by cases sf <;> rfl)
  · obtain ⟨-, rfl⟩ := advance_of_pc rfl hadv
    exact ⟨fun _ _ => rfl, fun _ => rfl, rfl, fun _ => rfl, ⟨rfl, rfl⟩, ⟨rfl, rfl⟩⟩

/-! ### R15 as the destination (R154) -/

/-- The operations that write no Rd are those of the opcodes 1000 to 1011 (R158). -/
theorem writesRd_dpOpOfCode (b : BitVec 4) :
    writesRd (dpOpOfCode b) = true ↔ ¬ (b.getLsbD 3 = true ∧ b.getLsbD 2 = false) := by
  revert b
  decide

theorem decode_otherForm {w : Word} {c : Cond} (h : isOtherForm w) (hc : condOfCode (field w 28 4) = some c) :
    decode w = decodeDp c w := by
  rcases (isOtherForm_iff w).1 h with hcls | ⟨hcls, h4⟩
  · simp [decode, hc, hcls]
  · simp [decode, hc, hcls, h4]

/-- The second operand of another form is not shifted by a register. -/
theorem r15InRegisterShift_otherForm {w : Word} (h : isOtherForm w) (rn rd : Reg) :
    r15InRegisterShift (decodeOperand2 w) rn rd = false := by
  unfold decodeOperand2
  rcases (isOtherForm_iff w).1 h with hcls | ⟨-, h4⟩
  · have h25 := (dpClass_of_class hcls (.inr rfl)).2
    rw [h25]
    rfl
  · cases bit w 25 <;> simp [h4, r15InRegisterShift]

theorem otherForm_runs {c : Cond} {w : Word} {i : Instr} (hw : isOtherForm w) (hd : decode w = .ok i)
    (hi : i.condition? = some c) : RunsAsDp c w (dpOpOfCode (field w 21 4)) i := by
  obtain ⟨c', hcode⟩ := condOfCode_of_decode hd hi
  have hrun := decodeDp_runs (decode_otherForm hw hcode ▸ hd)
  obtain rfl : c' = c := by simpa [hrun.1] using hi
  exact hrun

/-- R15 as a written destination is refused before any register is read (R154, D13). -/
theorem execDp_r15Destination {op : DpOp} {c : Cond} {sf : Bool} {rn rd : Reg} {op2 : Operand2} {s : State}
    (hc : conditionPassed c s.cpsr = true) (hr15 : r15InRegisterShift op2 rn rd = false) (hop : writesRd op = true)
    (hrd : rd = Reg.pc) : execDp op c sf rn rd op2 s = .refused .r15Destination := by
  unfold execDp checkDpRegs
  rw [execute_passed hc, hr15, hop, hrd]
  rfl

/-- Settles O24: the word runs as `execDp` of its own opcode and Rd field, whose check refuses R15. -/
theorem destinationR15IsRefused : Obligations.DestinationR15IsRefused := by
  intro s w i c hw hd hi hc hrd hop
  obtain ⟨-, hexec⟩ := otherForm_runs hw hd hi
  have h24 : bit w 24 = (field w 21 4).getLsbD 3 := by simp [bit, field]
  have h23 : bit w 23 = (field w 21 4).getLsbD 2 := by simp [bit, field]
  have hwrites : writesRd (dpOpOfCode (field w 21 4)) = true := by
    rw [writesRd_dpOpOfCode, ← h24, ← h23, ← masked_bit_iff _ (by decide), ← masked_bit_iff _ (by decide),
      ← masked_or_iff (by decide) (by decide) (by decide)]
    exact hop
  rw [hexec]
  exact execDp_r15Destination hc (r15InRegisterShift_otherForm hw _ _) hwrites hrd

end Sys2Proof.Machine
end

section
/-! PROOFS. The single Load/Store (42_load_store_word_byte.md, 43_load_store_halfword_signed_byte.md): the bytes of a
value, the completed transfers, their frames, and what stops them. -/

namespace Sys2Proof.Machine

/-! ### The bytes of loads and stores (R62) -/

/-- Digit k of a split value. -/
theorem splitLittle_getD (n v k : Nat) (h : k < n) : (splitLittle n v).getD k 0#8 = BitVec.ofNat 8 (v / 256 ^ k) := by
  induction n generalizing v k with
  | zero => omega
  | succ n ih =>
    cases k with
    | zero => simp [splitLittle]
    | succ k =>
      rw [splitLittle, List.getD_cons_succ, ih _ _ (by omega), Nat.div_div_eq_div_mul, Nat.pow_succ']

/-- Byte k of a stored value, under each byte order. -/
theorem byteAt_store (s : State) (a : Word) (n : Nat) (v : Word) (k : Nat) (h : k < n) :
    ((s.store a n v).byteAt (a.toNat + k)).toNat =
      v.toNat / 2 ^ (8 * (match s.cfg.endian with | .little => k | .big => n - 1 - k)) % 256 := by
  have hin : a.toNat ≤ a.toNat + k ∧ a.toNat + k < a.toNat + (splitBytes s.cfg.endian n v.toNat).length := by simp [h]
  have hdigit : ∀ j, j < n → ((splitLittle n v.toNat).getD j 0#8).toNat = v.toNat / 2 ^ (8 * j) % 256 := fun j hj => by
    rw [splitLittle_getD n _ j hj, BitVec.toNat_ofNat, show 256 = 2 ^ 8 from rfl, ← Nat.pow_mul]
  rw [State.store, State.byteAt_setBytes, if_pos hin, Nat.add_sub_cancel_left]
  cases s.cfg.endian with
  | little => exact hdigit k h
  | big =>
    rw [splitBytes, List.getD_eq_getElem?_getD, List.getElem?_reverse (by simpa using h), splitLittle_length,
      ← List.getD_eq_getElem?_getD]
    exact hdigit _ (by omega)

theorem joinLittle_lt (bs : List Byte) : joinLittle bs < 256 ^ bs.length := by
  induction bs with
  | nil => simp [joinLittle]
  | cons b bs ih =>
    have hb := b.isLt
    rw [joinLittle, List.length_cons, Nat.pow_succ']
    omega

theorem joinLittle_append (bs : List Byte) (b : Byte) :
    joinLittle (bs ++ [b]) = joinLittle bs + b.toNat * 256 ^ bs.length := by
  induction bs with
  | nil => simp [joinLittle]
  | cons b' bs ih =>
    rw [List.cons_append, joinLittle, ih, joinLittle, List.length_cons, Nat.pow_succ', Nat.mul_add, Nat.add_assoc,
      Nat.mul_left_comm]

theorem two_pow_mul_eight (k : Nat) : 2 ^ (8 * k) = 256 ^ k := by rw [Nat.pow_mul]

/-- The bytes joined with the first as the lowest digit. -/
theorem joinLittle_eq_sum (bs : List Byte) :
    joinLittle bs = ((List.range bs.length).map fun k => (bs.getD k 0#8).toNat * 2 ^ (8 * k)).sum := by
  induction bs with
  | nil => rfl
  | cons b bs ih =>
    rw [joinLittle, ih, List.length_cons, List.range_succ_eq_map, List.map_cons, List.sum_cons, List.map_map,
      ← List.sum_map_mul_left]
    simp only [Function.comp_def, List.getD_cons_succ, List.getD_cons_zero, two_pow_mul_eight, Nat.pow_succ',
      Nat.mul_zero, Nat.pow_zero, Nat.mul_one, Nat.mul_left_comm]

/-- The bytes joined with the first as the highest digit. -/
theorem joinLittle_reverse_eq_sum (bs : List Byte) :
    joinLittle bs.reverse =
      ((List.range bs.length).map fun k => (bs.getD k 0#8).toNat * 2 ^ (8 * (bs.length - 1 - k))).sum := by
  induction bs with
  | nil => rfl
  | cons b bs ih =>
    rw [List.reverse_cons, joinLittle_append, ih, List.length_cons, List.range_succ_eq_map, List.map_cons,
      List.sum_cons, List.map_map, Nat.add_comm, List.length_reverse]
    simp only [Function.comp_def, List.getD_cons_succ, List.getD_cons_zero, two_pow_mul_eight, Nat.add_sub_cancel,
      Nat.sub_zero, Nat.sub_sub, Nat.add_comm 1]

theorem bytesAt_getD (s : State) (a n k : Nat) (h : k < n) : (s.bytesAt a n).getD k 0#8 = s.byteAt (a + k) := by
  induction n generalizing a k with
  | zero => omega
  | succ n ih =>
    cases k with
    | zero => rfl
    | succ k => rw [State.bytesAt, List.getD_cons_succ, ih _ _ (by omega), Nat.add_right_comm, Nat.add_assoc]

/-- A load of up to four bytes is the number that its bytes make. -/
theorem toNat_load (s : State) (a : Word) (n : Nat) (h : n ≤ 4) :
    (s.load a n).toNat = joinBytes s.cfg.endian (s.bytesAt a.toNat n) := by
  have hlt : ∀ bs : List Byte, bs.length = n → joinLittle bs < 2 ^ 32 := fun bs hbs =>
    Nat.lt_of_lt_of_le (joinLittle_lt bs) (by rw [hbs]; exact Nat.pow_le_pow_right (n := 256) (j := 4) (by decide) h)
  rw [State.load, BitVec.toNat_ofNat]
  refine Nat.mod_eq_of_lt ?_
  unfold joinBytes
  split
  · exact hlt _ (by simp)
  · exact hlt _ (by simp)

/-- Settles O25: a load of up to four bytes is the sum of its bytes, and a store's bytes are `byteAt_store`. -/
theorem bytesOfLoadsAndStores : Obligations.BytesOfLoadsAndStores := by
  intro s a n hn
  have hload := toNat_load s a n (by omega)
  have hbytes : ∀ w : Nat → Nat, ((List.range n).map fun k => ((s.bytesAt a.toNat n).getD k 0#8).toNat * w k) =
      (List.range n).map fun k => (s.byteAt (a.toNat + k)).toNat * w k := fun w =>
    List.map_congr_left fun k hk => by rw [bytesAt_getD s _ n k (List.mem_range.1 hk)]
  refine ⟨fun he => ⟨?_, fun v k hk => ?_⟩, fun he => ⟨?_, fun v k hk => ?_⟩⟩
  · rw [hload, he, joinBytes, joinLittle_eq_sum, State.bytesAt_length, hbytes]
  · rw [byteAt_store s a n v k hk, he]
  · rw [hload, he, joinBytes, joinLittle_reverse_eq_sum, State.bytesAt_length, hbytes]
  · rw [byteAt_store s a n v k hk, he]

end Sys2Proof.Machine
end

section
/-! PROOFS. How a single Load/Store runs (42_load_store_word_byte.md R184 to R193, 43 R223, R230 to R232): the order of
its checks, its completed form and its frame. -/

namespace Sys2Proof.Machine

/-! ### The indexing forms (R184) -/

theorem writesBack_eq (ix : Indexing) : writesBack ix = basesWritten ix := by cases ix <;> rfl

theorem accessAddress_eq (ix : Indexing) (up : Bool) (base offset : Word) :
    accessAddress ix up base offset = addressOf ix up base offset := by cases ix <;> rfl

theorem checkP0W0_ok {cfg : Config} {ix : Indexing} (h : ix = .unlisted → cfg.p0w0 = .postindexWriteback) :
    checkP0W0 cfg ix = .ok () := by
  rw [checkP0W0, refuseIf_ok]
  by_cases hu : ix = .unlisted
  · simp [h hu]
  · simp [hu]

/-! ### The order of the checks -/

/-- A single transfer that its class's check admits runs its register checks, then the access. -/
theorem execLs_checked {op : LsOp} {chk : Except Stop Unit} {c : Cond} {ix : Indexing} {up : Bool} {rn rd : Reg}
    {off : Offset} {s : State} (hp : checkP0W0 s.cfg ix = .ok ()) (hc : conditionPassed c s.cpsr = true)
    (hchk : chk = .ok ()) :
    execLs op chk c ix up rn rd off s = finish (do
      checkTransferRegs op ix rn rd
      let base ← readReg s rn
      let offset ← evalOffset s off
      let t ← transfer op ix rn rd (accessAddress ix up base offset) (indexed up base offset) s
      advance t) := by
  rw [execLs, hp, execute_passed hc, hchk, ok_bind]

theorem checkTransferRegs_writtenBase {op : LsOp} {ix : Indexing} {rn rd : Reg} (hwb : basesWritten ix = true)
    (h : rd = rn) : checkTransferRegs op ix rn rd = .error (.fault (.unpredictable .destinationIsWrittenBase)) := by
  simp [checkTransferRegs, writesBack_eq, hwb, h]

theorem checkTransferRegs_pc {op : LsOp} {ix : Indexing} {rn rd : Reg} (h : ¬ (basesWritten ix = true ∧ rd = rn))
    (hrd : rd = Reg.pc) :
    checkTransferRegs op ix rn rd = .error (.refused (if isLoad op then .r15Loaded else .r15Stored)) := by
  have hfirst : (writesBack ix && rd == rn) = false := by simpa [writesBack_eq] using h
  rw [checkTransferRegs, hfirst, hrd]
  rfl

theorem checkTransferRegs_pcWriteback {op : LsOp} {ix : Indexing} {rn rd : Reg} (hrd : rd ≠ Reg.pc)
    (hwb : basesWritten ix = true) (hrn : rn = Reg.pc) :
    checkTransferRegs op ix rn rd = .error (.refused .r15Writeback) := by
  have hne : (rd == Reg.pc) = false := beq_false_of_ne hrd
  simp [checkTransferRegs, writesBack_eq, hwb, hrn, hne]

theorem checkTransferRegs_ok {op : LsOp} {ix : Indexing} {rn rd : Reg} (hrd : rd ≠ Reg.pc)
    (hwb : basesWritten ix = true → rd ≠ rn ∧ rn ≠ Reg.pc) : checkTransferRegs op ix rn rd = .ok () := by
  have hne : (rd == Reg.pc) = false := beq_false_of_ne hrd
  cases h : basesWritten ix with
  | true =>
    simp [checkTransferRegs, writesBack_eq, h, hne, beq_false_of_ne (hwb h).1, beq_false_of_ne (hwb h).2]
  | false => simp [checkTransferRegs, writesBack_eq, h, hne]

/-- A single transfer with no restricted register is its access, at the address of R184, and the advance. -/
theorem execLs_admitted {op : LsOp} {chk : Except Stop Unit} {c : Cond} {ix : Indexing} {up : Bool} {rn rd : Reg}
    {off : Offset} {s : State} {base offset : Word} (hp : ix = .unlisted → s.cfg.p0w0 = .postindexWriteback)
    (hc : conditionPassed c s.cpsr = true) (hchk : chk = .ok ()) (hrd : rd ≠ Reg.pc)
    (hwb : basesWritten ix = true → rd ≠ rn ∧ rn ≠ Reg.pc) (hbase : readReg s rn = .ok base)
    (hoff : evalOffset s off = .ok offset) :
    execLs op chk c ix up rn rd off s =
      finish (transfer op ix rn rd (addressOf ix up base offset) (indexedBase up base offset) s >>= advance) := by
  rw [execLs_checked (checkP0W0_ok hp) hc hchk, checkTransferRegs_ok hrd hwb, ok_bind, hbase, ok_bind, hoff, ok_bind,
    accessAddress_eq]
  rfl

/-! ### Completed transfers -/

/-- The access and commit of an admitted load. -/
theorem execLs_load {op : LsOp} {chk : Except Stop Unit} {c : Cond} {ix : Indexing} {up : Bool} {rn rd : Reg}
    {off : Offset} {s : State} {base offset : Word} (hop : isLoad op = true)
    (hp : ix = .unlisted → s.cfg.p0w0 = .postindexWriteback) (hc : conditionPassed c s.cpsr = true)
    (hchk : chk = .ok ()) (hrd : rd ≠ Reg.pc) (hwb : basesWritten ix = true → rd ≠ rn ∧ rn ≠ Reg.pc)
    (hbase : readReg s rn = .ok base) (hoff : evalOffset s off = .ok offset)
    (halign : (addressOf ix up base offset).toNat % accessSize op = 0)
    (hmap : mapped s.cfg .read (addressOf ix up base offset).toNat (accessSize op) = true) (hpc : s.CanAdvance) :
    execLs op chk c ix up rn rd off s =
      .next (afterLoad s ix up rn rd base offset
        (extendLoaded op (s.load (addressOf ix up base offset) (accessSize op)))) := by
  rw [execLs_admitted hp hc hchk hrd hwb hbase hoff, (transfer_load_ok s _ hop ..).2 ⟨halign, hmap, rfl⟩, ok_bind,
    advance_of_lt (by simpa [State.CanAdvance, addressSpace] using hpc), finish_ok, writeBase, writesBack_eq, afterLoad]
  cases basesWritten ix <;> rfl

/-- The access and commit of an admitted store. -/
theorem execLs_store {op : LsOp} {chk : Except Stop Unit} {c : Cond} {ix : Indexing} {up : Bool} {rn rd : Reg}
    {off : Offset} {s : State} {base offset : Word} (hop : isLoad op = false)
    (hp : ix = .unlisted → s.cfg.p0w0 = .postindexWriteback) (hc : conditionPassed c s.cpsr = true)
    (hchk : chk = .ok ()) (hrd : rd ≠ Reg.pc) (hwb : basesWritten ix = true → rd ≠ rn ∧ rn ≠ Reg.pc)
    (hbase : readReg s rn = .ok base) (hoff : evalOffset s off = .ok offset)
    (halign : (addressOf ix up base offset).toNat % accessSize op = 0)
    (hmap : mapped s.cfg .write (addressOf ix up base offset).toNat (accessSize op) = true)
    (htext : meetsText s.cfg (addressOf ix up base offset).toNat (accessSize op) = false) (hpc : s.CanAdvance) :
    execLs op chk c ix up rn rd off s =
      .next (afterStore s ix up rn base offset (accessSize op) (s.reg rd)) := by
  rw [execLs_admitted hp hc hchk hrd hwb hbase hoff, (transfer_store_ok s _ hop ..).2 ⟨halign, hmap, htext, rfl⟩,
    ok_bind, advance_of_lt (by simpa [State.CanAdvance, addressSpace] using hpc), finish_ok, writeBase, writesBack_eq,
    afterStore]
  cases basesWritten ix <;> simp

/-! ### Operands of the classes -/

/-- The offset of a scaled register is the shifter's value, whose carry-out is discarded (R183). -/
theorem evalOffset_scaled {s : State} {k : BitVec 5} {ty : ShiftType} {rm : Reg} {offset : Word} {co : Bool}
    (h : evalOperand2 s (.shiftImm k ty rm) = .ok (offset, co)) : evalOffset s (.scaled k ty rm) = .ok offset := by
  simp only [evalOperand2, bind_ok, pure_eq_ok, Except.ok.injEq] at h
  obtain ⟨v, hv, hshift⟩ := h
  simp [evalOffset, hv, hshift]

/-- A plain register offset (R222). -/
theorem evalOffset_plain {s : State} {rm : Reg} (h : rm ≠ Reg.pc) :
    evalOffset s (.scaled 0#5 .lsl rm) = .ok (s.reg rm) := by
  simp [evalOffset, readReg_of_ne h, shiftByImm]

theorem checkWordByteIndex_scaled {rn rm : Reg} (k : BitVec 5) (ty : ShiftType) (hpc : rm ≠ Reg.pc) (hrn : rm ≠ rn) :
    checkWordByteIndex (.scaled k ty rm) rn = .ok () := by
  simp [checkWordByteIndex, beq_false_of_ne hpc, beq_false_of_ne hrn.symm]

theorem checkHalfwordIndex_imm {rn : Reg} (v : Word) (h : rn ≠ Reg.pc) : checkHalfwordIndex (.imm v) rn = .ok () := by
  simp [checkHalfwordIndex, beq_false_of_ne h]

theorem checkHalfwordIndex_scaled {rn rm : Reg} (k : BitVec 5) (ty : ShiftType) (hbase : rn ≠ Reg.pc)
    (hpc : rm ≠ Reg.pc) (hrn : rm ≠ rn) : checkHalfwordIndex (.scaled k ty rm) rn = .ok () := by
  simp [checkHalfwordIndex, beq_false_of_ne hbase, beq_false_of_ne hpc, beq_false_of_ne hrn.symm]

/-- The two parts of a halfword offset as a number (R108, R221). -/
theorem append_setWidth (h l : BitVec 4) : (h ++ l).setWidth 32 = BitVec.ofNat 32 (16 * h.toNat + l.toNat) := by
  apply BitVec.eq_of_toNat_eq
  have hh := h.isLt
  have hl := l.isLt
  have happ : (h ++ l).toNat = 16 * h.toNat + l.toNat := by
    rw [BitVec.toNat_append, ← Nat.shiftLeft_add_eq_or_of_lt hl, Nat.shiftLeft_eq]
    omega
  rw [BitVec.toNat_setWidth, happ, BitVec.toNat_ofNat]

/-- A loaded byte with zeros above it. -/
theorem load_byte (s : State) (a : Word) : s.load a 1 = (s.byteAt a.toNat).setWidth 32 := by
  apply BitVec.eq_of_toNat_eq
  have hb := (s.byteAt a.toNat).isLt
  rw [toNat_load s a 1 (by decide), BitVec.toNat_setWidth, Nat.mod_eq_of_lt (by omega)]
  cases s.cfg.endian <;> simp [joinBytes, State.bytesAt, joinLittle]

/-- A loaded byte, sign-extended (R65, R225). -/
theorem signExtend_load_byte (s : State) (a : Word) :
    signExtendBytes 1 (s.load a 1) = (s.byteAt a.toNat).signExtend 32 := by
  rw [signExtendBytes, load_byte]
  congr 1
  simp

/-! ### The obligations on completed transfers -/

/-- Settles O26. -/
theorem loadWordAndByteComplete : Obligations.LoadWordAndByteComplete := by
  intro s c ix up rn rd base hc hp hrd hwb hbase hpc
  refine ⟨fun o a ha => ?_, fun k ty rm offset a co hrm hne hop2 ha => ?_⟩
  · subst ha
    refine ⟨fun halign hmap => ?_, fun hmap => ?_⟩
    · exact execLs_load (op := .ldr) rfl hp hc rfl hrd hwb hbase rfl halign hmap hpc
    · rw [← load_byte]
      exact execLs_load (op := .ldrb) rfl hp hc rfl hrd hwb hbase rfl (Nat.mod_one _) hmap hpc
  · subst ha
    have hchk := checkWordByteIndex_scaled k ty hrm hne
    have hoff := evalOffset_scaled hop2
    refine ⟨fun halign hmap => ?_, fun hmap => ?_⟩
    · exact execLs_load (op := .ldr) rfl hp hc hchk hrd hwb hbase hoff halign hmap hpc
    · rw [← load_byte]
      exact execLs_load (op := .ldrb) rfl hp hc hchk hrd hwb hbase hoff (Nat.mod_one _) hmap hpc

/-- Settles O27. -/
theorem storeWordAndByteComplete : Obligations.StoreWordAndByteComplete := by
  intro s c ix up rn rd base hc hp hrd hwb hbase hpc
  refine ⟨fun o a ha => ?_, fun k ty rm offset a co hrm hne hop2 ha => ?_⟩
  · subst ha
    exact ⟨fun halign hmap htext =>
        execLs_store (op := .str) rfl hp hc rfl hrd hwb hbase rfl halign hmap htext hpc,
      fun hmap htext =>
        execLs_store (op := .strb) rfl hp hc rfl hrd hwb hbase rfl (Nat.mod_one _) hmap htext hpc⟩
  · subst ha
    have hchk := checkWordByteIndex_scaled k ty hrm hne
    have hoff := evalOffset_scaled hop2
    exact ⟨fun halign hmap htext =>
        execLs_store (op := .str) rfl hp hc hchk hrd hwb hbase hoff halign hmap htext hpc,
      fun hmap htext =>
        execLs_store (op := .strb) rfl hp hc hchk hrd hwb hbase hoff (Nat.mod_one _) hmap htext hpc⟩

/-- Settles O28. -/
theorem loadHalfwordAndSignedComplete : Obligations.LoadHalfwordAndSignedComplete := by
  intro s c ix up rn rd hc hp hrd hrn hne hpc
  have hwb : basesWritten ix = true → rd ≠ rn ∧ rn ≠ Reg.pc := fun h => ⟨hne h, hrn⟩
  have hbase := readReg_of_ne (s := s) hrn
  refine ⟨fun h l offset a hoffset ha => ?_, fun rm a hrm hrmn ha => ?_⟩
  · rw [← append_setWidth] at hoffset
    subst hoffset ha
    have hchk := checkHalfwordIndex_imm ((h ++ l).setWidth 32) hrn
    refine ⟨fun halign hmap => ⟨?_, ?_⟩, fun hmap => ?_⟩
    · exact execLs_load (op := .ldrh) rfl hp hc hchk hrd hwb hbase rfl halign hmap hpc
    · exact execLs_load (op := .ldrsh) rfl hp hc hchk hrd hwb hbase rfl halign hmap hpc
    · rw [← signExtend_load_byte]
      exact execLs_load (op := .ldrsb) rfl hp hc hchk hrd hwb hbase rfl (Nat.mod_one _) hmap hpc
  · subst ha
    have hchk := checkHalfwordIndex_scaled 0#5 .lsl hrn hrm hrmn
    have hoff := evalOffset_plain (s := s) hrm
    refine ⟨fun halign hmap => ⟨?_, ?_⟩, fun hmap => ?_⟩
    · exact execLs_load (op := .ldrh) rfl hp hc hchk hrd hwb hbase hoff halign hmap hpc
    · exact execLs_load (op := .ldrsh) rfl hp hc hchk hrd hwb hbase hoff halign hmap hpc
    · rw [← signExtend_load_byte]
      exact execLs_load (op := .ldrsb) rfl hp hc hchk hrd hwb hbase hoff (Nat.mod_one _) hmap hpc

/-- Settles O29. -/
theorem storeHalfwordCompletes : Obligations.StoreHalfwordCompletes := by
  intro s c ix up rn rd hc hp hrd hrn hne hpc
  have hwb : basesWritten ix = true → rd ≠ rn ∧ rn ≠ Reg.pc := fun h => ⟨hne h, hrn⟩
  have hbase := readReg_of_ne (s := s) hrn
  refine ⟨fun h l offset a hoffset ha halign hmap htext => ?_, fun rm a hrm hrmn ha halign hmap htext => ?_⟩
  · rw [← append_setWidth] at hoffset
    subst hoffset ha
    exact execLs_store (op := .strh) rfl hp hc (checkHalfwordIndex_imm _ hrn) hrd hwb hbase rfl halign hmap htext hpc
  · subst ha
    exact execLs_store (op := .strh) rfl hp hc (checkHalfwordIndex_scaled 0#5 .lsl hrn hrm hrmn) hrd hwb hbase
      (evalOffset_plain hrm) halign hmap htext hpc

end Sys2Proof.Machine
end

section
/-! PROOFS. The single Load/Store: what it leaves unchanged, what stops it, and a load of what was stored. -/

namespace Sys2Proof.Machine

variable {i : Instr} {x : SingleTransfer} {c : Cond} {op : LsOp} {chk : Except Stop Unit} {s t : State}

/-! ### Frames -/

/-- What a single load that answers a next state has done. -/
theorem RunsLs.load_next (hrun : RunsLs i x c op chk) (hx : x.load = true) (h : exec i s = .next t) :
    t = { s with pc := s.pc + 4#32 } ∨
      ∃ v wb, t = { writeBase x.ix x.rn wb (s.setReg x.rd v) with pc := s.pc + 4#32 } := by
  rw [hrun.exec_eq, execLs_next] at h
  rcases h with ⟨-, ⟨-, -, -, -, -, base, -, offset, -, u, hu, hadv⟩ | ⟨-, hadv⟩⟩
  · obtain ⟨-, -, rfl⟩ := (transfer_load_ok s u (hrun.load_eq.trans hx) ..).1 hu
    exact .inr ⟨_, _, (advance_of_pc (s := s) (by simp) hadv).2⟩
  · exact .inl (advance_of_pc rfl hadv).2

/-- What a single store that answers a next state has done, with the address computed. -/
theorem RunsLs.store_next (hrun : RunsLs i x c op chk) (hx : x.load = false) (h : exec i s = .next t) :
    (conditionPassed c s.cpsr = false ∧ t = { s with pc := s.pc + 4#32 }) ∨
    (conditionPassed c s.cpsr = true ∧ ∃ base offset, readReg s x.rn = .ok base ∧ evalOffset s x.offset = .ok offset ∧
      (addressOf x.ix x.up base offset).toNat % x.bytes = 0 ∧
      t = { writeBase x.ix x.rn (indexedBase x.up base offset)
        (s.store (addressOf x.ix x.up base offset) x.bytes (s.reg x.rd)) with pc := s.pc + 4#32 }) := by
  rw [hrun.exec_eq, execLs_next] at h
  rcases h with ⟨-, ⟨hc, -, -, -, -, base, hbase, offset, hoff, u, hu, hadv⟩ | ⟨hc, hadv⟩⟩
  · obtain ⟨halign, -, -, rfl⟩ := (transfer_store_ok s u (hrun.load_eq.trans hx) ..).1 hu
    obtain ⟨-, ht⟩ := advance_of_pc (s := s) (by simp) hadv
    rw [hrun.size_eq, accessAddress_eq] at halign ht
    exact .inr ⟨hc, base, offset, hbase, hoff, halign, ht⟩
  · exact .inl ⟨hc, (advance_of_pc rfl hadv).2⟩

/-- Settles O30. -/
theorem singleLoadFrame : Obligations.SingleLoadFrame := by
  intro s t i x hi hx h
  obtain ⟨c, op, chk, hrun⟩ := ls_runs hi
  rcases hrun.load_next hx h with rfl | ⟨v, wb, rfl⟩
  · exact ⟨fun k _ => rfl, rfl, fun a => rfl, ⟨rfl, rfl⟩, rfl, rfl⟩
  · refine ⟨fun k hk => ?_, by simp, State.byteAt_congr s (by simp), ⟨by simp, by simp⟩, by simp, by simp⟩
    obtain ⟨hrd, hrn⟩ := not_or.1 hk
    rw [← writesBack_eq] at hrn
    exact (phys_writeBase ..).trans ((if_neg hrn).trans ((s.phys_setReg ..).trans (if_neg hrd)))

/-- Settles O31. -/
theorem singleStoreFrame : Obligations.SingleStoreFrame := by
  intro s t i x c hi hx hcond h
  obtain ⟨c', op, chk, hrun⟩ := ls_runs hi
  obtain rfl : c' = c := Option.some.inj (hrun.condition.symm.trans hcond)
  rcases hrun.store_next hx h with ⟨hc, rfl⟩ | ⟨hc, base, offset, hbase, hoff, -, rfl⟩
  · exact ⟨fun k _ => rfl, rfl, ⟨rfl, rfl⟩, ⟨rfl, rfl⟩, fun _ _ _ _ _ _ _ => rfl, fun _ _ => rfl⟩
  · refine ⟨fun k hk => ?_, by simp, ⟨by simp, by simp⟩, ⟨by simp, by simp⟩,
      fun _ base' offset' hbase' hoff' j hj => ?_, fun hno => absurd hc (by simp [hno])⟩
    · rw [← writesBack_eq] at hk
      refine (phys_writeBase ..).trans ?_
      rw [State.store_cfg, State.store_cpsr]
      exact (if_neg hk).trans (s.phys_congr (by simp) k)
    · obtain rfl : base = base' := Except.ok.inj (hbase.symm.trans hbase')
      obtain rfl : offset = offset' := Except.ok.inj (hoff.symm.trans hoff')
      rw [State.byteAt_congr (s.store (addressOf x.ix x.up base offset) x.bytes (s.reg x.rd)) (by simp)]
      exact s.byteAt_store_outside _ _ _ _ hj

/-! ### Restricted registers (R192, R193, R232) -/

/-- The class's check on Rn and Rm admits a transfer whose index is allowed and whose base is R15 only in the word and
byte class. -/
theorem RunsLs.chk_ok (hrun : RunsLs i x c op chk) (hidx : x.IndexAllowed)
    (hbase : x.rn = Reg.pc → encode i &&& 0x0C000000#32 = 0x04000000#32) : chk = .ok () := by
  rcases hrun.chk_eq with rfl | ⟨rfl, hclass⟩
  · cases hoff : x.offset with
    | imm v => rfl
    | scaled k ty rm => exact checkWordByteIndex_scaled k ty (hidx k ty rm hoff).1 (hidx k ty rm hoff).2
  · have hrn : x.rn ≠ Reg.pc := fun hpc => absurd (hclass.symm.trans (hbase hpc)) (by decide)
    cases hoff : x.offset with
    | imm v => exact checkHalfwordIndex_imm v hrn
    | scaled k ty rm => exact checkHalfwordIndex_scaled k ty hrn (hidx k ty rm hoff).1 (hidx k ty rm hoff).2

/-- A single transfer stops where the check on Rd and the written base does. -/
theorem RunsLs.stops_at_regs {e : Stop} (hrun : RunsLs i x c op chk) (hadm : i.AdmittedBy s.cfg)
    (hc : conditionPassed c s.cpsr = true) (hchk : chk = .ok ())
    (h : checkTransferRegs op x.ix x.rn x.rd = .error e) : exec i s = finish (.error e) := by
  rw [hrun.exec_eq, execLs_checked (checkP0W0_of_admitted hadm hrun.indexing) hc hchk, h]
  rfl

/-- Settles O35: the three stops of the check on Rd and the base. -/
theorem transferRegisterRestrictions : Obligations.TransferRegisterRestrictions := by
  intro s i x c hi hcond hadm hc hidx hbase
  obtain ⟨c', op, chk, hrun⟩ := ls_runs hi
  obtain rfl : c' = c := Option.some.inj (hrun.condition.symm.trans hcond)
  have hstop := fun e => hrun.stops_at_regs (e := e) hadm hc (hrun.chk_ok hidx hbase)
  refine ⟨fun hwb hrd => ?_, fun hne hrd => ?_, fun hrd hwb hrn => ?_⟩
  · exact hstop _ (checkTransferRegs_writtenBase hwb hrd)
  · rw [← hrun.load_eq]
    exact hstop _ (checkTransferRegs_pc hne hrd)
  · exact hstop _ (checkTransferRegs_pcWriteback hrd hwb hrn)

/-! ### The unlisted indexing form (R185) -/

/-- An instruction with an indexing form is a single Load/Store of that form. -/
theorem single_of_indexing {ix : Indexing} (h : i.indexing? = some ix) : ∃ x, i.single? = some x ∧ x.ix = ix := by
  cases i <;> cases h <;> exact ⟨_, rfl, rfl⟩

theorem checkP0W0_refused {cfg : Config} (h : cfg.p0w0 = .refuse) :
    checkP0W0 cfg .unlisted = .error (.refused .p0w0) := by
  simp [checkP0W0, h]

/-- The unlisted form, where the parameter admits it, is the post-indexed one. -/
theorem execLs_unlisted {up : Bool} {rn rd : Reg} {off : Offset} (h : s.cfg.p0w0 = .postindexWriteback) :
    execLs op chk c .unlisted up rn rd off s = execLs op chk c .postIndexed up rn rd off s := by
  have hun : checkP0W0 s.cfg .unlisted = .ok () := checkP0W0_ok fun _ => h
  have hpost : checkP0W0 s.cfg .postIndexed = .ok () := checkP0W0_ok (by simp)
  rw [execLs, execLs, hun, hpost]
  rfl

/-- Settles O36: every form runs by `execLs`. -/
theorem unlistedIndexingFollowsParameter : Obligations.UnlistedIndexingFollowsParameter := by
  intro s c up rn rd rm o k ty h l
  refine ⟨fun i hi hp => ?_, fun hp => ?_⟩
  · obtain ⟨x, hx, hix⟩ := single_of_indexing hi
    obtain ⟨c, op, chk, hrun⟩ := ls_runs hx
    rw [hrun.exec_eq, execLs, hix, checkP0W0_refused hp]
    rfl
  · exact ⟨execLs_unlisted (op := .ldr) hp, execLs_unlisted (op := .ldr) hp, execLs_unlisted (op := .str) hp,
      execLs_unlisted (op := .str) hp, execLs_unlisted (op := .ldrb) hp, execLs_unlisted (op := .ldrb) hp,
      execLs_unlisted (op := .strb) hp, execLs_unlisted (op := .strb) hp, execLs_unlisted (op := .ldrh) hp,
      execLs_unlisted (op := .ldrh) hp, execLs_unlisted (op := .ldrsb) hp, execLs_unlisted (op := .ldrsb) hp,
      execLs_unlisted (op := .ldrsh) hp, execLs_unlisted (op := .ldrsh) hp, execLs_unlisted (op := .strh) hp,
      execLs_unlisted (op := .strh) hp⟩

/-! ### Addresses that stop a transfer (R62, R64, R69, R76) -/

theorem checkAccess_misaligned {k : AccessKind} {a : Word} {n : Nat} (h : a.toNat % n ≠ 0) :
    checkAccess s k a n = .error (.fault (.misaligned a n)) := by
  rw [checkAccess, if_pos h]
  rfl

theorem checkAccess_unmapped {k : AccessKind} {a : Word} {n : Nat} (halign : a.toNat % n = 0)
    (hmap : mapped s.cfg k a.toNat n = false) : checkAccess s k a n = .error (.fault (.unmapped a n)) := by
  rw [checkAccess, if_neg (not_not.2 halign), hmap]
  rfl

/-- The kind of access of a transfer. -/
def LsOp.access (op : LsOp) : AccessKind := if isLoad op then .read else .write

/-- A transfer stops where the check on its access does. -/
theorem transfer_error {ix : Indexing} {rn rd : Reg} {a wb : Word} {e : Stop}
    (h : checkAccess s op.access a (accessSize op) = .error e) : transfer op ix rn rd a wb s = .error e := by
  unfold LsOp.access at h
  cases hop : isLoad op with
  | true =>
    rw [hop, if_pos rfl] at h
    simp [transfer, hop, memRead, h]
  | false =>
    rw [hop, if_neg Bool.false_ne_true] at h
    simp [transfer, hop, memWrite, h]

/-- A store that meets the program text is refused. -/
theorem transfer_text {ix : Indexing} {rn rd : Reg} {a wb : Word} (hop : isLoad op = false)
    (halign : a.toNat % accessSize op = 0) (hmap : mapped s.cfg .write a.toNat (accessSize op) = true)
    (htext : meetsText s.cfg a.toNat (accessSize op) = true) :
    transfer op ix rn rd a wb s = .error (.refused .storeToText) := by
  have hok : checkAccess s .write a (accessSize op) = .ok () := (checkAccess_ok ..).2 ⟨halign, hmap⟩
  simp [transfer, hop, memWrite, hok, htext]

/-- Settles O37: with no restricted register the outcome is that of the access. -/
theorem singleTransferAddressStops : Obligations.SingleTransferAddressStops := by
  intro s i x c base offset a hi hcond hadm hc hidx hpcbase hrd hwb hbase hoff ha
  obtain ⟨c', op, chk, hrun⟩ := ls_runs hi
  obtain rfl : c' = c := Option.some.inj (hrun.condition.symm.trans hcond)
  have hexec : exec i s = finish (transfer op x.ix x.rn x.rd a (indexedBase x.up base offset) s >>= advance) := by
    rw [hrun.exec_eq, ha]
    exact execLs_admitted (fun hu => hadm.1 (hu ▸ hrun.indexing)) hc (hrun.chk_ok hidx hpcbase) hrd hwb hbase hoff
  rw [hexec, ← hrun.size_eq, ← hrun.load_eq]
  refine ⟨fun hmis => ?_, fun halign => ⟨fun hmap => ?_, fun hop hmap htext => ?_⟩⟩
  · rw [transfer_error (checkAccess_misaligned hmis)]
    rfl
  · rw [transfer_error (checkAccess_unmapped halign hmap)]
    rfl
  · rw [transfer_text hop halign hmap htext]
    rfl

/-! ### A load of what was stored -/

/-- The word read back is the word stored. -/
theorem load_store_word (s : State) (a v : Word) : (s.store a 4 v).load a 4 = v := by
  rw [State.load_store_self]
  exact ofNat_toNat_mod v

/-- Settles O38: the load of the same address from the state after the store, whose base is the one before. -/
theorem storeThenLoadReturnsValue : Obligations.StoreThenLoadReturnsValue := by
  intro s t c d up rn rd rd' o hc hd hrn hrd' hexec hmap hadv
  obtain ⟨c', op, chk, hrun⟩ := ls_runs (i := .strImm c .offset up rn rd o) rfl
  obtain rfl : c = c' := Option.some.inj hrun.condition
  obtain ⟨hno, -⟩ | ⟨-, base, offset, hbase, hoff, halign, ht⟩ := hrun.store_next rfl hexec
  · rw [hc] at hno
    cases hno
  obtain rfl : s.reg rn = base := Except.ok.inj ((readReg_of_ne hrn).symm.trans hbase)
  obtain rfl : o.setWidth 32 = offset := Except.ok.inj hoff
  replace ht : t = { s.store (addressOf .offset up (s.reg rn) (o.setWidth 32)) 4 (s.reg rd) with
    pc := s.pc + 4#32 } := ht
  have hcfg : t.cfg = s.cfg := by rw [ht]; simp
  have hcpsr : t.cpsr = s.cpsr := by rw [ht]; simp
  have hregs : t.regs = s.regs := by rw [ht]; simp
  have hreg : t.reg rn = s.reg rn := by rw [State.reg, State.reg, hcfg, hcpsr, State.phys_congr s hregs]
  have hload : t.load (addressOf .offset up (s.reg rn) (o.setWidth 32)) 4 = s.reg rd := by
    rw [State.load_congr (s := s.store _ 4 (s.reg rd)) (by rw [ht]) (by rw [ht]), load_store_word]
  refine ⟨_, execLs_load (op := .ldr) rfl (by simp) (hcpsr ▸ hd) rfl hrd' (fun h => by cases h)
    (hreg ▸ readReg_of_ne hrn) rfl halign (hcfg ▸ hmap) hadv, ?_, fun a => rfl⟩
  rw [← hload]
  exact t.reg_setReg_self ..

end Sys2Proof.Machine
end

section
/-! PROOFS. Blocks of words and lists of registers (20_memory.md R66 to R73, 44_load_store_multiple.md R261, R262): the
address table, the rank of a register in a list, words stored and read back, and what stops a block. -/

namespace Sys2Proof.Machine

/-! ### The rank of a register in a list (R262) -/

/-- The registers below Ri, Ri, and the registers above it. -/
theorem allRegs_split (i : Reg) :
    allRegs = (List.range i.toNat).map (BitVec.ofNat 4) ++ i :: allRegs.drop (i.toNat + 1) ∧
      ∀ j ∈ allRegs.drop (i.toNat + 1), i.toNat < j.toNat := by
  revert i
  decide

/-- A listed register stands in its list at its rank, below the registers of higher numbers. -/
theorem regsOf_split {list : BitVec 16} {i : Reg} (hi : inList list i = true) :
    ∃ l l', regsOf list = l ++ i :: l' ∧ l.length = rankIn list i.toNat ∧ ∀ j ∈ l', i.toNat < j.toNat := by
  obtain ⟨hsplit, habove⟩ := allRegs_split i
  refine ⟨((List.range i.toNat).map (BitVec.ofNat 4)).filter (inList list),
    (allRegs.drop (i.toNat + 1)).filter (inList list), ?_, ?_, fun j hj => habove j (List.mem_of_mem_filter hj)⟩
  · rw [regsOf, hsplit, List.filter_append, List.filter_cons_of_pos hi, ← hsplit]
  · rw [List.filter_map, List.length_map, rankIn]
    congr 1
    refine List.filter_congr fun k hk => ?_
    have hk' := List.mem_range.1 hk
    have hi' := i.isLt
    simp [inList, Nat.mod_eq_of_lt (show k < 16 by omega)]

theorem rankIn_lt {list : BitVec 16} {i : Reg} (hi : inList list i = true) : rankIn list i.toNat < countOf list := by
  obtain ⟨l, l', hregs, hlen, -⟩ := regsOf_split hi
  rw [countOf, hregs, List.length_append, List.length_cons, hlen]
  omega

/-- A list other than 0 names a register. -/
theorem countOf_pos {list : BitVec 16} (h : list ≠ 0#16) : 1 ≤ countOf list := by
  by_contra hzero
  refine h (BitVec.eq_of_getLsbD_eq fun i hi => ?_)
  have hempty : regsOf list = [] := List.eq_nil_of_length_eq_zero (by unfold countOf at hzero; omega)
  have hnot : inList list (BitVec.ofNat 4 i) ≠ true := fun hin => by
    have hmem := (mem_regsOf ..).2 hin
    rw [hempty] at hmem
    cases hmem
  simpa [inList, Nat.mod_eq_of_lt hi] using hnot

/-! ### The address table (R261) -/

theorem wordAddr_last {m : Nat} (h : 1 ≤ m) (start : Word) :
    wordAddr start (m - 1) = start + 4#32 * BitVec.ofNat 32 m - 4#32 := by
  apply BitVec.eq_of_toNat_eq
  simp only [wordAddr, BitVec.toNat_add, BitVec.toNat_sub, BitVec.toNat_mul, BitVec.toNat_ofNat]
  omega

theorem ofNat_four_mul (m : Nat) : BitVec.ofNat 32 (4 * m) = 4#32 * BitVec.ofNat 32 m := by
  apply BitVec.eq_of_toNat_eq
  simp only [BitVec.toNat_mul, BitVec.toNat_ofNat]
  omega

/-- Settles O39: the rows of the table, with the last word at the start plus 4 n less 4. -/
theorem blockAddressTable : Obligations.BlockAddressTable := by
  rintro s rn list n rfl hlist
  have hpos := countOf_pos hlist
  have hlast := wordAddr_last hpos
  rw [countOf_eq_rankIn] at hlast
  simp only [lsmStart, hlast, countOf_eq_rankIn, blockStart, blockEnd, ofNat_four_mul, true_and]
  exact ⟨by ring, by ring, by ring, rfl, rfl⟩

/-! ### Words stored and read back (R66, R67) -/

theorem bytesAt_congr_bytes {s t : State} {a n : Nat} (h : ∀ j, a ≤ j → j < a + n → t.byteAt j = s.byteAt j) :
    t.bytesAt a n = s.bytesAt a n := by
  induction n generalizing a with
  | zero => rfl
  | succ n ih =>
    rw [State.bytesAt, State.bytesAt, h a (by omega) (by omega), ih fun j hlo hhi => h j (by omega) (by omega)]

/-- A load depends only on its bytes and the byte order. -/
theorem load_congr_bytes {s t : State} {a : Word} {n : Nat} (hcfg : t.cfg = s.cfg)
    (h : ∀ j, a.toNat ≤ j → j < a.toNat + n → t.byteAt j = s.byteAt j) : t.load a n = s.load a n := by
  rw [State.load, State.load, hcfg, bytesAt_congr_bytes h]

theorem wordAddr_zero (start : Word) : wordAddr start 0 = start := by simp [wordAddr]

theorem wordAddr_succ (start : Word) (j : Nat) : wordAddr start (j + 1) = wordAddr (start + 4#32) j := by
  apply BitVec.eq_of_toNat_eq
  simp only [wordAddr, BitVec.toNat_add, BitVec.toNat_ofNat]
  omega

/-- Where a block of at least two words stays below the top, its second word is 4 bytes on. -/
theorem toNat_add_four {a : Word} {n : Nat} (htop : a.toNat + 4 * (n + 2) ≤ addressSpace) :
    (a + 4#32).toNat = a.toNat + 4 := by
  unfold addressSpace at htop
  rw [BitVec.toNat_add, BitVec.toNat_ofNat]
  omega

/-- The words of a stored block keep the bytes of the word before it. -/
theorem load_storeWords_before (s : State) (a : Word) (vs : List Word)
    (htop : a.toNat + 4 * (vs.length + 1) ≤ addressSpace) : (s.storeWords (a + 4#32) vs).load a 4 = s.load a 4 := by
  cases vs with
  | nil => rfl
  | cons v vs =>
    have hnext := toNat_add_four (n := vs.length) htop
    rw [List.length_cons] at htop
    refine load_congr_bytes (by simp) fun j hlo hhi => ?_
    exact s.byteAt_storeWords_outside _ _ _ (by rw [hnext, List.length_cons]; omega) (.inl (by omega))

/-- Word j of a stored block, read back. -/
theorem load_storeWords (s : State) (a : Word) (vs : List Word) (j : Nat) (hj : j < vs.length)
    (htop : a.toNat + 4 * vs.length ≤ addressSpace) : (s.storeWords a vs).load (wordAddr a j) 4 = vs.getD j 0#32 := by
  induction vs generalizing s a j with
  | nil => simp at hj
  | cons v vs ih =>
    rw [State.storeWords]
    cases j with
    | zero => rw [wordAddr_zero, load_storeWords_before _ _ _ htop, load_store_word, List.getD_cons_zero]
    | succ j =>
      have hj' : j < vs.length := by simpa using hj
      obtain ⟨m, hm⟩ : ∃ m, vs.length = m + 1 := ⟨vs.length - 1, by omega⟩
      rw [List.length_cons, hm] at htop
      have hnext := toNat_add_four htop
      rw [wordAddr_succ, ih _ _ _ hj' (by rw [hnext]; omega), List.getD_cons_succ]

/-- The words of a block, by their addresses. -/
theorem loadWords_eq_map (s : State) (a : Word) (n : Nat) :
    s.loadWords a n = (List.range n).map fun j => s.load (wordAddr a j) 4 := by
  induction n generalizing a with
  | zero => rfl
  | succ n ih =>
    rw [State.loadWords, ih, List.range_succ_eq_map, List.map_cons, List.map_map, wordAddr_zero]
    simp only [Function.comp_def, wordAddr_succ]

/-! ### What stops a block (R64, R69, R71, R76) -/

/-- The kind of access of a block transfer. -/
def blockAccess (load : Bool) : AccessKind := if load then .read else .write

theorem checkWords_unmapped {s : State} {k : AccessKind} {start : Word} {j n m : Nat} (hlo : j ≤ m) (hhi : m < j + n)
    (hmap : mapped s.cfg k (wordAddr start m).toNat 4 = false)
    (hbelow : ∀ i, j ≤ i → i < m → mapped s.cfg k (wordAddr start i).toNat 4 = true) :
    checkWords s k start j n = .error (.fault (.unmapped (wordAddr start m) 4)) := by
  induction n generalizing j with
  | zero => omega
  | succ n ih =>
    rw [checkWords]
    by_cases hj : j = m
    · subst hj
      rw [hmap]
      rfl
    · rw [if_pos (hbelow j (by omega) (by omega))]
      exact ih (by omega) (by omega) fun i hi => hbelow i (by omega)

variable {s : State} {k : AccessKind} {start : Word} {n : Nat}

theorem checkBlock_passesTop (h : 2 ^ 32 < start.toNat + 4 * n) :
    checkBlock s k start n = .error (.refused .blockPassesTop) := by
  have htop : decide (addressSpace < start.toNat + 4 * n) = true := decide_eq_true (by unfold addressSpace; omega)
  rw [checkBlock, htop]
  rfl

theorem checkBlock_below (htop : start.toNat + 4 * n ≤ 2 ^ 32) :
    decide (addressSpace < start.toNat + 4 * n) = false := decide_eq_false (by unfold addressSpace; omega)

theorem checkBlock_misaligned (htop : start.toNat + 4 * n ≤ 2 ^ 32) (h : start.toNat % 4 ≠ 0) :
    checkBlock s k start n = .error (.fault (.misaligned start 4)) := by
  rw [checkBlock, checkBlock_below htop, if_pos h]
  rfl

theorem checkBlock_unmapped {m : Nat} (htop : start.toNat + 4 * n ≤ 2 ^ 32) (halign : start.toNat % 4 = 0) (hm : m < n)
    (hmap : mapped s.cfg k (wordAddr start m).toNat 4 = false)
    (hbelow : ∀ i, i < m → mapped s.cfg k (wordAddr start i).toNat 4 = true) :
    checkBlock s k start n = .error (.fault (.unmapped (wordAddr start m) 4)) := by
  rw [checkBlock, checkBlock_below htop, if_neg (not_not.2 halign),
    checkWords_unmapped (Nat.zero_le m) (by omega) hmap fun i _ => hbelow i]
  rfl

theorem checkBlock_text (h : BlockAdmitted s .write start n) (htext : meetsText s.cfg start.toNat (4 * n) = true) :
    checkBlock s .write start n = .error (.refused .storeToText) := by
  obtain ⟨htop, halign, hmap⟩ := h
  have hwords : checkWords s .write start 0 n = .ok () := (checkWords_ok ..).2 fun i _ hi => hmap i (by omega)
  rw [checkBlock, checkBlock_below htop, if_neg (not_not.2 halign), hwords, htext]
  rfl

/-- A block that is admitted, and for a store misses the text, passes its check. -/
theorem checkBlock_admitted (h : BlockAdmitted s k start n)
    (htext : k = .write → meetsText s.cfg start.toNat (4 * n) = false) : checkBlock s k start n = .ok () :=
  (checkBlock_ok ..).2 ⟨h.1, h.2.1, h.2.2, htext⟩

end Sys2Proof.Machine
end

section
/-! PROOFS. LDM and STM (44_load_store_multiple.md R260 to R268): the states they complete in, and what those hold. -/

namespace Sys2Proof.Machine

/-! ### The state after the block -/

/-- The state of an LDM after its words and its base are written, the pc and the status still those before. -/
def loadedBlock (s : State) (before up user wb : Bool) (rn : Reg) (list : BitVec 16) : State :=
  writeBlockBase wb rn (blockEnd up (s.reg rn) (countOf list))
    (writeRegs (usesUserBank user list) s ((regsOf list).zip
      (s.loadWords (lsmStart s before up rn list) (countOf list))))

/-- The state of an STM after its words and its base are written, the pc still that before. -/
def storedBlock (s : State) (before up user wb : Bool) (rn : Reg) (list : BitVec 16) : State :=
  writeBlockBase wb rn (blockEnd up (s.reg rn) (countOf list))
    (s.storeWords (lsmStart s before up rn list) ((regsOf list).map fun i => lsmReg (usesUserBank user list) s i))

variable {s t : State} {c : Cond} {before up user wb : Bool} {rn : Reg} {list : BitVec 16}

/-- What an LDM whose condition passes answers (R260, R263, R265 to R268). -/
theorem exec_ldm_next (hc : conditionPassed c s.cpsr = true) :
    exec (.ldm c before up user wb rn list) s = .next t ↔
      checkLsm true user wb rn list s = .ok () ∧
      checkBlock s .read (lsmStart s before up rn list) (countOf list) = .ok () ∧
      ((inList list Reg.pc = true ∧ (s.load (lsmAddress s before up rn list Reg.pc) 4).toNat % 4 = 0 ∧
          t = { loadedBlock s before up user wb rn list with
            pc := s.load (lsmAddress s before up rn list Reg.pc) 4
            cpsr := if user then s.spsrOf s.cpsr.mode else s.cpsr }) ∨
        (inList list Reg.pc = false ∧ s.CanAdvance ∧
          t = { loadedBlock s before up user wb rn list with pc := s.pc + 4#32 })) := by
  refine (execLdm_next ..).trans ?_
  simp only [hc, true_and, Bool.true_eq_false, false_and, or_false]
  refine and_congr_right fun _ => and_congr_right fun _ => (leaveLdm_ok ..).trans ?_
  refine or_congr (and_congr_right fun hlist => ?_) (and_congr_right fun _ => ?_)
  · rw [return_eq (s := s) (by simp) (by simp), lsmAddress, rankIn_pc hlist]
    rfl
  · rw [advance_ok, writeBlockBase_pc, writeRegs_pc]
    rfl

/-- What an STM whose condition passes answers (R260, R264, R265, R267). -/
theorem exec_stm_next (hc : conditionPassed c s.cpsr = true) :
    exec (.stm c before up user wb rn list) s = .next t ↔
      checkLsm false user wb rn list s = .ok () ∧
      checkBlock s .write (lsmStart s before up rn list) (countOf list) = .ok () ∧
      s.CanAdvance ∧ t = { storedBlock s before up user wb rn list with pc := s.pc + 4#32 } := by
  refine (execStm_next ..).trans ?_
  simp only [hc, true_and, Bool.true_eq_false, false_and, or_false]
  refine and_congr_right fun _ => and_congr_right fun _ => ?_
  rw [advance_ok, writeBlockBase_pc, State.storeWords_pc]
  rfl

/-! ### What the blocks leave alone -/

theorem loadedBlock_rest (s : State) (before up user wb : Bool) (rn : Reg) (list : BitVec 16) :
    (loadedBlock s before up user wb rn list).cpsr = s.cpsr ∧
    SameMemory s (loadedBlock s before up user wb rn list) ∧ SameSaved s (loadedBlock s before up user wb rn list) ∧
    SameCoprocessors s (loadedBlock s before up user wb rn list) := by
  unfold loadedBlock
  exact ⟨by simp, State.byteAt_congr s (by simp), ⟨by simp, by simp⟩, by simp, by simp⟩

theorem storedBlock_rest (s : State) (before up user wb : Bool) (rn : Reg) (list : BitVec 16) :
    (storedBlock s before up user wb rn list).cpsr = s.cpsr ∧
    SameSaved s (storedBlock s before up user wb rn list) ∧
    SameCoprocessors s (storedBlock s before up user wb rn list) := by
  unfold storedBlock
  exact ⟨by simp, ⟨by simp, by simp⟩, by simp, by simp⟩

/-! ### The words of the block (R263, R264) -/

theorem transferHome_eq_lsmHome (s : State) (user : Bool) (list : BitVec 16) (i : Reg) :
    transferHome (usesUserBank user list) s i = s.lsmHome user list i := by
  unfold transferHome usesUserBank State.lsmHome
  cases user <;> cases inList list Reg.pc <;> rfl

theorem lsmReg_eq_phys (s : State) (user : Bool) (list : BitVec 16) (i : Reg) :
    lsmReg (usesUserBank user list) s i = s.phys (s.lsmHome user list i) := by
  rw [← transferHome_eq_lsmHome, transferHome, lsmReg]
  cases usesUserBank user list <;> rfl

/-- A loaded register that is the last in its physical register holds the word of its rank. -/
theorem phys_writeRegs_listed (ub : Bool) {i : Reg} {words : List Word} (hi : inList list i = true)
    (hlast : lastAtHome (transferHome ub s) list i) (hlen : words.length = countOf list) :
    (writeRegs ub s ((regsOf list).zip words)).phys (transferHome ub s i) = words.getD (rankIn list i.toNat) 0#32 := by
  obtain ⟨l, l', hregs, hrank, habove⟩ := regsOf_split hi
  have hlt : l.length < words.length := by rw [hlen, hrank]; exact rankIn_lt hi
  obtain ⟨hpc, hmax⟩ := hlast
  have hwords : words = words.take l.length ++ words[l.length] :: words.drop (l.length + 1) := by
    rw [← List.drop_eq_getElem_cons hlt, List.take_append_drop]
  have hzip : (regsOf list).zip words =
      l.zip (words.take l.length) ++ (i, words[l.length]) :: l'.zip (words.drop (l.length + 1)) := by
    conv_lhs => rw [hregs, hwords, List.zip_append (by simp; omega), List.zip_cons_cons]
  rw [hzip, phys_writeRegs_last s ub _ _ i _ hpc, ← hrank, List.getD_eq_getElem _ _ hlt]
  intro e he hepc heq
  have hmem : e.1 ∈ l' := (List.of_mem_zip he).1
  have hlisted : inList list e.1 = true := (mem_regsOf ..).1 (by rw [hregs]; simp [hmem])
  have hle := hmax e.1 hlisted hepc heq.symm
  have hgt := habove _ hmem
  omega

/-- The base after an LDM that writes it back. -/
theorem loadedBlock_base (hwb : wb = true) :
    (loadedBlock s before up user wb rn list).phys (s.home rn) = blockEnd up (s.reg rn) (countOf list) := by
  refine (phys_writeBlockBase ..).trans (if_pos ⟨hwb, ?_⟩)
  rw [writeRegs_cfg, writeRegs_cpsr]
  rfl

/-- A physical register that no written-back base lies in is as the words left it. -/
theorem phys_loadedBlock {k : Nat} (hk : ¬ (wb = true ∧ k = s.home rn)) :
    (loadedBlock s before up user wb rn list).phys k =
      (writeRegs (usesUserBank user list) s ((regsOf list).zip
        (s.loadWords (lsmStart s before up rn list) (countOf list)))).phys k := by
  refine (phys_writeBlockBase ..).trans (if_neg ?_)
  rw [writeRegs_cfg, writeRegs_cpsr]
  exact hk

/-- A listed register after an LDM. -/
theorem loadedBlock_listed {i : Reg} (hi : inList list i = true) (hlast : lastAtHome (s.lsmHome user list) list i)
    (hne : ¬ (wb = true ∧ s.lsmHome user list i = s.home rn)) :
    (loadedBlock s before up user wb rn list).phys (s.lsmHome user list i) =
      s.load (lsmAddress s before up rn list i) 4 := by
  have hhome : transferHome (usesUserBank user list) s = s.lsmHome user list :=
    funext (transferHome_eq_lsmHome s user list)
  have hword := phys_writeRegs_listed (s := s) (usesUserBank user list) hi (hhome ▸ hlast)
    (words := s.loadWords (lsmStart s before up rn list) (countOf list)) (by simp)
  rw [State.loadWords_getD _ _ _ _ _ (rankIn_lt hi), hhome] at hword
  exact (phys_loadedBlock hne).trans hword

/-- What an LDM does not write. -/
theorem loadedBlock_other :
    SameRegistersBut (fun k => (∃ i, inList list i = true ∧ i ≠ Reg.pc ∧ k = s.lsmHome user list i) ∨
      (wb = true ∧ k = s.home rn)) s (loadedBlock s before up user wb rn list) := by
  intro k hk
  obtain ⟨hlist, hbase⟩ := not_or.1 hk
  refine (phys_loadedBlock hbase).trans (phys_writeRegs_zip _ s list _ k fun r hr hpc hkr => ?_)
  exact hlist ⟨r, hr, hpc, by rw [hkr, transferHome_eq_lsmHome]⟩

/-- The base after an STM that writes it back. -/
theorem storedBlock_base (hwb : wb = true) :
    (storedBlock s before up user wb rn list).phys (s.home rn) = blockEnd up (s.reg rn) (countOf list) := by
  refine (phys_writeBlockBase ..).trans (if_pos ⟨hwb, ?_⟩)
  rw [State.storeWords_cfg, State.storeWords_cpsr]
  rfl

/-- What an STM does not write. -/
theorem storedBlock_other :
    SameRegistersBut (fun k => wb = true ∧ k = s.home rn) s (storedBlock s before up user wb rn list) := by
  intro k hk
  refine (phys_writeBlockBase ..).trans ?_
  rw [State.storeWords_cfg, State.storeWords_cpsr]
  exact (if_neg hk).trans (s.phys_congr (by simp) k)

/-- The word of a listed register after an STM. -/
theorem storedBlock_listed {i : Reg} (hi : inList list i = true)
    (htop : (lsmStart s before up rn list).toNat + 4 * countOf list ≤ addressSpace) :
    (storedBlock s before up user wb rn list).load (lsmAddress s before up rn list i) 4 =
      s.phys (s.lsmHome user list i) := by
  obtain ⟨l, l', hregs, hrank, -⟩ := regsOf_split hi
  have hword := load_storeWords s (lsmStart s before up rn list)
    ((regsOf list).map fun i => lsmReg (usesUserBank user list) s i) (rankIn list i.toNat)
    (by rw [List.length_map]; exact rankIn_lt hi) (by rw [List.length_map]; exact htop)
  have hget : ((regsOf list).map fun i => lsmReg (usesUserBank user list) s i).getD (rankIn list i.toNat) 0#32 =
      lsmReg (usesUserBank user list) s i := by
    rw [hregs, ← hrank]
    simp
  rw [hget, lsmReg_eq_phys] at hword
  rw [← hword]
  exact State.load_congr (by simp [storedBlock]) (by simp [storedBlock]) _ _

/-- What an STM does not store to. -/
theorem storedBlock_outside (htop : (lsmStart s before up rn list).toNat + 4 * countOf list ≤ addressSpace) :
    SameMemoryOutside (lsmStart s before up rn list) (4 * countOf list) s
      (storedBlock s before up user wb rn list) := by
  intro j hj
  have hlen : ((regsOf list).map fun i => lsmReg (usesUserBank user list) s i).length = countOf list :=
    List.length_map ..
  rw [State.byteAt_congr (s.storeWords (lsmStart s before up rn list)
    ((regsOf list).map fun i => lsmReg (usesUserBank user list) s i)) (by simp [storedBlock])]
  exact s.byteAt_storeWords_outside _ _ _ (hlen ▸ htop) (hlen ▸ hj)

end Sys2Proof.Machine
end

section
/-! PROOFS. The obligations on LDM and STM (44_load_store_multiple.md): completed transfers, frames, corner cases,
address stops, and the opposite mode. -/

namespace Sys2Proof.Machine

variable {s t : State} {c : Cond} {before up user wb load : Bool} {rn : Reg} {list : BitVec 16}

/-! ### Completed transfers -/

/-- Where no corner case of R271 or R266 holds. -/
theorem checkLsm_admitted (hlist : list ≠ 0#16) (hrn : rn ≠ Reg.pc) (hbase : ¬ (inList list rn = true ∧ wb = true))
    (hpc : load = false → inList list Reg.pc = false)
    (huser : user = true → s.cfg.modes ≠ [] ∧ (inList list Reg.pc = false → wb = false) ∧
      (inList list Reg.pc = true → hasSpsr s.cfg s.cpsr.mode = true)) :
    checkLsm load user wb rn list s = .ok () := by
  refine (checkLsm_ok ..).2 ⟨hlist, hrn, by simpa using hbase, by simpa using hpc, ?_⟩
  cases user with
  | false => simp
  | true =>
    obtain ⟨hmodes, hwb, hspsr⟩ := huser rfl
    refine ⟨?_, by simpa [singleMode] using hmodes, by simpa using hspsr⟩
    cases hin : inList list Reg.pc with
    | true => simp
    | false => simp [hwb hin]

theorem lsmHome_of_pc (s : State) (user : Bool) (hlist : inList list Reg.pc = true) :
    s.lsmHome user list = s.home := by
  funext i
  simp [State.lsmHome, hlist]

theorem lsmHome_user (s : State) (hlist : inList list Reg.pc = false) :
    s.lsmHome true list = userHome s.cfg := by
  funext i
  simp [State.lsmHome, hlist]

theorem list_ne_zero {i : Reg} (h : inList list i = true) : list ≠ 0#16 := by
  rintro rfl
  simp [inList] at h

/-- Settles O40: the state after is `loadedBlock`. -/
theorem loadMultipleCompletes : Obligations.LoadMultipleCompletes := by
  intro s c before up user wb rn list hc hlist hrn hbase hpc huser hblock hadv
  have hchk : checkLsm true user wb rn list s = .ok () := checkLsm_admitted hlist hrn hbase (by simp) fun hu =>
    ⟨(huser hu).2, fun _ => (huser hu).1, by simp [hpc]⟩
  obtain ⟨hcpsr, hmem, hsaved, hcp⟩ := loadedBlock_rest s before up user wb rn list
  refine ⟨_, (exec_ldm_next hc).2 ⟨hchk, checkBlock_admitted hblock (by simp), .inr ⟨hpc, hadv, rfl⟩⟩, rfl, hcpsr,
    fun i hi hlast hne => loadedBlock_listed hi hlast hne, loadedBlock_base, fun k hk => loadedBlock_other k ?_, hmem,
    hsaved, hcp⟩
  exact fun h => hk (h.imp_left fun ⟨i, hi, _, hki⟩ => ⟨i, hi, hki⟩)

/-- Settles O41: the state after is `loadedBlock` with the word of R15 as the pc. -/
theorem loadMultipleReturns : Obligations.LoadMultipleReturns := by
  intro s c before up user wb rn list hc hrn hbase hpc huser hblock halign
  have hchk : checkLsm true user wb rn list s = .ok () :=
    checkLsm_admitted (list_ne_zero hpc) hrn hbase (by simp) fun hu =>
      ⟨(huser hu).1, by simp [hpc], fun _ => (huser hu).2⟩
  obtain ⟨-, hmem, hsaved, hcp⟩ := loadedBlock_rest s before up user wb rn list
  have hhome := lsmHome_of_pc s user hpc
  refine ⟨_, (exec_ldm_next hc).2 ⟨hchk, checkBlock_admitted hblock (by simp), .inl ⟨hpc, halign, rfl⟩⟩, rfl, rfl,
    fun i hi hlast hne => ?_, loadedBlock_base, fun k hk => loadedBlock_other k ?_, hmem, hsaved, hcp⟩
  · rw [← hhome] at hlast
    have hword := loadedBlock_listed (before := before) (up := up) (wb := wb) (rn := rn) hi hlast
      (by rw [hhome]; exact hne)
    rw [hhome] at hword
    exact hword
  · rw [hhome]
    exact hk

/-- Settles O42: the state after is `storedBlock`. -/
theorem storeMultipleCompletes : Obligations.StoreMultipleCompletes := by
  intro s c before up user wb rn list hc hlist hrn hbase hpc huser hblock htext hadv
  have hchk : checkLsm false user wb rn list s = .ok () := checkLsm_admitted hlist hrn hbase (fun _ => hpc) fun hu =>
    ⟨(huser hu).2, fun _ => (huser hu).1, by simp [hpc]⟩
  obtain ⟨hcpsr, hsaved, hcp⟩ := storedBlock_rest s before up user wb rn list
  exact ⟨_, (exec_stm_next hc).2 ⟨hchk, checkBlock_admitted hblock fun _ => htext, hadv, rfl⟩, rfl, hcpsr,
    fun i hi => storedBlock_listed hi hblock.1, storedBlock_outside hblock.1, storedBlock_base, storedBlock_other,
    hsaved, hcp⟩

/-- Settles O43: a transfer of the user bank writes no base back. -/
theorem userBankTransfer : Obligations.UserBankTransfer := by
  intro s t c before up wb rn list hc hpc
  have hhome := lsmHome_user s hpc
  refine ⟨fun h => ?_, fun h => ?_⟩
  · obtain ⟨hchk, hblock, ⟨hno, -⟩ | ⟨-, -, rfl⟩⟩ := (exec_ldm_next hc).1 h
    · rw [hpc] at hno
      cases hno
    obtain ⟨-, -, -, -, hub, -⟩ := (checkLsm_ok ..).1 hchk
    obtain rfl : wb = false := by simpa [hpc] using hub
    refine ⟨(loadedBlock_rest ..).1, fun i hi hlast => ?_, fun k hk => loadedBlock_other k ?_⟩
    · have hword := loadedBlock_listed (before := before) (up := up) (wb := false) (rn := rn) hi
        (hhome ▸ hlast) (by simp)
      rw [hhome] at hword
      rw [← hword, ← (loadedBlock_rest ..).2.2.1.2]
      rfl
    · rw [hhome]
      rintro (⟨i, hi, -, hki⟩ | ⟨hno, -⟩)
      · exact hk ⟨i, hi, hki⟩
      · cases hno
  · obtain ⟨hchk, hblock, -, rfl⟩ := (exec_stm_next hc).1 h
    obtain ⟨-, -, -, -, hub, -⟩ := (checkLsm_ok ..).1 hchk
    obtain rfl : wb = false := by simpa [hpc] using hub
    refine ⟨(storedBlock_rest ..).1, fun i hi => ?_, fun k _ => storedBlock_other k (by simp)⟩
    refine (storedBlock_listed hi ((checkBlock_ok ..).1 hblock).1).trans ?_
    rw [hhome]
    rfl

/-! ### Frames -/

/-- Settles O44. -/
theorem multipleTransferFrame : Obligations.MultipleTransferFrame := by
  intro s t c before up user wb rn list
  refine ⟨fun h => ?_, fun h => ?_⟩
  · cases hc : conditionPassed c s.cpsr with
    | false =>
      obtain rfl := ((advance_ok ..).1 (((execLdm_next ..).1 h).resolve_left (by simp [hc])).2).2
      exact ⟨fun k _ => rfl, fun _ => rfl, fun a => rfl, ⟨rfl, rfl⟩, rfl, rfl⟩
    | true =>
      obtain ⟨hcpsr, hmem, hsaved, hcp⟩ := loadedBlock_rest s before up user wb rn list
      obtain ⟨-, -, ⟨hpc, -, rfl⟩ | ⟨-, -, rfl⟩⟩ := (exec_ldm_next hc).1 h
      · refine ⟨loadedBlock_other, fun huser => ?_, hmem, hsaved, hcp⟩
        obtain rfl : user = false := by simpa [hpc] using huser
        rfl
      · exact ⟨loadedBlock_other, fun _ => hcpsr, hmem, hsaved, hcp⟩
  · cases hc : conditionPassed c s.cpsr with
    | false =>
      obtain rfl := ((advance_ok ..).1 (((execStm_next ..).1 h).resolve_left (by simp [hc])).2).2
      exact ⟨fun k _ => rfl, rfl, by simp, fun _ a => rfl, ⟨rfl, rfl⟩, rfl, rfl⟩
    | true =>
      obtain ⟨hcpsr, hsaved, hcp⟩ := storedBlock_rest s before up user wb rn list
      obtain ⟨-, hblock, -, rfl⟩ := (exec_stm_next hc).1 h
      exact ⟨storedBlock_other, hcpsr, fun _ => storedBlock_outside ((checkBlock_ok ..).1 hblock).1, by simp, hsaved,
        hcp⟩

/-! ### What stops a multiple transfer -/

/-- The LDM or the STM of the same parts. -/
def lsmInstr (load : Bool) (c : Cond) (before up user wb : Bool) (rn : Reg) (list : BitVec 16) : Instr :=
  if load then .ldm c before up user wb rn list else .stm c before up user wb rn list

/-- A multiple transfer stops where the check on its corner cases does. -/
theorem exec_lsm_corner {e : Stop} (hc : conditionPassed c s.cpsr = true)
    (h : checkLsm load user wb rn list s = .error e) :
    exec (lsmInstr load c before up user wb rn list) s = finish (.error e) := by
  cases load
  · show execStm .. = _
    rw [execStm, execute_passed hc, h]
    rfl
  · show execLdm .. = _
    rw [execLdm, execute_passed hc, h]
    rfl

/-- An LDM with no corner case is the check on its block, then its commit. -/
theorem exec_ldm_checked (hc : conditionPassed c s.cpsr = true) (hchk : checkLsm true user wb rn list s = .ok ()) :
    exec (.ldm c before up user wb rn list) s = finish (do
      checkBlock s .read (lsmStart s before up rn list) (countOf list)
      leaveLdm user list (s.load (wordAddr (lsmStart s before up rn list) (countOf list - 1)) 4)
        (loadedBlock s before up user wb rn list)) := by
  show execLdm .. = _
  rw [execLdm, execute_passed hc, hchk]
  rfl

/-- An STM with no corner case is the check on its block, then its commit. -/
theorem exec_stm_checked (hc : conditionPassed c s.cpsr = true) (hchk : checkLsm false user wb rn list s = .ok ()) :
    exec (.stm c before up user wb rn list) s = finish (do
      checkBlock s .write (lsmStart s before up rn list) (countOf list)
      advance (storedBlock s before up user wb rn list)) := by
  show execStm .. = _
  rw [execStm, execute_passed hc, hchk]
  rfl

/-- With no corner case a multiple transfer stops where the check on its block does. -/
theorem exec_lsm_block {e : Stop} (hc : conditionPassed c s.cpsr = true)
    (hchk : checkLsm load user wb rn list s = .ok ())
    (h : checkBlock s (blockAccess load) (lsmStart s before up rn list) (countOf list) = .error e) :
    exec (lsmInstr load c before up user wb rn list) s = finish (.error e) := by
  cases load
  · exact (exec_stm_checked hc hchk).trans (congrArg (fun x => finish (x >>= fun _ => _)) h)
  · exact (exec_ldm_checked hc hchk).trans (congrArg (fun x => finish (x >>= fun _ => _)) h)

/-- An LDM whose block is admitted but whose word of R15 is no multiple of 4 (R268). -/
theorem exec_ldm_pcTarget (hc : conditionPassed c s.cpsr = true) (hchk : checkLsm true user wb rn list s = .ok ())
    (hblock : BlockAdmitted s .read (lsmStart s before up rn list) (countOf list)) (hpc : inList list Reg.pc = true)
    (h : (s.load (wordAddr (lsmStart s before up rn list) (countOf list - 1)) 4).toNat % 4 ≠ 0) :
    exec (.ldm c before up user wb rn list) s = .refused .pcTargetNotAligned := by
  rw [exec_ldm_checked hc hchk, checkBlock_admitted hblock (by simp), ok_bind, leaveLdm, hpc, if_pos rfl, loadPc,
    if_neg h]
  rfl

/-- The rows of R271 after those on the list and the base. -/
theorem checkLsm_of_base (hlist : list ≠ 0#16) (hrn : rn ≠ Reg.pc) (hbase : ¬ (inList list rn = true ∧ wb = true)) :
    checkLsm load user wb rn list s = (do
      refuseIf (!load && inList list Reg.pc) .stmOfR15
      unpredictableIf (user && wb && !inList list Reg.pc) .userBankWithWriteback
      unpredictableIf (user && singleMode s.cfg) .sBitInSingleMode
      unpredictableIf (user && inList list Reg.pc && !hasSpsr s.cfg s.cpsr.mode) .noSpsr) := by
  have hbase' : (inList list rn && wb) = false := by simpa using hbase
  rw [checkLsm, beq_false_of_ne hlist, beq_false_of_ne hrn, hbase']
  rfl

/-- Settles O45: the rows of `checkLsm` in their order. -/
theorem multipleTransferCornerCases : Obligations.MultipleTransferCornerCases := by
  intro s c before up user wb load rn list i hc hi
  obtain rfl : i = lsmInstr load c before up user wb rn list := hi
  have hrefused : ∀ r, checkLsm load user wb rn list s = .error (.refused r) → exec _ s = .refused r := fun r =>
    exec_lsm_corner (before := before) (up := up) hc
  have hfault : ∀ f, checkLsm load user wb rn list s = .error (.fault f) → exec _ s = .fault f := fun f =>
    exec_lsm_corner (before := before) (up := up) hc
  have hempty : list ≠ 0#16 → (list == 0#16) = false := beq_false_of_ne
  have hpcBase : rn ≠ Reg.pc → (rn == Reg.pc) = false := beq_false_of_ne
  refine ⟨fun hlist => hrefused _ ?_, fun hlist hrn => hrefused _ ?_, fun hrn hin hwb => hfault _ ?_,
    fun hrn hbase => ?_⟩
  · simp [checkLsm, hlist]
  · simp [checkLsm, hempty hlist, hrn]
  · simp [checkLsm, hempty (list_ne_zero hin), hpcBase hrn, hin, hwb]
  refine ⟨fun hload hpc => hrefused _ ?_, fun hlist hpc hu hwb => hfault _ ?_,
    fun hlist hu hmodes hload hwb => hfault _ ?_, fun hload hpc hu hmodes hsp => hfault _ ?_⟩
  · rw [checkLsm_of_base (list_ne_zero hpc) hrn hbase]
    simp [hload, hpc]
  · rw [checkLsm_of_base hlist hrn hbase]
    simp [hpc, hu, hwb]
  · have hstm : (!load && inList list Reg.pc) = false := by cases hload with
      | inl hl => simp [hl]
      | inr hl => simp [hl]
    have hbank : (wb && !inList list Reg.pc) = false := by cases hwb with
      | inl hin => simp [hin]
      | inr hw => simp [hw]
    rw [checkLsm_of_base hlist hrn hbase]
    simp [hstm, hbank, hu, singleMode, hmodes]
  · have hmodes' : s.cfg.modes.isEmpty = false := by simpa using hmodes
    rw [checkLsm_of_base (list_ne_zero hpc) hrn hbase]
    simp [hload, hpc, hu, singleMode, hmodes', hsp]

/-- Settles O46: with no corner case the outcome is that of the check on the block, then of the word of R15. -/
theorem multipleTransferAddressStops : Obligations.MultipleTransferAddressStops := by
  intro s c before up user wb load rn list i start n hc hlist hrn hbase hpc huser hi hstart hn
  obtain rfl : i = lsmInstr load c before up user wb rn list := hi
  subst hstart hn
  have hchk : checkLsm load user wb rn list s = .ok () := checkLsm_admitted hlist hrn hbase hpc huser
  have hrefused : ∀ r, checkBlock s (blockAccess load) (lsmStart s before up rn list) (countOf list) =
      .error (.refused r) → exec _ s = .refused r := fun r => exec_lsm_block hc hchk
  have hfault : ∀ f, checkBlock s (blockAccess load) (lsmStart s before up rn list) (countOf list) =
      .error (.fault f) → exec _ s = .fault f := fun f => exec_lsm_block hc hchk
  refine ⟨fun htop => hrefused _ (checkBlock_passesTop htop), fun htop => ⟨fun hmis =>
    hfault _ (checkBlock_misaligned htop hmis), fun halign => ⟨fun j hj hmap hbelow =>
    hfault _ (checkBlock_unmapped htop halign hj hmap hbelow), fun hload hadm htext => hrefused _ ?_,
    fun hload hadm hin halignpc => ?_⟩⟩⟩
  · subst hload
    exact checkBlock_text hadm htext
  · subst hload
    exact exec_ldm_pcTarget hc hchk hadm hin halignpc

/-! ### The opposite address mode (R273) -/

/-- From the written-back base the opposite mode starts at the same block. -/
theorem blockStart_opposite (before up : Bool) (base : Word) (n : Nat) :
    blockStart (!before) (!up) (blockEnd up base n) n = blockStart before up base n := by
  cases up <;> cases before <;> simp [blockStart, blockEnd]

/-- The opposite mode writes the base of before back. -/
theorem blockEnd_opposite (up : Bool) (base : Word) (n : Nat) : blockEnd (!up) (blockEnd up base n) n = base := by
  cases up <;> simp [blockEnd]

/-- The registers of a list, but the PC, that lie in a physical register. -/
def listedAt (home : Reg → Nat) (list : BitVec 16) (k : Nat) : Finset Reg :=
  allRegs.toFinset.filter fun j => inList list j = true ∧ j ≠ Reg.pc ∧ home j = k

theorem mem_listedAt {home : Reg → Nat} {k : Nat} {j : Reg} :
    j ∈ listedAt home list k ↔ inList list j = true ∧ j ≠ Reg.pc ∧ home j = k := by
  have hall : j ∈ allRegs := by revert j; decide
  simp [listedAt, hall]

/-- In every physical register that a listed one lies in, some listed register is the last. -/
theorem exists_lastAtHome (home : Reg → Nat) {i : Reg} (hi : inList list i = true) (hpc : i ≠ Reg.pc) :
    ∃ j, inList list j = true ∧ lastAtHome home list j ∧ home j = home i := by
  obtain ⟨j, hj, hmax⟩ := (listedAt home list (home i)).exists_max_image BitVec.toNat ⟨i, mem_listedAt.2 ⟨hi, hpc, rfl⟩⟩
  obtain ⟨hjlist, hjpc, hjhome⟩ := mem_listedAt.1 hj
  exact ⟨j, hjlist, ⟨hjpc, fun k hk hkpc hkhome => hmax k (mem_listedAt.2 ⟨hk, hkpc, hkhome.trans hjhome⟩)⟩, hjhome⟩

/-- Settles O47: the block is where the STM put it, and each register of every bank is the restored base, the last
loaded of its physical register, or untouched by both. -/
theorem oppositeModeRestoresBlock : Obligations.OppositeModeRestoresBlock := by
  intro s t c d before up rn list hc hd hexec hmap hadv
  obtain ⟨hchk, hblock, -, ht⟩ := (exec_stm_next hc).1 hexec
  obtain ⟨hlist, hrn, hbase, hpc, -⟩ := (checkLsm_ok ..).1 hchk
  obtain ⟨htop, halign, -, -⟩ := (checkBlock_ok ..).1 hblock
  have hpc' : inList list Reg.pc = false := by simpa using hpc
  have hcfg : t.cfg = s.cfg := by rw [ht]; exact (storedBlock_rest ..).2.1.2
  have hcpsr : t.cpsr = s.cpsr := by rw [ht]; exact (storedBlock_rest ..).1
  have hhome : t.home = s.home := by funext i; rw [State.home, State.home, hcfg, hcpsr]
  have hlsm : ∀ u : State, u.lsmHome false list = u.home := fun u => by funext i; simp [State.lsmHome]
  have hreg : t.reg rn = blockEnd up (s.reg rn) (countOf list) := by
    show t.phys (t.home rn) = _
    rw [hhome, ht]
    exact storedBlock_base rfl
  have hstart : lsmStart t (!before) (!up) rn list = lsmStart s before up rn list := by
    rw [lsmStart, hreg, blockStart_opposite, lsmStart]
  have hadm : BlockAdmitted t .read (lsmStart t (!before) (!up) rn list) (countOf list) := by
    rw [hstart]
    exact ⟨htop, halign, fun j hj => hcfg ▸ hmap j hj⟩
  have hchk' : checkLsm true false true rn list t = .ok () :=
    checkLsm_admitted hlist hrn (by simpa using hbase) (by simp) (by simp)
  refine ⟨_, (exec_ldm_next (hcpsr ▸ hd)).2 ⟨hchk', checkBlock_admitted hadm (by simp), .inr ⟨hpc', hadv, rfl⟩⟩,
    fun k _ => ?_, (loadedBlock_rest ..).2.1⟩
  show (loadedBlock t (!before) (!up) false true rn list).phys k = s.phys k
  by_cases hkbase : k = s.home rn
  · rw [hkbase, ← hhome, loadedBlock_base rfl, hreg, blockEnd_opposite, hhome]
    rfl
  by_cases hklist : ∃ i, inList list i = true ∧ i ≠ Reg.pc ∧ k = s.home i
  · obtain ⟨i, hi, hipc, rfl⟩ := hklist
    obtain ⟨j, hj, hlast, hjhome⟩ := exists_lastAtHome s.home hi hipc
    have hword := loadedBlock_listed (s := t) (before := !before) (up := !up) (user := false) (wb := true) (rn := rn) hj
      (by rw [hlsm, hhome]; exact hlast) (by rw [hlsm, hhome, hjhome]; exact fun h => hkbase h.2)
    have hstored := storedBlock_listed (s := s) (user := false) (wb := true) hj htop
    rw [hlsm, hjhome] at hstored
    rw [hlsm, hhome, hjhome, lsmAddress, hstart] at hword
    rw [hword, ← hstored, ht]
    rfl
  · rw [loadedBlock_other k ?_, ht]
    · exact storedBlock_other k fun h => hkbase h.2
    · rw [hlsm, hhome]
      exact fun h => h.elim hklist fun h => hkbase h.2

end Sys2Proof.Machine
end

section
/-! PROOFS. The coprocessor Load/Store (45_coprocessor_load_store.md): completed transfers, their frame, and what stops
them. -/

namespace Sys2Proof

open Sys2Proof.Machine

/-! ### The four forms (R301, R302) -/

theorem cpWritesBack_eq (ix : Indexing) : cpWritesBack ix = ix.w := by cases ix <;> rfl

theorem CpAccess.cpOffset_eq (x : CpAccess) : cpOffset x.low = x.byteOffset := by
  apply BitVec.eq_of_toNat_eq
  have hlow := x.low.isLt
  simp only [cpOffset, CpAccess.byteOffset, BitVec.toNat_mul, BitVec.toNat_setWidth, BitVec.toNat_ofNat]
  omega

theorem CpAccess.cpFirst_eq (x : CpAccess) (base : Word) : cpFirst x.ix x.up base x.low = x.first base := by
  unfold cpFirst CpAccess.first
  rw [x.cpOffset_eq]
  cases x.ix <;> rfl

theorem CpAccess.cpOption_eq (x : CpAccess) : cpOption x.ix x.low = x.userByte := by
  unfold cpOption CpAccess.userByte
  cases x.ix <;> rfl

/-! ### The state after a transfer -/

theorem afterCp_mem (s u : State) (rn : Reg) (wb : Option Word) (note : CpTransfer) :
    (afterCp s u rn wb note).mem = u.mem := by cases wb <;> rfl

theorem afterCp_cfg (s u : State) (rn : Reg) (wb : Option Word) (note : CpTransfer) :
    (afterCp s u rn wb note).cfg = u.cfg := by cases wb <;> rfl

theorem afterCp_cpsr (s u : State) (rn : Reg) (wb : Option Word) (note : CpTransfer) :
    (afterCp s u rn wb note).cpsr = u.cpsr := by cases wb <;> rfl

theorem afterCp_spsr (s u : State) (rn : Reg) (wb : Option Word) (note : CpTransfer) :
    (afterCp s u rn wb note).spsr = u.spsr := by cases wb <;> rfl

/-- The written-back base. -/
theorem afterCp_reg (s u : State) (rn : Reg) (v : Word) (note : CpTransfer) :
    (afterCp s u rn (some v) note).reg rn = v := u.reg_setReg_self rn v

/-- A physical register that no written-back base lies in. -/
theorem afterCp_phys (s u : State) (rn : Reg) (wb : Option Word) (note : CpTransfer) {k : Nat}
    (hk : wb.isSome = true → k ≠ u.home rn) : (afterCp s u rn wb note).phys k = u.phys k := by
  cases wb with
  | none => rfl
  | some v => exact (u.phys_setReg k rn v).trans (if_neg (hk rfl))

/-! ### What a transfer does -/

/-- The words of a transfer: a load's from memory, a store's from the coprocessor. -/
def CpAccess.words (x : CpAccess) (s : State) (base : Word) : List Word :=
  if x.load then s.loadWords (x.first base) (drawnCount s.draws) else drawnWords s.draws

/-- Memory after the words of a transfer: a store's words from the first address upwards. -/
def CpAccess.stored (x : CpAccess) (s : State) (base : Word) : State :=
  if x.load then s else s.storeWords (x.first base) (x.words s base)

/-- The record of a transfer. -/
def CpAccess.note (x : CpAccess) (s : State) (base : Word) : CpTransfer :=
  ⟨x.load, x.cp, x.crd, x.n, x.userByte, x.words s base⟩

/-- The state of a transfer after its words, its record and its base, the pc still that before. -/
def CpAccess.done (x : CpAccess) (s : State) (base : Word) : State :=
  writeCpBase x.ix x.rn (indexedBase x.up base x.byteOffset) ((x.stored s base).noteTransfer (x.note s base))

theorem CpAccess.words_length (x : CpAccess) (s : State) (base : Word) :
    (x.words s base).length = drawnCount s.draws := by
  unfold CpAccess.words
  split <;> simp

theorem CpAccess.stored_load {x : CpAccess} {s : State} {base : Word} (hx : x.load = true) : x.stored s base = s := by
  rw [CpAccess.stored, hx, if_pos rfl]

theorem CpAccess.stored_store {x : CpAccess} {s : State} {base : Word} (hx : x.load = false) :
    x.stored s base = s.storeWords (x.first base) (x.words s base) := by
  rw [CpAccess.stored, hx, if_neg Bool.false_ne_true]

theorem CpAccess.stored_rest (x : CpAccess) (s : State) (base : Word) :
    (x.stored s base).regs = s.regs ∧ (x.stored s base).cpsr = s.cpsr ∧ SameSaved s (x.stored s base) ∧
      SameCoprocessors s (x.stored s base) ∧ (x.stored s base).pc = s.pc := by
  unfold CpAccess.stored
  split
  · exact ⟨rfl, rfl, ⟨rfl, rfl⟩, ⟨rfl, rfl⟩, rfl⟩
  · exact ⟨by simp, by simp, ⟨by simp, by simp⟩, ⟨by simp, by simp⟩, by simp⟩

/-- The state of a transfer once its pc has moved on is that of R300 and R306. -/
theorem CpAccess.done_advanced (x : CpAccess) (s : State) (base : Word) :
    { x.done s base with pc := s.pc + 4#32 } =
      afterCp s (x.stored s base) x.rn (x.writeBack base) (x.note s base) := by
  obtain ⟨-, -, -, ⟨hlog, hdraws⟩, -⟩ := x.stored_rest s base
  unfold CpAccess.done writeCpBase CpAccess.writeBack afterCp State.noteTransfer
  rw [cpWritesBack_eq, hlog, hdraws]
  cases x.ix.w <;> rfl

end Sys2Proof

namespace Sys2Proof.Machine

theorem load_of_blockAccess_write {load : Bool} (h : blockAccess load = .write) : load = false := by
  cases load with
  | false => rfl
  | true => cases h

/-- The commit of a transfer is where the pc can move on. -/
theorem advance_done {x : CpAccess} {s t : State} {base : Word} :
    advance (x.done s base) = .ok t ↔
      s.CanAdvance ∧ t = afterCp s (x.stored s base) x.rn (x.writeBack base) (x.note s base) := by
  obtain ⟨-, -, -, -, hpc⟩ := x.stored_rest s base
  have hdone : (x.done s base).pc = s.pc := by rw [CpAccess.done, writeCpBase_pc, State.noteTransfer_pc, hpc]
  rw [← x.done_advanced, advance_ok, hdone]
  rfl

section Runs

variable {i : Instr} {x : CpAccess} {c : Cond} {s t : State} {base : Word} (hrun : RunsCp i x c)
include hrun

/-- A transfer of an absent coprocessor, whatever the flags (R308). -/
theorem RunsCp.absent (h : s.cfg.coprocs.contains x.cp = false) :
    exec i s = .fault (.undefinedEncoding .coprocessorAbsent (encode i)) := by
  rw [hrun.exec_eq, execCp, checkPresent, h]
  rfl

/-- A transfer that passes the checks on the word and its condition. -/
theorem RunsCp.exec_passed (hcp : s.cfg.coprocs.contains x.cp = true) (hc : conditionPassed c s.cpsr = true) :
    exec i s = finish (do
      refuseIf (x.ix.w && x.rn == Reg.pc) .r15Writeback
      let base ← readReg s x.rn
      checkBlock s (blockAccess x.load) (x.first base) (drawnCount s.draws)
      advance (x.done s base)) := by
  have hpresent : checkPresent s.cfg x.cp (encode i) = .ok () := (checkPresent_ok ..).2 hcp
  rw [hrun.exec_eq, execCp, hpresent, execute_passed hc, cpWritesBack_eq]
  simp only [x.cpFirst_eq, x.cpOffset_eq, x.cpOption_eq]
  rfl

/-- A written-back R15 (R306). -/
theorem RunsCp.pcWriteback (hcp : s.cfg.coprocs.contains x.cp = true) (hc : conditionPassed c s.cpsr = true)
    (hw : x.ix.w = true) (hrn : x.rn = Reg.pc) : exec i s = .refused .r15Writeback := by
  rw [hrun.exec_passed hcp hc, hw, hrn]
  rfl

/-- A transfer with a readable base is the check on its block, then its commit. -/
theorem RunsCp.exec_based (hcp : s.cfg.coprocs.contains x.cp = true) (hc : conditionPassed c s.cpsr = true)
    (hrn : x.ix.w = true → x.rn ≠ Reg.pc) (hbase : readReg s x.rn = .ok base) :
    exec i s = finish (do
      checkBlock s (blockAccess x.load) (x.first base) (drawnCount s.draws)
      advance (x.done s base)) := by
  have hfree : (x.ix.w && x.rn == Reg.pc) = false := by simpa using hrn
  rw [hrun.exec_passed hcp hc, hfree, hbase]
  rfl

/-- What a coprocessor transfer that answers a next state has done. -/
theorem RunsCp.next (h : exec i s = .next t) :
    (conditionPassed c s.cpsr = false ∧ t = { s with pc := s.pc + 4#32 }) ∨
    (conditionPassed c s.cpsr = true ∧ ∃ base, readReg s x.rn = .ok base ∧
      checkBlock s (blockAccess x.load) (x.first base) (drawnCount s.draws) = .ok () ∧
      t = afterCp s (x.stored s base) x.rn (x.writeBack base) (x.note s base)) := by
  have h' := h
  rw [hrun.exec_eq, execCp, execute_next, checkPresent_ok] at h
  obtain ⟨hcp, ⟨hc, -⟩ | ⟨hc, hadv⟩⟩ := h
  · rw [hrun.exec_passed hcp hc, finish_next] at h'
    simp only [bind_ok, advance_done] at h'
    obtain ⟨-, -, base, hbase, _, hblock, -, ht⟩ := h'
    exact .inr ⟨hc, base, hbase, hblock, ht⟩
  · exact .inl ⟨hc, (advance_of_pc rfl hadv).2⟩

end Runs

/-! ### The obligations -/

theorem drawn_admitted {s : State} {k : AccessKind} {start : Word} (h : BlockAdmitted s k start 16) :
    BlockAdmitted s k start (drawnCount s.draws) := by
  obtain ⟨-, hle⟩ := drawnCount_range s.draws
  obtain ⟨htop, halign, hmap⟩ := h
  exact ⟨by omega, halign, fun j hj => hmap j (by omega)⟩

/-- Part of a range that misses the text misses it. -/
theorem meetsText_mono {cfg : Config} {a n m : Nat} (h : meetsText cfg a n = false) (hle : m ≤ n) :
    meetsText cfg a m = false :=
  (meetsText_eq_false ..).2 fun b hlo hhi => (meetsText_eq_false ..).1 h b hlo (by omega)

variable {i : Instr} {x : CpAccess} {c : Cond} {s t : State} {base : Word}

/-- A transfer of an admitted block. -/
theorem RunsCp.exec_admitted (hrun : RunsCp i x c) (hcp : s.cfg.coprocs.contains x.cp = true)
    (hc : conditionPassed c s.cpsr = true) (hrn : x.ix.w = true → x.rn ≠ Reg.pc) (hbase : readReg s x.rn = .ok base)
    (hblock : checkBlock s (blockAccess x.load) (x.first base) (drawnCount s.draws) = .ok ()) (hadv : s.CanAdvance) :
    exec i s = .next (afterCp s (x.stored s base) x.rn (x.writeBack base) (x.note s base)) := by
  rw [hrun.exec_based hcp hc hrn hbase, hblock, ok_bind, advance_done.2 ⟨hadv, rfl⟩, finish_ok]

/-- Settles O48: the count is the drawn one. -/
theorem coprocessorLoadCompletes : Obligations.CoprocessorLoadCompletes := by
  intro s i x c base hi hx hcond hc hcp hrn hbase hadm hadv
  obtain ⟨c', hrun⟩ := cp_runs hi
  obtain rfl : c' = c := Option.some.inj (hrun.condition.symm.trans hcond)
  obtain ⟨hlo, hhi⟩ := drawnCount_range s.draws
  have hblock : checkBlock s (blockAccess x.load) (x.first base) (drawnCount s.draws) = .ok () := by
    rw [hx]
    exact checkBlock_admitted (drawn_admitted hadm) (by simp [blockAccess])
  have hexec := hrun.exec_admitted hcp hc hrn hbase hblock hadv
  rw [CpAccess.stored_load hx, CpAccess.note, CpAccess.words, hx, if_pos rfl, loadWords_eq_map] at hexec
  exact ⟨_, hlo, hhi, hexec⟩

/-- Settles O49: the words are the drawn ones. -/
theorem coprocessorStoreCompletes : Obligations.CoprocessorStoreCompletes := by
  intro s i x c base hi hx hcond hc hcp hrn hbase hadm htext hadv
  obtain ⟨c', hrun⟩ := cp_runs hi
  obtain rfl : c' = c := Option.some.inj (hrun.condition.symm.trans hcond)
  obtain ⟨hlo, hhi⟩ := drawnCount_range s.draws
  have hadm' := drawn_admitted hadm
  have hblock : checkBlock s (blockAccess x.load) (x.first base) (drawnCount s.draws) = .ok () := by
    rw [hx]
    exact checkBlock_admitted hadm' fun _ => meetsText_mono htext (by omega)
  have hexec := hrun.exec_admitted hcp hc hrn hbase hblock hadv
  have hlen := x.words_length s base
  rw [CpAccess.stored_store hx, CpAccess.note, hx] at hexec
  refine ⟨x.words s base, hlen ▸ hlo, hlen ▸ hhi, hexec, fun t ht j hj => ?_⟩
  obtain ⟨hmem, hcfg⟩ : t.mem = (s.storeWords (x.first base) (x.words s base)).mem ∧
      t.cfg = (s.storeWords (x.first base) (x.words s base)).cfg := by
    rw [← Host.Outcome.next.inj (hexec.symm.trans ht)]
    exact ⟨afterCp_mem .., afterCp_cfg ..⟩
  rw [State.load_congr hmem hcfg]
  exact load_storeWords _ _ _ _ hj (hlen ▸ hadm'.1)

/-- Settles O50. -/
theorem coprocessorTransferFrame : Obligations.CoprocessorTransferFrame := by
  intro s t i x c hi hcond h
  obtain ⟨c', hrun⟩ := cp_runs hi
  obtain rfl : c' = c := Option.some.inj (hrun.condition.symm.trans hcond)
  rcases hrun.next h with ⟨hc, rfl⟩ | ⟨hc, base, hbase, hblock, rfl⟩
  · exact ⟨fun k _ => rfl, rfl, ⟨rfl, rfl⟩, fun _ a => rfl, by simp [hc]⟩
  obtain ⟨hregs, hcpsr, ⟨hspsr, hcfg⟩, -, -⟩ := x.stored_rest s base
  refine ⟨fun k hk => ?_, (afterCp_cpsr ..).trans hcpsr, ⟨(afterCp_spsr ..).trans hspsr, (afterCp_cfg ..).trans hcfg⟩,
    fun hload => ?_, fun _ base' hbase' => ?_⟩
  · refine (afterCp_phys _ _ _ _ _ fun hwb hkr => hk ⟨?_, ?_⟩).trans (s.phys_congr hregs k)
    · simpa [CpAccess.writeBack] using hwb
    · rw [hkr, State.home, hcfg, hcpsr, State.home]
  · have hx : x.load = true := by simpa [hc] using hload
    rw [CpAccess.stored_load hx]
    exact State.byteAt_congr s (afterCp_mem ..)
  · obtain rfl : base = base' := Except.ok.inj (hbase.symm.trans hbase')
    refine ⟨fun hx j hj => ?_, fun v hv => ?_⟩
    · obtain ⟨htop, -⟩ := (checkBlock_ok ..).1 hblock
      obtain ⟨-, hhi⟩ := drawnCount_range s.draws
      have hlen := x.words_length s base
      refine (State.byteAt_congr _ (afterCp_mem ..) j).trans ?_
      rw [CpAccess.stored_store hx]
      exact s.byteAt_storeWords_outside _ _ _ (hlen ▸ htop) (by omega)
    · rw [hv]
      exact afterCp_reg ..

/-- Settles O51: the check on the first word of the block needs no more than one word. -/
theorem coprocessorTransferStops : Obligations.CoprocessorTransferStops := by
  intro s i x c hi hcond
  obtain ⟨c', hrun⟩ := cp_runs hi
  obtain rfl : c' = c := Option.some.inj (hrun.condition.symm.trans hcond)
  obtain ⟨hlo, hhi⟩ := drawnCount_range s.draws
  refine ⟨hrun.absent, fun hcp hc => ⟨hrun.pcWriteback hcp hc, fun hrn base hbase htop => ?_⟩⟩
  have hexec := hrun.exec_based hcp hc hrn hbase
  refine ⟨fun hmis => ?_, fun halign hmap => ?_⟩
  · rw [hexec, checkBlock_misaligned (by omega) hmis]
    rfl
  · have hfirst := wordAddr_zero (x.first base)
    have hstop := checkBlock_unmapped (s := s) (k := blockAccess x.load) (start := x.first base)
      (n := drawnCount s.draws) (m := 0) (by omega) halign (by omega) (by rw [hfirst]; exact hmap) (by simp)
    rw [hexec, hstop, hfirst]
    rfl

/-- Settles O60: the count is the drawn one, and the outcome that of the check on its block. -/
theorem coprocessorBlockStops : Obligations.CoprocessorBlockStops := by
  intro s i x c base kind hi hcond hc hcp hrn hbase hkind
  obtain rfl : kind = blockAccess x.load := hkind
  obtain ⟨c', hrun⟩ := cp_runs hi
  obtain rfl : c' = c := Option.some.inj (hrun.condition.symm.trans hcond)
  obtain ⟨hlo, hhi⟩ := drawnCount_range s.draws
  have hstop : ∀ e, checkBlock s (blockAccess x.load) (x.first base) (drawnCount s.draws) = .error e →
      exec i s = finish (.error e) := fun e he => by
    rw [hrun.exec_based hcp hc hrn hbase, he]
    rfl
  refine ⟨_, hlo, hhi, fun htop => hstop _ (checkBlock_passesTop htop), fun htop => ⟨fun hmis =>
    hstop _ (checkBlock_misaligned htop hmis), fun halign j hj hmap hbelow =>
    hstop _ (checkBlock_unmapped htop halign hj hmap hbelow), fun hadm => ⟨fun hx htext => ?_, fun htext hadv => ?_⟩⟩⟩
  · refine hstop (.refused .storeToText) ?_
    rw [hx] at hadm ⊢
    exact checkBlock_text hadm htext
  · have hblock : checkBlock s (blockAccess x.load) (x.first base) (drawnCount s.draws) = .ok () :=
      checkBlock_admitted hadm fun hw => htext (load_of_blockAccess_write hw)
    exact ⟨_, x.note s base, hrun.exec_admitted hcp hc hrn hbase hblock hadv, rfl, x.words_length s base⟩

end Sys2Proof.Machine
end
